-- ==== Sys2Proof/Word.lean ====
section
/-! DEFINITION. The plain types of the unit's ports: a byte, a value, a vector of lanes, and the five value widths
(`00_scope.md` R5, `10_state.md` R12 to R14, `30_encoding.md` R41). -/

namespace Sys2Proof

/-- One element of buffer memory, or one lane of a vector (R5, R13). -/
abbrev Byte := BitVec 8

/-- What the value ports `req.VAL` and `rsp.VAL` carry: `VW` = 128 bits, read as an unsigned number (R5, R12, R14). -/
abbrev Value := BitVec 128

/-- What the vector ports `req.VEC` and `rsp.VEC` carry: 136 bits, 17 byte lanes (R13). -/
abbrev Lanes := BitVec 136

/-- The value widths a command may name: `WSET` of R5. -/
inductive Width where
  | w8
  | w16
  | w32
  | w64
  | w128
  deriving DecidableEq, Repr

/-- The number of bits a width stands for (R5, R41). -/
def Width.bits : Width → Nat
  | .w8 => 8
  | .w16 => 16
  | .w32 => 32
  | .w64 => 64
  | .w128 => 128

end Sys2Proof
end

