-- ==== Sys2Proof/Config.lean ====
section
/-! DEFINITION. What an implementation fixes (`00_scope.md` R5), and the one free value of the model. -/

namespace Sys2Proof

/-- The path flag `PATH`: which implementation of the datapath is selected (R18, R90). Three opaque names: they have no
bit encoding, no command reads them, and no result depends on them (R98). -/
inductive Path where
  | scalar
  | narrow
  | wide
  deriving DecidableEq, Repr

/-- The default of the OPEN parameter `AW`, the width in bits of a buffer address and of a span length (R5). The model's
states carry their own `AW` (`State.aw`); this is only the value the state after reset has. -/
def Config.defaultAddrWidth : Nat := 64

/-- `MAXLEN` of R5: the longest encoding, in bytes. -/
def Config.maxLen : Nat := 17

/-- `NLANES` of R5: the byte lanes of a vector operand. -/
def Config.numLanes : Nat := 17

/-- FREE VALUE. What a byte of buffer memory holds that neither the host nor an `ENC.W` has ever written:
"bytes the host never wrote have unspecified values" (R134; U10 of `93_implementation_defined.md`: any value). It has no
body, so nothing can be proved of it. It depends on the address alone, since an unwritten byte of ordinary memory keeps
what it holds (R25). Safe: see notes/assumptions/1.md. -/
opaque Config.unwrittenByte : Nat → Byte

end Sys2Proof
end

