-- ==== Sys2Proof/Machine/Bits.lean ====
section
/-! DEFINITION. The notation of `00_scope.md` R7: counting bits, splitting numbers into bytes and joining them,
two's-complement reading. -/

namespace Sys2Proof.Machine

/-- A number below 256 as a byte; the low eight bits of any other. -/
def byteOf (v : Nat) : Byte := BitVec.ofNat 8 v

/-- `v[hi:lo]` of R7, `(v >> lo) mod 2^(hi-lo+1)`. -/
def bitsOf (v hi lo : Nat) : Nat := (v >>> lo) % 2 ^ (hi - lo + 1)

/-- `bitlen(v)` of R7: 0 for 0, otherwise the least `m` with `v < 2^m`. -/
def bitlen (v : Nat) : Nat := if v = 0 then 0 else Nat.log2 v + 1

/-- `clz_N(v)` of R7 for `v < 2^N`: the leading zeros of `v` in an `n`-bit field. -/
def clz (n v : Nat) : Nat := n - bitlen v

/-- The consecutive one-bits of a byte from bit `i - 1` downwards. -/
def onesFrom (b : Byte) : Nat → Nat
  | 0 => 0
  | i + 1 => if b.getLsbD i then onesFrom b i + 1 else 0

/-- `clo8(b)` of R7: the consecutive one-bits of a byte from bit 7 downwards, 0 to 8. -/
def clo8 (b : Byte) : Nat := onesFrom b 8

/-- `ceil(a/b)` of R7. -/
def ceilDiv (a b : Nat) : Nat := (a + (b - 1)) / b

/-- `le(bs)` of R7: the little-endian number of a byte list. -/
def le : List Byte → Nat
  | [] => 0
  | b :: bs => b.toNat + 256 * le bs

/-- `bytes_le(v, n)` of R7: `n` bytes, byte `i` being `v[8i+7:8i]`. -/
def bytesLe (v n : Nat) : List Byte :=
  (List.range n).map fun i => byteOf (bitsOf v (8 * i + 7) (8 * i))

/-- `signed_W(u)` of R7 and R101: the two's-complement reading of a `w`-bit pattern. -/
def signedOf (w u : Nat) : Int :=
  if u < 2 ^ (w - 1) then (u : Int) else (u : Int) - 2 ^ w

/-- `unsigned_W(x)` of R7: the `w`-bit pattern of an integer in range. -/
def unsignedOf (w : Nat) (x : Int) : Nat := (x % 2 ^ w).toNat

end Sys2Proof.Machine
end

