-- ==== Sys2Proof/Machine/Operands.lean ====
section
/-! DEFINITION. The operand forms of R44: the whole of `VAL` as a number, its low `W` bits, its low byte, the lanes of
`VEC`; and the result forms, a number zero-extended into `VAL` and a byte list laid into `VEC`. -/

namespace Sys2Proof.Machine

/-- `req.VAL` as an unsigned number, no bit dropped: the operand of `ENC.W`, `SIZE.W`, `CLS`, `PVP`, `LPP`, `SCAT`. -/
def wholeValue (val : Value) : Nat := val.toNat

/-- `req.VAL[W-1:0]`: the operand of `ZZE.W`, `ZZD.W`, `FTU.W`, `UTF.W`; the bits above are ignored. -/
def lowBits (w : Width) (val : Value) : BitVec w.bits := val.setWidth w.bits

/-- `req.VAL[7:0]`: the operand of `HDR`. -/
def lowByte (val : Value) : Byte := val.setWidth 8

/-- `zext_128`: every value result fills `rsp.VAL` with zeros above its own width (R44). -/
def zext128 {n : Nat} (x : BitVec n) : Value := x.setWidth 128

/-- `X.lane[i]` of R13: bits `8i+7` down to `8i`. -/
def lane (x : Lanes) (i : Nat) : Byte := x.extractLsb' (8 * i) 8

/-- The 17 lanes of a vector, lane 0 first (R13, R91). -/
def lanesOf (x : Lanes) : List Byte := (List.range Config.numLanes).map (lane x)

/-- The vector whose lane `i` is byte `i` of the list, and `0x00` beyond its end (R48, R94). -/
def vecOf (bs : List Byte) : Lanes := BitVec.ofNat 136 (le bs)

end Sys2Proof.Machine
end

