-- ==== Sys2Proof/Syntax.lean ====
section
/-! DEFINITION. The commands of the unit, one constructor for each row of `spec/opcode_table.json` (R42, R45), and the
request record in which a command is presented (R12). A constructor carries the request fields its command reads and no
others, in the order `val`, `base`, `cap` of the assembler syntax (R48, R24). -/

namespace Sys2Proof

/-- The request record of R12, the encoded form of a command: what the host presents to start it. `base` and `cap` are
`AW` bits wide on the port; since `AW` is an OPEN parameter of the unit (R5) they are held as the natural numbers R27
computes addresses with, and WellFormed.lean checks their width. -/
structure Request where
  /-- `CMD`, 8 bits: the command word (R40). -/
  cmd : BitVec 8
  /-- `VAL`, 128 bits: the value operand, unsigned. -/
  val : Value
  /-- `VEC`, 136 bits: the vector operand (R13). -/
  vec : Lanes
  /-- `BASE`, `AW` bits: the address of byte 0 of the buffer span. -/
  base : Nat
  /-- `CAP`, `AW` bits: the number of bytes in the span. -/
  cap : Nat
  deriving DecidableEq, Repr

/-- The 41 commands. -/
inductive Instr where
  /-- `ENC.8`: encode (R75). -/
  | enc8 (val : Value) (base cap : Nat)
  /-- `ENC.16`: encode (R75). -/
  | enc16 (val : Value) (base cap : Nat)
  /-- `ENC.32`: encode (R75). -/
  | enc32 (val : Value) (base cap : Nat)
  /-- `ENC.64`: encode (R75). -/
  | enc64 (val : Value) (base cap : Nat)
  /-- `ENC.128`: encode (R75). -/
  | enc128 (val : Value) (base cap : Nat)
  /-- `DEC.8`: decode (R80). -/
  | dec8 (base cap : Nat)
  /-- `DEC.16`: decode (R80). -/
  | dec16 (base cap : Nat)
  /-- `DEC.32`: decode (R80). -/
  | dec32 (base cap : Nat)
  /-- `DEC.64`: decode (R80). -/
  | dec64 (base cap : Nat)
  /-- `DEC.128`: decode (R80). -/
  | dec128 (base cap : Nat)
  /-- `SIZE.8`: encoded size (R86). -/
  | size8 (val : Value)
  /-- `SIZE.16`: encoded size (R86). -/
  | size16 (val : Value)
  /-- `SIZE.32`: encoded size (R86). -/
  | size32 (val : Value)
  /-- `SIZE.64`: encoded size (R86). -/
  | size64 (val : Value)
  /-- `SIZE.128`: encoded size (R86). -/
  | size128 (val : Value)
  /-- `CLS`: classify a value (R68). -/
  | cls (val : Value)
  /-- `PVP`: prefix-varint parameters (R69). -/
  | pvp (val : Value)
  /-- `LPP`: length-prefixed parameters (R70). -/
  | lpp (val : Value)
  /-- `HDR`: classify a first byte (R71). -/
  | hdr (val : Value)
  /-- `GATH`: bit gather (R91). -/
  | gath (vec : Lanes)
  /-- `SCAT`: bit scatter (R94). -/
  | scat (val : Value)
  /-- `ZZE.8`: zigzag, signed to unsigned (R103). -/
  | zze8 (val : Value)
  /-- `ZZE.16`: zigzag, signed to unsigned (R103). -/
  | zze16 (val : Value)
  /-- `ZZE.32`: zigzag, signed to unsigned (R103). -/
  | zze32 (val : Value)
  /-- `ZZE.64`: zigzag, signed to unsigned (R103). -/
  | zze64 (val : Value)
  /-- `ZZE.128`: zigzag, signed to unsigned (R103). -/
  | zze128 (val : Value)
  /-- `ZZD.8`: unzigzag, unsigned to signed (R105). -/
  | zzd8 (val : Value)
  /-- `ZZD.16`: unzigzag, unsigned to signed (R105). -/
  | zzd16 (val : Value)
  /-- `ZZD.32`: unzigzag, unsigned to signed (R105). -/
  | zzd32 (val : Value)
  /-- `ZZD.64`: unzigzag, unsigned to signed (R105). -/
  | zzd64 (val : Value)
  /-- `ZZD.128`: unzigzag, unsigned to signed (R105). -/
  | zzd128 (val : Value)
  /-- `FTU.8`: float pattern to unsigned (R109). -/
  | ftu8 (val : Value)
  /-- `FTU.16`: float pattern to unsigned (R109). -/
  | ftu16 (val : Value)
  /-- `FTU.32`: float pattern to unsigned (R109). -/
  | ftu32 (val : Value)
  /-- `FTU.64`: float pattern to unsigned (R109). -/
  | ftu64 (val : Value)
  /-- `FTU.128`: float pattern to unsigned (R109). -/
  | ftu128 (val : Value)
  /-- `UTF.8`: unsigned to float pattern (R110). -/
  | utf8 (val : Value)
  /-- `UTF.16`: unsigned to float pattern (R110). -/
  | utf16 (val : Value)
  /-- `UTF.32`: unsigned to float pattern (R110). -/
  | utf32 (val : Value)
  /-- `UTF.64`: unsigned to float pattern (R110). -/
  | utf64 (val : Value)
  /-- `UTF.128`: unsigned to float pattern (R110). -/
  | utf128 (val : Value)
  deriving DecidableEq, Repr

end Sys2Proof
end

