-- ==== Sys2Proof/WellFormed.lean ====
section
/-! DEFINITION. Which commands can be presented: the buffer span of a command that has one must fit the `AW`-bit ports
and must not wrap (R12, R27). A command without a span is always well formed: the fields it does not read are
"don't care" (R12), and its constructor lacks them. -/

namespace Sys2Proof

/-- A buffer span: `cap` consecutive bytes starting at `base` (R9, R26). -/
structure Span where
  base : Nat
  cap : Nat
  deriving DecidableEq, Repr

/-- `BASE` and `CAP` are `AW` bits wide (R12). -/
def Span.fitsPorts (aw : Nat) (sp : Span) : Bool :=
  decide (sp.base < 2 ^ aw) && decide (sp.cap < 2 ^ aw)

/-- `BASE + CAP <= 2^AW`, so that no address of the span wraps (R27). -/
def Span.noWrap (aw : Nat) (sp : Span) : Bool :=
  decide (sp.base + sp.cap ≤ 2 ^ aw)

/-- Address `a` is that of one of the span's bytes `BASE + i`, `0 <= i < CAP` (R26). -/
def Span.contains (sp : Span) (a : Nat) : Bool :=
  decide (sp.base ≤ a) && decide (a < sp.base + sp.cap)

/-- The span of a command that reaches memory: `ENC.W` and `DEC.W`, and no other (R20, R24). -/
def Instr.span : Instr → Option Span
  | .enc8 _ base cap => some ⟨base, cap⟩
  | .enc16 _ base cap => some ⟨base, cap⟩
  | .enc32 _ base cap => some ⟨base, cap⟩
  | .enc64 _ base cap => some ⟨base, cap⟩
  | .enc128 _ base cap => some ⟨base, cap⟩
  | .dec8 base cap => some ⟨base, cap⟩
  | .dec16 base cap => some ⟨base, cap⟩
  | .dec32 base cap => some ⟨base, cap⟩
  | .dec64 base cap => some ⟨base, cap⟩
  | .dec128 base cap => some ⟨base, cap⟩
  | .size8 _ => none
  | .size16 _ => none
  | .size32 _ => none
  | .size64 _ => none
  | .size128 _ => none
  | .cls _ => none
  | .pvp _ => none
  | .lpp _ => none
  | .hdr _ => none
  | .gath _ => none
  | .scat _ => none
  | .zze8 _ => none
  | .zze16 _ => none
  | .zze32 _ => none
  | .zze64 _ => none
  | .zze128 _ => none
  | .zzd8 _ => none
  | .zzd16 _ => none
  | .zzd32 _ => none
  | .zzd64 _ => none
  | .zzd128 _ => none
  | .ftu8 _ => none
  | .ftu16 _ => none
  | .ftu32 _ => none
  | .ftu64 _ => none
  | .ftu128 _ => none
  | .utf8 _ => none
  | .utf16 _ => none
  | .utf32 _ => none
  | .utf64 _ => none
  | .utf128 _ => none

/-- A command the host may present to a unit whose addresses are `aw` bits wide (R12, R27). -/
def Instr.wellFormed (aw : Nat) (i : Instr) : Bool :=
  match i.span with
  | none => true
  | some sp => sp.fitsPorts aw && sp.noWrap aw

end Sys2Proof
end

