-- ==== Sys2Proof/Decode.lean ====
section
/-! DEFINITION. The command word (`30_encoding.md`): the decoder of a request, the encoder, and the list of legal words.
The decoder reads the eight bits of `CMD` and copies the request fields the command names; every field is pulled out
here, once. -/

namespace Sys2Proof

/-- Why a command word is illegal (R46). The response is the same for all (R119): `IllegalCommand`. -/
inductive IllegalWord where
  /-- `Z` = 1: words `0x80` to `0xFF`. -/
  | zBitSet
  /-- `OP` is `0x0`, `0xE` or `0xF`. -/
  | noOperation
  /-- A width-taking `OP` with the reserved `WSEL` `101`, `110` or `111`. -/
  | reservedWidth
  /-- A width-less `OP` (`0x4` to `0x9`) with `WSEL` other than `000` (R43). -/
  | widthNotTaken
  deriving DecidableEq, Repr

/-- What the decoder answers. -/
inductive Decoded where
  | command (i : Instr)
  | illegal (why : IllegalWord)
  deriving DecidableEq, Repr

/-! ### Fields of the command word (R40) -/

/-- `Z`, bit 7. -/
def zField (cmd : BitVec 8) : BitVec 1 := cmd.extractLsb' 7 1

/-- `WSEL`, bits 6:4. -/
def wselField (cmd : BitVec 8) : BitVec 3 := cmd.extractLsb' 4 3

/-- `OP`, bits 3:0. -/
def opField (cmd : BitVec 8) : BitVec 4 := cmd.extractLsb' 0 4

/-- The width `WSEL` names, none for the three reserved codes (R41). -/
def widthOfWsel (wsel : BitVec 3) : Option Width :=
  match wsel.toNat with
  | 0 => some .w8
  | 1 => some .w16
  | 2 => some .w32
  | 3 => some .w64
  | 4 => some .w128
  | _ => none

/-- The `WSEL` that names a width (R41). -/
def wselOfWidth : Width → BitVec 3
  | .w8 => 0#3
  | .w16 => 1#3
  | .w32 => 2#3
  | .w64 => 3#3
  | .w128 => 4#3

/-- The word of a width-taking command: `Z` = 0, `WSEL`, `OP`, from bit 7 down (R40). -/
def sizedWord (op : BitVec 4) (w : Width) : BitVec 8 := (0#1 ++ wselOfWidth w) ++ op

/-! ### The width-taking commands as families

`encInstr w` is the spec's `ENC.W` (R7: "`ENC.W` stands for the five of them"), and so on. -/

/-- `ENC.W`. -/
def encInstr (w : Width) (val : Value) (base cap : Nat) : Instr :=
  match w with
  | .w8 => .enc8 val base cap
  | .w16 => .enc16 val base cap
  | .w32 => .enc32 val base cap
  | .w64 => .enc64 val base cap
  | .w128 => .enc128 val base cap

/-- `DEC.W`. -/
def decInstr (w : Width) (base cap : Nat) : Instr :=
  match w with
  | .w8 => .dec8 base cap
  | .w16 => .dec16 base cap
  | .w32 => .dec32 base cap
  | .w64 => .dec64 base cap
  | .w128 => .dec128 base cap

/-- `SIZE.W`. -/
def sizeInstr (w : Width) (val : Value) : Instr :=
  match w with
  | .w8 => .size8 val
  | .w16 => .size16 val
  | .w32 => .size32 val
  | .w64 => .size64 val
  | .w128 => .size128 val

/-- `ZZE.W`. -/
def zzeInstr (w : Width) (val : Value) : Instr :=
  match w with
  | .w8 => .zze8 val
  | .w16 => .zze16 val
  | .w32 => .zze32 val
  | .w64 => .zze64 val
  | .w128 => .zze128 val

/-- `ZZD.W`. -/
def zzdInstr (w : Width) (val : Value) : Instr :=
  match w with
  | .w8 => .zzd8 val
  | .w16 => .zzd16 val
  | .w32 => .zzd32 val
  | .w64 => .zzd64 val
  | .w128 => .zzd128 val

/-- `FTU.W`. -/
def ftuInstr (w : Width) (val : Value) : Instr :=
  match w with
  | .w8 => .ftu8 val
  | .w16 => .ftu16 val
  | .w32 => .ftu32 val
  | .w64 => .ftu64 val
  | .w128 => .ftu128 val

/-- `UTF.W`. -/
def utfInstr (w : Width) (val : Value) : Instr :=
  match w with
  | .w8 => .utf8 val
  | .w16 => .utf16 val
  | .w32 => .utf32 val
  | .w64 => .utf64 val
  | .w128 => .utf128 val

/-! ### Decoder -/

/-- A width-taking command: legal when `WSEL` names a width (R43). -/
def decodeSized (wsel : BitVec 3) (make : Width → Instr) : Decoded :=
  match widthOfWsel wsel with
  | some w => .command (make w)
  | none => .illegal .reservedWidth

/-- A width-less command: legal only with `WSEL` = `000` (R43). -/
def decodeUnsized (wsel : BitVec 3) (i : Instr) : Decoded :=
  if wsel = 0#3 then .command i else .illegal .widthNotTaken

/-- The command a request asks for, by the `OP` table of R42. Legality is decided from the eight bits of `CMD` alone
(R119). -/
def decode (r : Request) : Decoded :=
  if zField r.cmd = 1#1 then .illegal .zBitSet else
  match (opField r.cmd).toNat with
  | 0x1 => decodeSized (wselField r.cmd) fun w => encInstr w r.val r.base r.cap
  | 0x2 => decodeSized (wselField r.cmd) fun w => decInstr w r.base r.cap
  | 0x3 => decodeSized (wselField r.cmd) fun w => sizeInstr w r.val
  | 0x4 => decodeUnsized (wselField r.cmd) (.cls r.val)
  | 0x5 => decodeUnsized (wselField r.cmd) (.pvp r.val)
  | 0x6 => decodeUnsized (wselField r.cmd) (.lpp r.val)
  | 0x7 => decodeUnsized (wselField r.cmd) (.hdr r.val)
  | 0x8 => decodeUnsized (wselField r.cmd) (.gath r.vec)
  | 0x9 => decodeUnsized (wselField r.cmd) (.scat r.val)
  | 0xA => decodeSized (wselField r.cmd) fun w => zzeInstr w r.val
  | 0xB => decodeSized (wselField r.cmd) fun w => zzdInstr w r.val
  | 0xC => decodeSized (wselField r.cmd) fun w => ftuInstr w r.val
  | 0xD => decodeSized (wselField r.cmd) fun w => utfInstr w r.val
  | _ => .illegal .noOperation

/-- The request a bare command word makes, every operand field 0 (R48: fields a command does not name are written as 0).
The command port has eight wires: only bits 7:0 of `w` exist on it (R40, R47). -/
def requestOfWord (nbits w : Nat) : Request :=
  { cmd := BitVec.ofNat 8 (w % 2 ^ nbits), val := 0#128, vec := 0#136, base := 0, cap := 0 }

/-- The command the decoder reads from a table word: the word as `CMD`, every operand field 0. -/
def decodeTableWord (nbits w : Nat) : Option Instr :=
  match decode (requestOfWord nbits w) with
  | .command i => some i
  | .illegal _ => none

/-! ### Encoder -/

/-- The command word of a command, from the table of R45. -/
def commandWord : Instr → BitVec 8
  | .enc8 _ _ _ => 0x01#8
  | .enc16 _ _ _ => 0x11#8
  | .enc32 _ _ _ => 0x21#8
  | .enc64 _ _ _ => 0x31#8
  | .enc128 _ _ _ => 0x41#8
  | .dec8 _ _ => 0x02#8
  | .dec16 _ _ => 0x12#8
  | .dec32 _ _ => 0x22#8
  | .dec64 _ _ => 0x32#8
  | .dec128 _ _ => 0x42#8
  | .size8 _ => 0x03#8
  | .size16 _ => 0x13#8
  | .size32 _ => 0x23#8
  | .size64 _ => 0x33#8
  | .size128 _ => 0x43#8
  | .cls _ => 0x04#8
  | .pvp _ => 0x05#8
  | .lpp _ => 0x06#8
  | .hdr _ => 0x07#8
  | .gath _ => 0x08#8
  | .scat _ => 0x09#8
  | .zze8 _ => 0x0A#8
  | .zze16 _ => 0x1A#8
  | .zze32 _ => 0x2A#8
  | .zze64 _ => 0x3A#8
  | .zze128 _ => 0x4A#8
  | .zzd8 _ => 0x0B#8
  | .zzd16 _ => 0x1B#8
  | .zzd32 _ => 0x2B#8
  | .zzd64 _ => 0x3B#8
  | .zzd128 _ => 0x4B#8
  | .ftu8 _ => 0x0C#8
  | .ftu16 _ => 0x1C#8
  | .ftu32 _ => 0x2C#8
  | .ftu64 _ => 0x3C#8
  | .ftu128 _ => 0x4C#8
  | .utf8 _ => 0x0D#8
  | .utf16 _ => 0x1D#8
  | .utf32 _ => 0x2D#8
  | .utf64 _ => 0x3D#8
  | .utf128 _ => 0x4D#8

/-- The request fields a command names, the others 0 (R48); `CMD` is still to be filled in. -/
def operandFields : Instr → Request
  | .enc8 val base cap => ⟨0, val, 0, base, cap⟩
  | .enc16 val base cap => ⟨0, val, 0, base, cap⟩
  | .enc32 val base cap => ⟨0, val, 0, base, cap⟩
  | .enc64 val base cap => ⟨0, val, 0, base, cap⟩
  | .enc128 val base cap => ⟨0, val, 0, base, cap⟩
  | .dec8 base cap => ⟨0, 0, 0, base, cap⟩
  | .dec16 base cap => ⟨0, 0, 0, base, cap⟩
  | .dec32 base cap => ⟨0, 0, 0, base, cap⟩
  | .dec64 base cap => ⟨0, 0, 0, base, cap⟩
  | .dec128 base cap => ⟨0, 0, 0, base, cap⟩
  | .size8 val => ⟨0, val, 0, 0, 0⟩
  | .size16 val => ⟨0, val, 0, 0, 0⟩
  | .size32 val => ⟨0, val, 0, 0, 0⟩
  | .size64 val => ⟨0, val, 0, 0, 0⟩
  | .size128 val => ⟨0, val, 0, 0, 0⟩
  | .cls val => ⟨0, val, 0, 0, 0⟩
  | .pvp val => ⟨0, val, 0, 0, 0⟩
  | .lpp val => ⟨0, val, 0, 0, 0⟩
  | .hdr val => ⟨0, val, 0, 0, 0⟩
  | .gath vec => ⟨0, 0, vec, 0, 0⟩
  | .scat val => ⟨0, val, 0, 0, 0⟩
  | .zze8 val => ⟨0, val, 0, 0, 0⟩
  | .zze16 val => ⟨0, val, 0, 0, 0⟩
  | .zze32 val => ⟨0, val, 0, 0, 0⟩
  | .zze64 val => ⟨0, val, 0, 0, 0⟩
  | .zze128 val => ⟨0, val, 0, 0, 0⟩
  | .zzd8 val => ⟨0, val, 0, 0, 0⟩
  | .zzd16 val => ⟨0, val, 0, 0, 0⟩
  | .zzd32 val => ⟨0, val, 0, 0, 0⟩
  | .zzd64 val => ⟨0, val, 0, 0, 0⟩
  | .zzd128 val => ⟨0, val, 0, 0, 0⟩
  | .ftu8 val => ⟨0, val, 0, 0, 0⟩
  | .ftu16 val => ⟨0, val, 0, 0, 0⟩
  | .ftu32 val => ⟨0, val, 0, 0, 0⟩
  | .ftu64 val => ⟨0, val, 0, 0, 0⟩
  | .ftu128 val => ⟨0, val, 0, 0, 0⟩
  | .utf8 val => ⟨0, val, 0, 0, 0⟩
  | .utf16 val => ⟨0, val, 0, 0, 0⟩
  | .utf32 val => ⟨0, val, 0, 0, 0⟩
  | .utf64 val => ⟨0, val, 0, 0, 0⟩
  | .utf128 val => ⟨0, val, 0, 0, 0⟩

/-- The request that presents a command: its command word (R45) followed by the fields it names (R48). -/
def encode (i : Instr) : Request :=
  { operandFields i with cmd := commandWord i }

/-! ### Which request fields a command reads (R12, R24) -/

/-- The command reads `VAL`. -/
def readsVal : Instr → Bool
  | .enc8 _ _ _ => true
  | .enc16 _ _ _ => true
  | .enc32 _ _ _ => true
  | .enc64 _ _ _ => true
  | .enc128 _ _ _ => true
  | .dec8 _ _ => false
  | .dec16 _ _ => false
  | .dec32 _ _ => false
  | .dec64 _ _ => false
  | .dec128 _ _ => false
  | .size8 _ => true
  | .size16 _ => true
  | .size32 _ => true
  | .size64 _ => true
  | .size128 _ => true
  | .cls _ => true
  | .pvp _ => true
  | .lpp _ => true
  | .hdr _ => true
  | .gath _ => false
  | .scat _ => true
  | .zze8 _ => true
  | .zze16 _ => true
  | .zze32 _ => true
  | .zze64 _ => true
  | .zze128 _ => true
  | .zzd8 _ => true
  | .zzd16 _ => true
  | .zzd32 _ => true
  | .zzd64 _ => true
  | .zzd128 _ => true
  | .ftu8 _ => true
  | .ftu16 _ => true
  | .ftu32 _ => true
  | .ftu64 _ => true
  | .ftu128 _ => true
  | .utf8 _ => true
  | .utf16 _ => true
  | .utf32 _ => true
  | .utf64 _ => true
  | .utf128 _ => true

/-- The command reads `VEC`: `GATH` alone. -/
def readsVec : Instr → Bool
  | .enc8 _ _ _ => false
  | .enc16 _ _ _ => false
  | .enc32 _ _ _ => false
  | .enc64 _ _ _ => false
  | .enc128 _ _ _ => false
  | .dec8 _ _ => false
  | .dec16 _ _ => false
  | .dec32 _ _ => false
  | .dec64 _ _ => false
  | .dec128 _ _ => false
  | .size8 _ => false
  | .size16 _ => false
  | .size32 _ => false
  | .size64 _ => false
  | .size128 _ => false
  | .cls _ => false
  | .pvp _ => false
  | .lpp _ => false
  | .hdr _ => false
  | .gath _ => true
  | .scat _ => false
  | .zze8 _ => false
  | .zze16 _ => false
  | .zze32 _ => false
  | .zze64 _ => false
  | .zze128 _ => false
  | .zzd8 _ => false
  | .zzd16 _ => false
  | .zzd32 _ => false
  | .zzd64 _ => false
  | .zzd128 _ => false
  | .ftu8 _ => false
  | .ftu16 _ => false
  | .ftu32 _ => false
  | .ftu64 _ => false
  | .ftu128 _ => false
  | .utf8 _ => false
  | .utf16 _ => false
  | .utf32 _ => false
  | .utf64 _ => false
  | .utf128 _ => false

/-- The command reads `BASE` and `CAP`: the commands that have a span. -/
def readsSpan (i : Instr) : Bool := i.span.isSome

/-- The 41 legal command words, written out from the two tables of R45. -/
def legalWords : List (BitVec 8) :=
  [0x01#8, 0x11#8, 0x21#8, 0x31#8, 0x41#8] ++
  [0x02#8, 0x12#8, 0x22#8, 0x32#8, 0x42#8] ++
  [0x03#8, 0x13#8, 0x23#8, 0x33#8, 0x43#8] ++
  [0x0A#8, 0x1A#8, 0x2A#8, 0x3A#8, 0x4A#8] ++
  [0x0B#8, 0x1B#8, 0x2B#8, 0x3B#8, 0x4B#8] ++
  [0x0C#8, 0x1C#8, 0x2C#8, 0x3C#8, 0x4C#8] ++
  [0x0D#8, 0x1D#8, 0x2D#8, 0x3D#8, 0x4D#8] ++
  [0x04#8, 0x05#8, 0x06#8, 0x07#8, 0x08#8, 0x09#8]

end Sys2Proof
end

