-- ==== Sys2Proof/Machine/State.lean ====
section
/-! DEFINITION. The state of the system a command runs in, as plain data: the unit's own state is the path flag alone
(R10, R11, R16, R17, R18, R21); around it stand buffer memory, the response of the last command, and what the host
does next at the command port and in its own memory (R12, R14, R20, R22, R23). -/

namespace Sys2Proof.Machine

/-- The three structural encoding forms (R9, R53). -/
inductive Tier where
  | immediate
  | prefixVarint
  | lengthPrefixed
  deriving DecidableEq, Repr

/-- The values of `rsp.STATUS` by name (R114). The codes are `Status.code` of Flags.lean. -/
inductive Status where
  /-- The command did its work. -/
  | ok
  /-- `ENC.W`: the span is shorter than the encoding (R115). -/
  | bufferTooSmall
  /-- `DEC.W`: the span is shorter than the first byte declares (R116). -/
  | truncatedInput
  /-- `ENC.W`, `SIZE.W`, `PVP`: the value is too large (R117). -/
  | valueTooLarge
  /-- `DEC.W`: the decoded value does not fit the width (R118). -/
  | overflow
  /-- The command word is not one of the 41 legal words (R119). -/
  | illegalCommand
  deriving DecidableEq, Repr

/-- The response record of R14, every field at its width on the port. -/
structure Response where
  /-- `STATUS`, 3 bits (R114). -/
  status : BitVec 3
  /-- `VAL`, 128 bits: a value result, zero-extended (R44). -/
  val : Value
  /-- `LEN`, 5 bits: a byte count, 1 to 17. -/
  len : BitVec 5
  /-- `TIER`, 2 bits: 0 Immediate, 1 PrefixVarint, 2 LengthPrefixed. -/
  tier : BitVec 2
  /-- `AUX`, 5 bits: `k`, `n`, or 0. -/
  aux : BitVec 5
  /-- `VEC`, 136 bits: a vector result (R13). -/
  vec : Lanes
  deriving DecidableEq, Repr

/-- One run of consecutive addresses that the host backs with ordinary byte memory (R25, R36). -/
structure Region where
  base : Nat
  size : Nat
  deriving DecidableEq, Repr

/-- Buffer memory (R20, R25): the bytes somebody has written, each at its address, addresses strictly rising. What an
unlisted address reads as is said once, by `Memory.read` of Ops.lean. -/
abbrev Memory := List Host.Cell

/-- One thing the host does, seen from the unit (R22, R37: "a plain sequence of commands", with the host's own stores
and resets between them). DESIGN CHOICE: notes/assumptions/3.md. -/
inductive HostEvent where
  /-- The host presents a request and leaves the system alone until the response (R15). -/
  | command (r : Request)
  /-- The host presents a request, and between it and the response some other agent (the host itself, or another unit)
  writes `cells` (R38, R135). -/
  | commandDuring (r : Request) (cells : List Host.Cell)
  /-- The host writes `cells` to its own memory between two commands (R25, R37). -/
  | store (cells : List Host.Cell)
  /-- A reset between two commands, after which path selection gives `p` (R131, R132). -/
  | reset (p : Path)
  /-- A reset that arrives between the request `r` and its response (R133). -/
  | resetDuring (r : Request) (p : Path)
  deriving DecidableEq, Repr

/-- Reasons a step ends in a fault: there are none. "The unit has no trap, no exception vector, no handler and no fault
state" (R113); an erring command answers with a `STATUS` and the machine goes on. Safe: no run is stopped by a fault. -/
inductive Fault where
  deriving DecidableEq, Repr

/-- Reasons a step is refused. Each is safe: the spec gives such a run no meaning and says that a model refuses it, and
nothing can be proved of what the hardware would do there. -/
inductive Refusal where
  /-- `exec`, for a command without a meaning. No arm raises it: all 41 are modelled. Safe. -/
  | notModelled (mnemonic : String)
  /-- `withSpan`, for an `ENC.W` or `DEC.W` whose `BASE` or `CAP` has more than `AW` bits and so cannot be presented
  (R12). The model's own: its requests hold natural numbers. Safe. -/
  | fieldTooWide
  /-- `withSpan`, for an `ENC.W` or `DEC.W` whose span wraps: `BASE + CAP > 2^AW` (R27, U5). Safe. -/
  | spanWraps
  /-- `withSpan`, for an `ENC.W` or `DEC.W` whose span is not wholly backed by ordinary memory (R36, U6). Safe. -/
  | spanNotBacked
  /-- `transactDuring`, when another agent writes a byte of a command's span while the command runs (R38, R135, U4). Safe. -/
  | bufferDisturbed
  /-- `hostEvent`, for a reset inside a command (R133, U7). Safe. -/
  | resetInsideCommand
  /-- `hostStore`, for a write of the host or of another agent to an address without ordinary memory: it concerns no byte
  the unit could reach (R25, R36). Safe. -/
  | storeOutsideMemory
  /-- `hostLoad`, for a read of the host from an address without ordinary memory, which R25 and R36 leave out as they leave
  out the write. The model's own: notes/assumptions/8.md. Safe. -/
  | loadOutsideMemory
  deriving DecidableEq, Repr

/-- The whole state. There is no register, accumulator, program counter, flag, mode or control register to hold
(R10, R11, R16, R17, R125, R127). -/
structure State where
  /-- `AW`, the OPEN width in bits of an address (R5). A parameter: no step changes it. -/
  aw : Nat
  /-- `PATH`, the read-only path flag (R18). No meaning reads it (R98); only a reset sets it (R132). -/
  path : Path
  /-- Which addresses the host backs with ordinary byte memory (R25, R36). A parameter: no step changes it. -/
  ram : List Region
  /-- Buffer memory (R20, R25). -/
  mem : Memory
  /-- The response the last step returned, none if it ended no command (R14, R16, R23). -/
  rsp : Option Response
  /-- What the host does next, in order (R22, R37). The request of the running command stands in its head. -/
  host : List HostEvent
  deriving DecidableEq, Repr

/-- The unit right after reset, and the host about to do nothing (R23, R131). `AW` is the default of R5; `PATH`, the
memory map and the empty list of written bytes are the model's: notes/assumptions/1.md, 2.md and 4.md. -/
def State.reset : State where
  aw := Config.defaultAddrWidth
  path := .scalar
  ram := [⟨0, 2 ^ Config.defaultAddrWidth⟩]
  mem := []
  rsp := none
  host := []

end Sys2Proof.Machine
end

