-- ==== Sys2Proof/Machine/Flags.lean ====
section
/-! DEFINITION. What stands where another machine has flags. The unit has none (R16); the outcome of a command is the
`STATUS` of its response. Here are the codes of R114 and of the tiers (R14), and the two forms of a response: `OK` with
the fields a command names, and an error with every other field 0 (R7, R14). -/

namespace Sys2Proof.Machine

/-- The 3-bit code of a status (R114). Codes 5 and 6 are never produced. -/
def Status.code : Status → BitVec 3
  | .ok => 0
  | .bufferTooSmall => 1
  | .truncatedInput => 2
  | .valueTooLarge => 3
  | .overflow => 4
  | .illegalCommand => 7

/-- The 2-bit code of a tier (R14, R68). Code 3 is never produced. -/
def Tier.code : Tier → BitVec 2
  | .immediate => 0
  | .prefixVarint => 1
  | .lengthPrefixed => 2

/-- A response with the given status and every other field 0 (R14). -/
def Response.blank (k : Status) : Response :=
  { status := k.code, val := 0, len := 0, tier := 0, aux := 0, vec := 0 }

/-- The response `OK` with no field named: the base of `OK(F1 = v1, ...)` (R7). -/
def Response.okay : Response := Response.blank .ok

/-- A byte count, a `k` or an `n` as the 5-bit field `LEN` or `AUX` (R14). -/
def count (n : Nat) : BitVec 5 := BitVec.ofNat 5 n

end Sys2Proof.Machine
end

