-- ==== Sys2Proof/Machine/Layout.lean ====
section
/-! DEFINITION. The wire format and its functions (`40_bit_layout.md` R53 to R66): tier and parameters of a value, the
canonical encoding, what a first byte declares, and the value an encoding holds. All are pure functions on numbers and
byte lists. -/

namespace Sys2Proof.Machine

/-- `tier_of_value(v)` of R57. -/
def tierOfValue (v : Nat) : Tier :=
  if v < 2 ^ 7 then .immediate else if v < 2 ^ 28 then .prefixVarint else .lengthPrefixed

/-- `pv_k(v)` of R60: the least `k` in {1, 2, 3} with `v < 2^(7+7k)`; none where no such `k` exists. -/
def pvK (v : Nat) : Option Nat := [1, 2, 3].find? fun k => decide (v < 2 ^ (7 + 7 * k))

/-- `lp_n(v)` of R61: the least `n` in 1 to 16 with `v < 2^(8n)`, and at least 4. Every `v < 2^128` has such an `n`;
the 16 at the end is reached by no value of the port. -/
def lpN (v : Nat) : Nat :=
  max 4 (((List.range' 1 16).find? fun n => decide (v < 2 ^ (8 * n))).getD 16)

/-- The PrefixVarint layout of R55: `k` ones, a zero, the `7-k` low data bits, then `k` whole bytes. -/
def pvLayout (k d : Nat) : List Byte :=
  byteOf ((0xFF <<< (8 - k)) % 256 + d % 2 ^ (7 - k)) ::
    (List.range' 1 k).map fun j => byteOf ((d >>> (7 - k + 8 * (j - 1))) % 256)

/-- The LengthPrefixed layout of R56: the header `0xF0 + (n-1)`, then `n` little-endian bytes. -/
def lpLayout (n d : Nat) : List Byte := byteOf (0xF0 + (n - 1)) :: bytesLe d n

/-- `canon_len(v)` of R62. In the PrefixVarint tier `pv_k` always answers (R57, R60). -/
def canonLen (v : Nat) : Nat :=
  match tierOfValue v with
  | .immediate => 1
  | .prefixVarint => (pvK v).getD 0 + 1
  | .lengthPrefixed => lpN v + 1

/-- `canon_bytes(v)` of R63: the canonical encoding. -/
def canonBytes (v : Nat) : List Byte :=
  match tierOfValue v with
  | .immediate => [byteOf v]
  | .prefixVarint => pvLayout ((pvK v).getD 0) v
  | .lengthPrefixed => lpLayout (lpN v) v

/-- What a first byte declares: tier, parameter `a` (0, `k` or `n`) and total length `L` (R64). -/
structure Header where
  tier : Tier
  param : Nat
  len : Nat
  deriving DecidableEq, Repr

/-- `hdr(b0)` of R64. -/
def hdr (b0 : Byte) : Header :=
  let c := clo8 b0
  if c = 0 then ⟨.immediate, 0, 1⟩
  else if c ≤ 3 then ⟨.prefixVarint, c, c + 1⟩
  else ⟨.lengthPrefixed, b0.toNat % 16 + 1, b0.toNat % 16 + 2⟩

/-- Byte `j` of a byte list; an absent byte counts 0 (R55). -/
def byteAt (bs : List Byte) (j : Nat) : Byte := bs.getD j 0

/-- The value a PrefixVarint byte list holds (R65): the `7-k` low bits of byte 0, then `k` whole bytes above them. -/
def gatherPv (k : Nat) (bs : List Byte) : Nat :=
  (byteAt bs 0).toNat % 2 ^ (7 - k) +
    ((List.range' 1 k).map fun j => (byteAt bs j).toNat * 2 ^ (7 - k + 8 * (j - 1))).sum

/-- The value a LengthPrefixed byte list holds (R65): the little-endian number of bytes 1 to `n`. -/
def gatherLp (n : Nat) (bs : List Byte) : Nat := le ((List.range' 1 n).map (byteAt bs))

/-- `gather(bs)` of R65: bytes at and above the declared length are ignored. -/
def gather (bs : List Byte) : Nat :=
  let h := hdr (byteAt bs 0)
  match h.tier with
  | .immediate => (byteAt bs 0).toNat
  | .prefixVarint => gatherPv h.param bs
  | .lengthPrefixed => gatherLp h.param bs

/-- A structurally valid encoding (R9): a byte list as long as its first byte declares. -/
def structurallyValid (bs : List Byte) : Bool := decide (bs.length = (hdr (byteAt bs 0)).len)

end Sys2Proof.Machine
end

