-- ==== Sys2Proof/Machine/Ops.lean ====
section
/-! DEFINITION. The named operations over memory and the response, which every meaning is written with: reading and
writing bytes (R25, R27, R28, R32), the checks a span must pass before a command may use it (R27, R36), the `OK` answer,
and the error answer. The error answer is this unit's whole "exception entry" (R113, R122): one response, no byte of
memory changed, nothing saved, no mode, no vector. There is no return from it (R123): the next command runs as ever. -/

namespace Sys2Proof.Machine

/-! ### Memory -/

/-- The byte an agent wrote last at an address, none where nobody ever wrote. -/
def Memory.read? : Memory → Nat → Option Byte
  | [], _ => none
  | (k, b) :: m, a => if k = a then some b else Memory.read? m a

/-- `Mem[a]` (R7, R25): what was last written, and the free value of the address where nothing was (R134, U10). -/
def Memory.read (m : Memory) (a : Nat) : Byte := (Memory.read? m a).getD (Config.unwrittenByte a)

/-- Write one byte, keeping addresses strictly rising. -/
def Memory.write : Memory → Nat → Byte → Memory
  | [], a, b => [(a, b)]
  | (k, c) :: m, a, b =>
    if a < k then (a, b) :: (k, c) :: m
    else if a = k then (a, b) :: m
    else (k, c) :: Memory.write m a b

/-- `MemRead(addr, n)` of R7: the `n` bytes from `addr` upwards, lowest address first. -/
def Memory.readBytes (m : Memory) (addr n : Nat) : List Byte :=
  (List.range n).map fun i => Memory.read m (addr + i)

/-- `MemWrite(addr, n, bs)` of R7 with `n` the length of `bs`: byte `i` of the list goes to `addr + i`. -/
def Memory.writeBytes : Memory → Nat → List Byte → Memory
  | m, _, [] => m
  | m, addr, b :: bs => Memory.writeBytes (Memory.write m addr b) (addr + 1) bs

/-- Write the cells of a list, in order. -/
def Memory.writeCells (m : Memory) (cells : List Host.Cell) : Memory :=
  cells.foldl (fun m c => Memory.write m c.1 c.2) m

/-- The canonical form: addresses strictly rising, so that no address is listed twice. An unlisted address has no value
of its own (`Memory.read?` answers none), so no entry can equal it. -/
abbrev Memory.wf (m : Memory) : Prop := m.Pairwise fun c d => c.1 < d.1

/-! ### The host's memory map -/

/-- An address the host backs with ordinary memory (R25, R36). -/
def addressBacked (ram : List Region) (a : Nat) : Bool :=
  ram.any fun g => decide (g.base ≤ a) && decide (a < g.base + g.size)

/-- A span that lies wholly in ordinary memory (R36). A map lists whole runs (`mapWf` of Safety.lean), so a span of one
byte or more is backed when ONE run holds it; a span of 0 bytes reaches no byte and is always backed (R26). -/
def spanBacked (ram : List Region) (sp : Span) : Bool :=
  decide (sp.cap = 0) ||
    ram.any fun g => decide (g.base ≤ sp.base) && decide (sp.base + sp.cap ≤ g.base + g.size)

/-! ### Answers -/

/-- The state once a response has been given. -/
def State.answer (s : State) (r : Response) : State := { s with rsp := some r }

/-- `return OK(...)` of R7: the command ends with the response `r`. -/
def complete (r : Response) (s : State) : Host.Outcome State Fault Refusal := .next (s.answer r)

/-- `return ERR(Kind)` of R7, the error entry of R122: the status, every other field 0, and nothing else changed. -/
def fail (k : Status) (s : State) : Host.Outcome State Fault Refusal := .next (s.answer (Response.blank k))

/-- Run the body of a command that reaches memory, if its span is one the spec gives a meaning to: both fields fit the
ports (R12), the span does not wrap (R27), and it lies in ordinary memory (R36). Otherwise the model refuses. -/
def withSpan (sp : Span) (s : State) (body : Host.Outcome State Fault Refusal) : Host.Outcome State Fault Refusal :=
  if sp.fitsPorts s.aw = false then .refused .fieldTooWide
  else if sp.noWrap s.aw = false then .refused .spanWraps
  else if spanBacked s.ram sp = false then .refused .spanNotBacked
  else body

end Sys2Proof.Machine
end

