-- ==== Sys2Proof/Machine/BitLayout.lean ====
section
/-! DEFINITION. The bit-layout commands `CLS`, `PVP`, `LPP`, `HDR` (`40_bit_layout.md` section 5). -/

namespace Sys2Proof.Machine

/-- `CLS` (R68). -/
def execCls (val : Value) (s : State) : Host.Outcome State Fault Refusal :=
  complete { Response.okay with tier := (tierOfValue (wholeValue val)).code } s

/-- `PVP` (R69): where `pv_k` has no answer, `ValueTooLarge`. `TIER` is not written. -/
def execPvp (val : Value) (s : State) : Host.Outcome State Fault Refusal :=
  match pvK (wholeValue val) with
  | none => fail .valueTooLarge s
  | some k => complete { Response.okay with aux := count k, len := count (k + 1) } s

/-- `LPP` (R70). `TIER` is not written. -/
def execLpp (val : Value) (s : State) : Host.Outcome State Fault Refusal :=
  let n := lpN (wholeValue val)
  complete { Response.okay with aux := count n, len := count (n + 1) } s

/-- `HDR` (R71). -/
def execHdr (val : Value) (s : State) : Host.Outcome State Fault Refusal :=
  let h := hdr (lowByte val)
  complete { Response.okay with tier := h.tier.code, aux := count h.param, len := count h.len } s

end Sys2Proof.Machine
end

