-- ==== Sys2Proof/Machine/Codec.lean ====
section
/-! DEFINITION. The codec commands `ENC.W`, `DEC.W`, `SIZE.W` (`41_codec.md`). The five widths of one command share one
definition and differ only in the bound `2^W` (R73); the order of checks is that of R74. -/

namespace Sys2Proof.Machine

/-- `ENC.W` (R75 to R78): the width check, the size computation, the buffer check, the write. -/
def encodeValue (w : Width) (val : Value) (sp : Span) (s : State) : Host.Outcome State Fault Refusal :=
  withSpan sp s <|
    let v := wholeValue val
    if v ≥ 2 ^ w.bits then fail .valueTooLarge s
    else if sp.cap < canonLen v then fail .bufferTooSmall s
    else complete { Response.okay with len := count (canonLen v) }
      { s with mem := Memory.writeBytes s.mem sp.base (canonBytes v) }

/-- `DEC.W` (R80 to R84): the empty-span check and the header read, the length check, the value assembly, the width
check. Only the bytes the header declares are read. -/
def decodeSpan (w : Width) (sp : Span) (s : State) : Host.Outcome State Fault Refusal :=
  withSpan sp s <|
    if sp.cap = 0 then fail .truncatedInput s
    else
      let h := hdr (Memory.read s.mem sp.base)
      if sp.cap < h.len then fail .truncatedInput s
      else
        let v := gather (Memory.readBytes s.mem sp.base h.len)
        if v ≥ 2 ^ w.bits then fail .overflow s
        else complete { Response.okay with val := BitVec.ofNat 128 v, len := count h.len } s

/-- `SIZE.W` (R86). -/
def sizeOfValue (w : Width) (val : Value) (s : State) : Host.Outcome State Fault Refusal :=
  let v := wholeValue val
  if v ≥ 2 ^ w.bits then fail .valueTooLarge s
  else complete { Response.okay with len := count (canonLen v) } s

/-- `ENC.8` (R75). -/
def execEnc8 (val : Value) (base cap : Nat) (s : State) : Host.Outcome State Fault Refusal :=
  encodeValue .w8 val ⟨base, cap⟩ s

/-- `ENC.16` (R75). -/
def execEnc16 (val : Value) (base cap : Nat) (s : State) : Host.Outcome State Fault Refusal :=
  encodeValue .w16 val ⟨base, cap⟩ s

/-- `ENC.32` (R75). -/
def execEnc32 (val : Value) (base cap : Nat) (s : State) : Host.Outcome State Fault Refusal :=
  encodeValue .w32 val ⟨base, cap⟩ s

/-- `ENC.64` (R75). -/
def execEnc64 (val : Value) (base cap : Nat) (s : State) : Host.Outcome State Fault Refusal :=
  encodeValue .w64 val ⟨base, cap⟩ s

/-- `ENC.128` (R75). -/
def execEnc128 (val : Value) (base cap : Nat) (s : State) : Host.Outcome State Fault Refusal :=
  encodeValue .w128 val ⟨base, cap⟩ s

/-- `DEC.8` (R80). -/
def execDec8 (base cap : Nat) (s : State) : Host.Outcome State Fault Refusal :=
  decodeSpan .w8 ⟨base, cap⟩ s

/-- `DEC.16` (R80). -/
def execDec16 (base cap : Nat) (s : State) : Host.Outcome State Fault Refusal :=
  decodeSpan .w16 ⟨base, cap⟩ s

/-- `DEC.32` (R80). -/
def execDec32 (base cap : Nat) (s : State) : Host.Outcome State Fault Refusal :=
  decodeSpan .w32 ⟨base, cap⟩ s

/-- `DEC.64` (R80). -/
def execDec64 (base cap : Nat) (s : State) : Host.Outcome State Fault Refusal :=
  decodeSpan .w64 ⟨base, cap⟩ s

/-- `DEC.128` (R80). -/
def execDec128 (base cap : Nat) (s : State) : Host.Outcome State Fault Refusal :=
  decodeSpan .w128 ⟨base, cap⟩ s

/-- `SIZE.8` (R86). -/
def execSize8 (val : Value) (s : State) : Host.Outcome State Fault Refusal :=
  sizeOfValue .w8 val s

/-- `SIZE.16` (R86). -/
def execSize16 (val : Value) (s : State) : Host.Outcome State Fault Refusal :=
  sizeOfValue .w16 val s

/-- `SIZE.32` (R86). -/
def execSize32 (val : Value) (s : State) : Host.Outcome State Fault Refusal :=
  sizeOfValue .w32 val s

/-- `SIZE.64` (R86). -/
def execSize64 (val : Value) (s : State) : Host.Outcome State Fault Refusal :=
  sizeOfValue .w64 val s

/-- `SIZE.128` (R86). -/
def execSize128 (val : Value) (s : State) : Host.Outcome State Fault Refusal :=
  sizeOfValue .w128 val s

end Sys2Proof.Machine
end

