-- ==== Sys2Proof/Machine/Mapping.lean ====
section
/-! DEFINITION. The numeric mapping commands `ZZE.W`, `ZZD.W`, `FTU.W`, `UTF.W` (`43_mapping.md`), on `W`-bit patterns,
and the integer functions zigzag stands for. -/

namespace Sys2Proof.Machine

/-! ### Zigzag -/

/-- `W` copies of one bit: all ones or all zeros (R103, R105). -/
def spread (w : Nat) (bit : Bool) : BitVec w := if bit then BitVec.allOnes w else 0#w

/-- The zigzag of a `w`-bit pattern (R103): `(x << 1) XOR (x >> (w-1))`, the shift left in `w` bits, the shift right
arithmetic. -/
def zigzag {w : Nat} (x : BitVec w) : BitVec w := (x <<< 1) ^^^ spread w (x.getLsbD (w - 1))

/-- The inverse (R105): `(u >> 1) XOR -(u AND 1)`, the shift logical. -/
def unzigzag {w : Nat} (u : BitVec w) : BitVec w := (u >>> 1) ^^^ spread w (u.getLsbD 0)

/-- `zz(x)` of R102, on integers. -/
def zzInt (x : Int) : Int := if x ≥ 0 then 2 * x else -2 * x - 1

/-- `unzz(u)` of R102, on integers. -/
def unzzInt (u : Int) : Int := if u % 2 = 0 then u / 2 else -((u + 1) / 2)

/-! ### Byte reversal -/

/-- `brev_W(u)` of R107, `w` a multiple of 8: the number whose byte `i` is byte `B-1-i` of `u`. -/
def byteReverse (w u : Nat) : Nat :=
  ((List.range (w / 8)).map fun i => bitsOf u (8 * i + 7) (8 * i) * 2 ^ (8 * (w / 8 - 1 - i))).sum

/-! ### The commands' shared meanings -/

/-- `ZZE.W` (R103). -/
def zigzagEncode (w : Width) (val : Value) (s : State) : Host.Outcome State Fault Refusal :=
  complete { Response.okay with val := zext128 (zigzag (lowBits w val)) } s

/-- `ZZD.W` (R105): the result is the pattern, zero-extended and not sign-extended. -/
def zigzagDecode (w : Width) (val : Value) (s : State) : Host.Outcome State Fault Refusal :=
  complete { Response.okay with val := zext128 (unzigzag (lowBits w val)) } s

/-- `FTU.W` (R109). -/
def floatToUnsigned (w : Width) (val : Value) (s : State) : Host.Outcome State Fault Refusal :=
  complete { Response.okay with val := BitVec.ofNat 128 (byteReverse w.bits (lowBits w val).toNat) } s

/-- `UTF.W` (R110): the same function as `FTU.W`, in the other direction. -/
def unsignedToFloat (w : Width) (val : Value) (s : State) : Host.Outcome State Fault Refusal :=
  complete { Response.okay with val := BitVec.ofNat 128 (byteReverse w.bits (lowBits w val).toNat) } s

/-- `ZZE.8` (R103). -/
def execZze8 (val : Value) (s : State) : Host.Outcome State Fault Refusal := zigzagEncode .w8 val s

/-- `ZZE.16` (R103). -/
def execZze16 (val : Value) (s : State) : Host.Outcome State Fault Refusal := zigzagEncode .w16 val s

/-- `ZZE.32` (R103). -/
def execZze32 (val : Value) (s : State) : Host.Outcome State Fault Refusal := zigzagEncode .w32 val s

/-- `ZZE.64` (R103). -/
def execZze64 (val : Value) (s : State) : Host.Outcome State Fault Refusal := zigzagEncode .w64 val s

/-- `ZZE.128` (R103). -/
def execZze128 (val : Value) (s : State) : Host.Outcome State Fault Refusal := zigzagEncode .w128 val s

/-- `ZZD.8` (R105). -/
def execZzd8 (val : Value) (s : State) : Host.Outcome State Fault Refusal := zigzagDecode .w8 val s

/-- `ZZD.16` (R105). -/
def execZzd16 (val : Value) (s : State) : Host.Outcome State Fault Refusal := zigzagDecode .w16 val s

/-- `ZZD.32` (R105). -/
def execZzd32 (val : Value) (s : State) : Host.Outcome State Fault Refusal := zigzagDecode .w32 val s

/-- `ZZD.64` (R105). -/
def execZzd64 (val : Value) (s : State) : Host.Outcome State Fault Refusal := zigzagDecode .w64 val s

/-- `ZZD.128` (R105). -/
def execZzd128 (val : Value) (s : State) : Host.Outcome State Fault Refusal := zigzagDecode .w128 val s

/-- `FTU.8` (R109). -/
def execFtu8 (val : Value) (s : State) : Host.Outcome State Fault Refusal := floatToUnsigned .w8 val s

/-- `FTU.16` (R109). -/
def execFtu16 (val : Value) (s : State) : Host.Outcome State Fault Refusal := floatToUnsigned .w16 val s

/-- `FTU.32` (R109). -/
def execFtu32 (val : Value) (s : State) : Host.Outcome State Fault Refusal := floatToUnsigned .w32 val s

/-- `FTU.64` (R109). -/
def execFtu64 (val : Value) (s : State) : Host.Outcome State Fault Refusal := floatToUnsigned .w64 val s

/-- `FTU.128` (R109). -/
def execFtu128 (val : Value) (s : State) : Host.Outcome State Fault Refusal := floatToUnsigned .w128 val s

/-- `UTF.8` (R110). -/
def execUtf8 (val : Value) (s : State) : Host.Outcome State Fault Refusal := unsignedToFloat .w8 val s

/-- `UTF.16` (R110). -/
def execUtf16 (val : Value) (s : State) : Host.Outcome State Fault Refusal := unsignedToFloat .w16 val s

/-- `UTF.32` (R110). -/
def execUtf32 (val : Value) (s : State) : Host.Outcome State Fault Refusal := unsignedToFloat .w32 val s

/-- `UTF.64` (R110). -/
def execUtf64 (val : Value) (s : State) : Host.Outcome State Fault Refusal := unsignedToFloat .w64 val s

/-- `UTF.128` (R110). -/
def execUtf128 (val : Value) (s : State) : Host.Outcome State Fault Refusal := unsignedToFloat .w128 val s

end Sys2Proof.Machine
end

