-- ==== Sys2Proof/Machine/Simd.lean ====
section
/-! DEFINITION. The vector commands `GATH` and `SCAT` (R91, R94), defined by the wire format as R98 asks; and, beside
them, the other formulations `42_simd.md` derives (R92, R93, R95, R96, R97) and the leading-zero classification of R59,
which no meaning uses: that they agree with the definitions is stated in the obligations. -/

namespace Sys2Proof.Machine

/-- `GATH` (R91): total, whatever the lanes hold. -/
def execGath (vec : Lanes) (s : State) : Host.Outcome State Fault Refusal :=
  let x := lanesOf vec
  let h := hdr (byteAt x 0)
  complete { Response.okay with
    val := BitVec.ofNat 128 (gather x), len := count h.len, tier := h.tier.code, aux := count h.param } s

/-- `SCAT` (R94): the canonical bytes in lanes 0 to `L-1`, `0x00` above; tier and parameter read back from the header. -/
def execScat (val : Value) (s : State) : Host.Outcome State Fault Refusal :=
  let v := wholeValue val
  let bs := canonBytes v
  let h := hdr (byteAt bs 0)
  complete { Response.okay with
    vec := vecOf bs, len := count (canonLen v), tier := h.tier.code, aux := count h.param } s

/-! ### Formulations the spec derives -/

/-- The branchless classification of a first byte (R93): one count of leading ones, capped at 4. -/
def hdrBranchless (b0 : Byte) : Header :=
  let c := min (clo8 b0) 4
  ⟨if c = 0 then .immediate else if c = 4 then .lengthPrefixed else .prefixVarint,
   if c = 4 then (b0.toNat &&& 0x0F) + 1 else c,
   if c = 4 then (b0.toNat &&& 0x0F) + 2 else c + 1⟩

/-- The lane-level formulation of `gather` (R92). -/
def gatherLanes (x : List Byte) : Nat :=
  let c := min (clo8 (byteAt x 0)) 4
  if c ≤ 3 then
    let low := (byteAt x 0).toNat &&& (0x7F >>> c)
    let p := le [byteAt x 1, byteAt x 2, byteAt x 3] &&& (2 ^ (8 * c) - 1)
    low + p * 2 ^ (7 - c)
  else
    let n := ((byteAt x 0).toNat &&& 0x0F) + 1
    le ((List.range' 1 16).map (byteAt x)) &&& (2 ^ (8 * n) - 1)

/-- `k` of the lane-level scatter (R95), from the bit length `m <= 28`. -/
def scatterK (m : Nat) : Nat := if m ≤ 7 then 0 else if m ≤ 14 then 1 else if m ≤ 21 then 2 else 3

/-- The lane-level formulation of `canon_bytes` (R95): the 17 lanes `Y`. -/
def scatterLanes (v : Nat) : List Byte :=
  let m := bitlen v
  if m ≤ 28 then
    let k := scatterK m
    byteOf (((0xFF00 >>> k) &&& 0xFF) ||| (v &&& (0x7F >>> k))) ::
      ((List.range 3).map fun i => if i < k then byteAt (bytesLe (v >>> (7 - k)) 3) i else 0) ++
      List.replicate 13 0
  else
    byteOf (0xF0 ||| (max 4 (ceilDiv m 8) - 1)) :: bytesLe v 16

/-- The length `L` of the lane-level scatter (R95). -/
def scatterLen (v : Nat) : Nat :=
  let m := bitlen v
  if m ≤ 28 then scatterK m + 1 else max 4 (ceilDiv m 8) + 1

/-- The shuffle table of R96: the source lane of `T[i]`, none where the shuffle forces zero. -/
def shuffleSource (k i : Nat) : Option Nat :=
  match k, i with
  | 1, 0 => some 1
  | 2, 0 => some 1
  | 2, 1 => some 2
  | 3, 0 => some 1
  | 3, 1 => some 2
  | 3, 2 => some 3
  | _, _ => none

/-- The mask for byte 0 of R96. -/
def shuffleMask (k : Nat) : Nat :=
  match k with
  | 0 => 0x7F
  | 1 => 0x3F
  | 2 => 0x1F
  | _ => 0x0F

/-- The left shift of the window of R96. -/
def shuffleShift (k : Nat) : Nat :=
  match k with
  | 0 => 7
  | 1 => 6
  | 2 => 5
  | _ => 4

/-- The shuffle-table formulation of `gather` (R96). -/
def gatherShuffle (x : List Byte) : Nat :=
  let h := hdr (byteAt x 0)
  match h.tier with
  | .lengthPrefixed =>
    le ((List.range 16).map fun i => if i < h.param then byteAt x (i + 1) else 0)
  | _ =>
    let t := (List.range 3).map fun i =>
      match shuffleSource h.param i with
      | some j => byteAt x j
      | none => 0
    ((byteAt x 0).toNat &&& shuffleMask h.param) + (le t <<< shuffleShift h.param)

/-- The classification of a value by its leading zeros (R59): tier, parameter and canonical length from
`m = 128 - clz_128(v)`. -/
def classifyByLeadingZeros (v : Nat) : Header :=
  let m := 128 - clz 128 v
  if m ≤ 7 then ⟨.immediate, 0, 1⟩
  else if m ≤ 14 then ⟨.prefixVarint, 1, 2⟩
  else if m ≤ 21 then ⟨.prefixVarint, 2, 3⟩
  else if m ≤ 28 then ⟨.prefixVarint, 3, 4⟩
  else if m ≤ 32 then ⟨.lengthPrefixed, 4, 5⟩
  else ⟨.lengthPrefixed, ceilDiv m 8, ceilDiv m 8 + 1⟩

/-! ### Cross-validation of the formulations (R100) -/

/-- The response of `GATH` with the value gathered by `g` and the first byte classified by `h` (R91). -/
def gathResponse (g : List Byte → Nat) (h : Byte → Header) (vec : Lanes) : Response :=
  let x := lanesOf vec
  { Response.okay with
    val := BitVec.ofNat 128 (g x), len := count (h (byteAt x 0)).len, tier := (h (byteAt x 0)).tier.code,
    aux := count (h (byteAt x 0)).param }

/-- The response of `SCAT` with the lanes `ys`, the length `l`, and the first byte classified by `h` (R94). -/
def scatResponse (ys : List Byte) (l : Nat) (h : Byte → Header) : Response :=
  { Response.okay with
    vec := vecOf ys, len := count l, tier := (h (byteAt ys 0)).tier.code, aux := count (h (byteAt ys 0)).param }

/-- Cross-validation of `GATH` on one vector (R100): the lane-level formulation (R92, with R93) and the shuffle-table
formulation (R96) answer as its definition (R91) does. -/
def crossValidatesGath (vec : Lanes) : Bool :=
  decide (gathResponse gatherLanes hdrBranchless vec = gathResponse gather hdr vec) &&
    decide (gathResponse gatherShuffle hdr vec = gathResponse gather hdr vec)

/-- Cross-validation of `SCAT` on one value (R100): the lane-level formulation (R95, with R93) answers as its definition
(R94) does. -/
def crossValidatesScat (val : Value) : Bool :=
  decide (scatResponse (scatterLanes (wholeValue val)) (scatterLen (wholeValue val)) hdrBranchless =
    scatResponse (canonBytes (wholeValue val)) (canonLen (wholeValue val)) hdr)

/-! ### The codec commands over the datapaths (R97) -/

/-- `DEC.W` as the gather datapath wrapped in the checks (R97): the `L` span bytes go to lanes 0 to `L-1`, `0x00` to the
others. -/
def decodeByGather (w : Width) (sp : Span) (s : State) : Host.Outcome State Fault Refusal :=
  withSpan sp s <|
    if sp.cap = 0 then fail .truncatedInput s
    else
      let h := hdr (Memory.read s.mem sp.base)
      if sp.cap < h.len then fail .truncatedInput s
      else
        match execGath (vecOf (Memory.readBytes s.mem sp.base h.len)) s with
        | .next t =>
          let r := t.rsp.getD Response.okay
          if r.val.toNat ≥ 2 ^ w.bits then fail .overflow s
          else complete { Response.okay with val := r.val, len := r.len } s
        | .fault e => .fault e
        | .refused e => .refused e

/-- `ENC.W` as the scatter datapath wrapped in the checks (R97): lanes 0 to `L-1` are stored, and no other byte. -/
def encodeByScatter (w : Width) (val : Value) (sp : Span) (s : State) : Host.Outcome State Fault Refusal :=
  withSpan sp s <|
    if wholeValue val ≥ 2 ^ w.bits then fail .valueTooLarge s
    else
      match execScat val s with
      | .next t =>
        let r := t.rsp.getD Response.okay
        if sp.cap < r.len.toNat then fail .bufferTooSmall s
        else complete { Response.okay with len := r.len }
          { s with mem := Memory.writeBytes s.mem sp.base ((lanesOf r.vec).take r.len.toNat) }
      | .fault e => .fault e
      | .refused e => .refused e

end Sys2Proof.Machine
end

