-- ==== Sys2Proof/Machine/Dispatch.lean ====
section
/-! DEFINITION. One arm per command: which meaning each constructor of `Instr` has. -/

namespace Sys2Proof.Machine

def exec (i : Instr) (s : State) : Host.Outcome State Fault Refusal :=
  match i with
  | .enc8 val base cap => Sys2Proof.Machine.execEnc8 val base cap s
  | .enc16 val base cap => Sys2Proof.Machine.execEnc16 val base cap s
  | .enc32 val base cap => Sys2Proof.Machine.execEnc32 val base cap s
  | .enc64 val base cap => Sys2Proof.Machine.execEnc64 val base cap s
  | .enc128 val base cap => Sys2Proof.Machine.execEnc128 val base cap s
  | .dec8 base cap => Sys2Proof.Machine.execDec8 base cap s
  | .dec16 base cap => Sys2Proof.Machine.execDec16 base cap s
  | .dec32 base cap => Sys2Proof.Machine.execDec32 base cap s
  | .dec64 base cap => Sys2Proof.Machine.execDec64 base cap s
  | .dec128 base cap => Sys2Proof.Machine.execDec128 base cap s
  | .size8 val => Sys2Proof.Machine.execSize8 val s
  | .size16 val => Sys2Proof.Machine.execSize16 val s
  | .size32 val => Sys2Proof.Machine.execSize32 val s
  | .size64 val => Sys2Proof.Machine.execSize64 val s
  | .size128 val => Sys2Proof.Machine.execSize128 val s
  | .cls val => Sys2Proof.Machine.execCls val s
  | .pvp val => Sys2Proof.Machine.execPvp val s
  | .lpp val => Sys2Proof.Machine.execLpp val s
  | .hdr val => Sys2Proof.Machine.execHdr val s
  | .gath vec => Sys2Proof.Machine.execGath vec s
  | .scat val => Sys2Proof.Machine.execScat val s
  | .zze8 val => Sys2Proof.Machine.execZze8 val s
  | .zze16 val => Sys2Proof.Machine.execZze16 val s
  | .zze32 val => Sys2Proof.Machine.execZze32 val s
  | .zze64 val => Sys2Proof.Machine.execZze64 val s
  | .zze128 val => Sys2Proof.Machine.execZze128 val s
  | .zzd8 val => Sys2Proof.Machine.execZzd8 val s
  | .zzd16 val => Sys2Proof.Machine.execZzd16 val s
  | .zzd32 val => Sys2Proof.Machine.execZzd32 val s
  | .zzd64 val => Sys2Proof.Machine.execZzd64 val s
  | .zzd128 val => Sys2Proof.Machine.execZzd128 val s
  | .ftu8 val => Sys2Proof.Machine.execFtu8 val s
  | .ftu16 val => Sys2Proof.Machine.execFtu16 val s
  | .ftu32 val => Sys2Proof.Machine.execFtu32 val s
  | .ftu64 val => Sys2Proof.Machine.execFtu64 val s
  | .ftu128 val => Sys2Proof.Machine.execFtu128 val s
  | .utf8 val => Sys2Proof.Machine.execUtf8 val s
  | .utf16 val => Sys2Proof.Machine.execUtf16 val s
  | .utf32 val => Sys2Proof.Machine.execUtf32 val s
  | .utf64 val => Sys2Proof.Machine.execUtf64 val s
  | .utf128 val => Sys2Proof.Machine.execUtf128 val s

end Sys2Proof.Machine
end

