-- ==== Sys2Proof/Machine/Transact.lean ====
section
/-! DEFINITION. One transaction (R15): from a request to its response, alone or with other agents at work beside it
(R38, R135); and the host's other events: its own stores (R25), resets (R131 to R133). -/

namespace Sys2Proof.Machine

/-- One command, from request to response (R15). An illegal command word is answered with `IllegalCommand`, and no
operand and no memory is looked at (R46, R119). -/
def transact (r : Request) (s : State) : Host.Outcome State Fault Refusal :=
  match decode r with
  | .command i => exec i s
  | .illegal _ => fail .illegalCommand s

/-- The span a request reaches memory through: that of its command; an illegal word has none (R26, R119). -/
def requestSpan (r : Request) : Option Span :=
  match decode r with
  | .command i => i.span
  | .illegal _ => none

/-- Some of the cells lies in the span. -/
def touches (sp : Option Span) (cells : List Host.Cell) : Bool :=
  match sp with
  | none => false
  | some sp => cells.any fun c => sp.contains c.1

/-- Bytes written to buffer memory by the host or by another unit (R22, R25). Only ordinary memory is modelled. -/
def hostStore (cells : List Host.Cell) (s : State) : Host.Outcome State Fault Refusal :=
  if cells.all (fun c => addressBacked s.ram c.1) = false then .refused .storeOutsideMemory
  else .next { s with mem := Memory.writeCells s.mem cells }

/-- A byte of buffer memory read by the host (R25). Only ordinary memory is modelled. DESIGN CHOICE: the spec leaves other
memory out (R25, R36) and does not say what a read there gives, so the model refuses it as it refuses a store there
(notes/assumptions/8.md). -/
def hostLoad (addr : Nat) (s : State) : Host.Outcome Byte Fault Refusal :=
  if addressBacked s.ram addr = false then .refused .loadOutsideMemory
  else .next (Memory.read s.mem addr)

/-- One command with another agent's writes between its request and its response (R38, R135). Where a written byte lies
in the command's span the spec promises no result, and the model refuses the run (U4). Otherwise the two are independent
and their order cannot be told; the model lets the command go first. -/
def transactDuring (r : Request) (cells : List Host.Cell) (s : State) : Host.Outcome State Fault Refusal :=
  if touches (requestSpan r) cells then .refused .bufferDisturbed
  else
    match transact r s with
    | .next t => hostStore cells t
    | .fault e => .fault e
    | .refused e => .refused e

/-- No command runs in this step, so no response is presented, and in particular no stale one (R16, R23). -/
def State.noResponse (s : State) : State := { s with rsp := none }

/-- The unit after a reset between commands (R131, R132): idle, no response, memory untouched, and the path that this
reset's selection gave. -/
def resetUnit (p : Path) (s : State) : State := { s.noResponse with path := p }

/-- What one event of the host does. -/
def hostEvent (e : HostEvent) (s : State) : Host.Outcome State Fault Refusal :=
  match e with
  | .command r => transact r s
  | .commandDuring r cells => transactDuring r cells s
  | .store cells => hostStore cells s.noResponse
  | .reset p => .next (resetUnit p s)
  | .resetDuring _ _ => .refused .resetInsideCommand

end Sys2Proof.Machine
end

