-- ==== Sys2Proof/Machine/Step.lean ====
section
/-! DEFINITION. One step of the system: the next thing the host does, to its end. A command is one step (R35, R141). -/

namespace Sys2Proof.Machine

/-- The host's next event; when the host does nothing, neither does the unit (R129). -/
def step (s : State) : Host.Outcome State Fault Refusal :=
  match s.host with
  | [] => .next s.noResponse
  | e :: rest => hostEvent e { s with host := rest }

/-- `s` with the host presenting, next of all, the request whose command word is `w` and whose operand fields are 0. The
unit fetches nothing (R11): the command port is where the next instruction stands. -/
def State.withFetchWord (s : State) (nbits w : Nat) : State :=
  { s with host := .command (requestOfWord nbits w) :: s.host }

end Sys2Proof.Machine
end

