-- ==== Sys2Proof/Machine/Pseudo.lean ====
section
/-! DEFINITION. What the host makes of commands. The pseudo-commands of R49: pairs of real commands that the host issues
one after the other, handing the `VAL` of one response to the next request; each answers the result the host gets, beside
the state both commands leave. And the programs of R50: commands and host steps, where the host chooses what to do next by
the responses so far. The unit never sees either; `step` does not use this file. -/

namespace Sys2Proof.Machine

/-- What a command issued by the host gives back: its response, and the state after it. -/
abbrev HostCall := Host.Outcome (Response × State) Fault Refusal

/-- Issue one command and take its response. Every command that is not refused answers, so the default stands for no
case (`exec_answers` of Laws/Exec.lean). -/
def issue (i : Instr) (s : State) : HostCall :=
  match exec i s with
  | .next t => .next (t.rsp.getD Response.okay, t)
  | .fault e => .fault e
  | .refused e => .refused e

/-- Issue a first command, then a second that may use its response. -/
def andThen (first : HostCall) (second : Response → State → HostCall) : HostCall :=
  match first with
  | .next (r, t) => second r t
  | .fault e => .fault e
  | .refused e => .refused e

/-- `ENCZ.W x, base, cap` (R49). -/
def encz (w : Width) (x : Value) (base cap : Nat) (s : State) : HostCall :=
  andThen (issue (zzeInstr w x) s) fun t s' => issue (encInstr w t.val base cap) s'

/-- `SIZEZ.W x` (R49). -/
def sizez (w : Width) (x : Value) (s : State) : HostCall :=
  andThen (issue (zzeInstr w x) s) fun t s' => issue (sizeInstr w t.val) s'

/-- `ENCF.W f, base, cap` (R49). -/
def encf (w : Width) (f : Value) (base cap : Nat) (s : State) : HostCall :=
  andThen (issue (ftuInstr w f) s) fun t s' => issue (encInstr w t.val base cap) s'

/-- `SIZEF.W f` (R49). -/
def sizef (w : Width) (f : Value) (s : State) : HostCall :=
  andThen (issue (ftuInstr w f) s) fun t s' => issue (sizeInstr w t.val) s'

/-- Decode, and if that answered `OK`, map the value with a second command. The result has `STATUS` and `LEN` of the
`DEC.W`, and `VAL` of the mapper, or 0 on an error (R49). DEDUCED where widths or mappers are mixed: R139 says that this gives "a wrong
number and `STATUS` = `OK`"; the model has no rule of its own for it and answers what the two commands answer, which by R83
and R88 can be `Overflow`, and by R102 can be the right number (notes/assumptions/17.md). -/
def decodeThen (w : Width) (mapper : Value → Instr) (base cap : Nat) (s : State) : HostCall :=
  andThen (issue (decInstr w base cap) s) fun r s' =>
    if r.status = Status.ok.code then
      andThen (issue (mapper r.val) s') fun t s'' =>
        .next ({ Response.okay with status := r.status, len := r.len, val := t.val }, s'')
    else .next ({ Response.okay with status := r.status, len := r.len }, s')

/-- `DECZ.W base, cap` (R49). -/
def decz (w : Width) (base cap : Nat) (s : State) : HostCall := decodeThen w (zzdInstr w) base cap s

/-- `DECF.W base, cap` (R49). -/
def decf (w : Width) (base cap : Nat) (s : State) : HostCall := decodeThen w (utfInstr w) base cap s

/-! ### Programs (R50) -/

/-- A program of R50 from some point on: what the host does next, by everything it has seen so far. The host variables
live in the functions `next` and, at the end, in `vars`; a branch or a loop is the host's choice of what comes next.
DESIGN CHOICE (notes/assumptions/16.md): the type is inductive, so a program ends whatever responses and bytes it gets. R50
allows `while` and gives a program an end state, but does not say what a loop that never ends is; a host loop that need not
end is written with a bound, and `core.run` runs any number of its events. -/
inductive HostProgram (α : Type) where
  /-- The program ends, its host variables as given. -/
  | finish (vars : α)
  /-- `r <- COMMAND ...`: issue a command, and go on by its response. -/
  | issue (r : Request) (next : Response → HostProgram α)
  /-- A host step that writes the host's own memory (R25). -/
  | store (cells : List Host.Cell) (next : HostProgram α)
  /-- A host step that reads a byte of the host's own memory (R25, R116). -/
  | load (addr : Nat) (next : Byte → HostProgram α)

/-- One thing a running program did, with what it got for it. -/
inductive HostAct where
  /-- It issued the request `r` and got the response `q`. -/
  | issued (r : Request) (q : Response)
  /-- It stored the cells. -/
  | stored (cells : List Host.Cell)
  /-- It read the byte `b` at `addr`. -/
  | loaded (addr : Nat) (b : Byte)
  deriving DecidableEq, Repr

/-- The event that an act is to the system; a load is none, since it changes nothing (R25). -/
def HostAct.event : HostAct → Option HostEvent
  | .issued r _ => some (.command r)
  | .stored cells => some (.store cells)
  | .loaded _ _ => none

/-- The response an act got. -/
def HostAct.response : HostAct → Option Response
  | .issued _ q => some q
  | .stored _ => none
  | .loaded _ _ => none

/-- The events a program issued, in order. -/
def eventsOf (acts : List HostAct) : List HostEvent := acts.filterMap HostAct.event

/-- The responses a program got, in order: R50's "list of responses". -/
def responsesOf (acts : List HostAct) : List Response := acts.filterMap HostAct.response

/-- What a program's run leaves: its host variables, the system, and all it did (R50). -/
structure HostRun (α : Type) where
  vars : α
  final : State
  acts : List HostAct

/-- Put one act before those of the rest of the run. -/
def noting {α : Type} (a : HostAct) (rest : Host.Outcome (HostRun α) Fault Refusal) :
    Host.Outcome (HostRun α) Fault Refusal :=
  match rest with
  | .next u => .next { u with acts := a :: u.acts }
  | .fault e => .fault e
  | .refused e => .refused e

/-- Run a program to its end (R50). A host step on an address without ordinary memory is refused, a load as well as a
store: DESIGN CHOICE, notes/assumptions/8.md. -/
def HostProgram.run {α : Type} : HostProgram α → State → Host.Outcome (HostRun α) Fault Refusal
  | .finish vars, s => .next ⟨vars, s, []⟩
  | .issue r next, s =>
    match transact r s with
    | .next t => noting (.issued r (t.rsp.getD Response.okay)) ((next (t.rsp.getD Response.okay)).run t)
    | .fault e => .fault e
    | .refused e => .refused e
  | .store cells next, s =>
    match hostStore cells s.noResponse with
    | .next t => noting (.stored cells) (next.run t)
    | .fault e => .fault e
    | .refused e => .refused e
  | .load addr next, s =>
    match hostLoad addr s with
    | .next b => noting (.loaded addr b) ((next b).run s)
    | .fault e => .fault e
    | .refused e => .refused e

/-- The host's side of a run alone: the program, told what it got for each act, does exactly these acts and ends with
these host variables; none where it would have done something else. -/
def HostProgram.follow {α : Type} : HostProgram α → List HostAct → Option α
  | .finish vars, [] => some vars
  | .issue r next, .issued r' q :: acts => if r' = r then (next q).follow acts else none
  | .store cells next, .stored cells' :: acts => if cells' = cells then next.follow acts else none
  | .load addr next, .loaded addr' b :: acts => if addr' = addr then (next b).follow acts else none
  | _, _ => none

/-- The system's side of a run alone: `k` steps, with the responses they give, in order. -/
def runResponses : Nat → State → Host.Outcome (State × List Response) Fault Refusal
  | 0, s => .next (s, [])
  | k + 1, s =>
    match step s with
    | .next t =>
      match runResponses k t with
      | .next (u, ps) => .next (u, t.rsp.toList ++ ps)
      | .fault e => .fault e
      | .refused e => .refused e
    | .fault e => .fault e
    | .refused e => .refused e

end Sys2Proof.Machine
end

