-- ==== Sys2Proof/Safety.lean ====
section
/-! DEFINITION. What counts as a safe state and a safe run: the invariant of the system, the duties of the host under
which the rules of a command hold (R134, R135), and the terms claims about the whole machine use: which bytes a command
stores, which statuses it may answer. -/

namespace Sys2Proof.Machine

/-! ### The invariant -/

/-- A memory map as it should be: runs of at least one byte, inside the address space, rising, with a gap between two
runs (two that touch are one run), so that every backed span lies in one of them. -/
abbrev mapWf (aw : Nat) (ram : List Region) : Prop :=
  (ram.Pairwise fun g h => g.base + g.size < h.base) ∧ ∀ g ∈ ram, 0 < g.size ∧ g.base + g.size ≤ 2 ^ aw

/-- A response as R14 and R114 allow it: a status that is produced, a tier that is produced, counts in range, and on an
error every other field 0. -/
abbrev Response.legal (r : Response) : Prop :=
  r.status ≠ 5 ∧ r.status ≠ 6 ∧ r.tier ≠ 3 ∧ r.len.toNat ≤ Config.maxLen ∧ r.aux.toNat ≤ 16 ∧
    (r.status ≠ Status.ok.code → r.val = 0 ∧ r.len = 0 ∧ r.tier = 0 ∧ r.aux = 0 ∧ r.vec = 0)

/-- The invariant every step keeps. -/
structure State.Inv (s : State) : Prop where
  /-- Memory keeps its canonical form. -/
  memWf : Memory.wf s.mem
  /-- The host's map is a map. -/
  ramWf : mapWf s.aw s.ram
  /-- Only ordinary memory has ever been written (R26, R36). -/
  cellsBacked : ∀ c ∈ s.mem, addressBacked s.ram c.1 = true
  /-- The last response is one that R14 and R114 allow. -/
  rspLegal : ∀ r, s.rsp = some r → r.legal

/-! ### The host's duties (R134, R135) -/

/-- A span the spec gives a command a meaning on: its fields fit the ports, it does not wrap, and it lies in ordinary
memory (R12, R27, R36). -/
abbrev spanUsable (s : State) (sp : Span) : Prop :=
  sp.fitsPorts s.aw = true ∧ sp.noWrap s.aw = true ∧ spanBacked s.ram sp = true

/-- A request that keeps the duties: if its command reaches memory, the span is usable (R134). -/
abbrev requestDuty (s : State) (r : Request) : Prop := ∀ sp, requestSpan r = some sp → spanUsable s sp

/-- An event by which the host keeps its duties: usable spans, no write into the span of a running command, writes to
ordinary memory only, no reset inside a command (R133, R134, R135). -/
def hostDuty (s : State) : HostEvent → Prop
  | .command r => requestDuty s r
  | .commandDuring r cells =>
    requestDuty s r ∧ touches (requestSpan r) cells = false ∧ ∀ c ∈ cells, addressBacked s.ram c.1 = true
  | .store cells => ∀ c ∈ cells, addressBacked s.ram c.1 = true
  | .reset _ => True
  | .resetDuring _ _ => False

/-- A safe run of `k` steps: it ends in a state, not in a refusal or a fault. -/
def safeRun (k : Nat) (s : State) : Prop := ∃ t, core.run k s = .next t

/-! ### What a command may do -/

/-- `ENC.W` stores to address `a`: it passes its two checks, and `a` is one of `BASE` to `BASE + L - 1` (R75, R78). -/
def encStores (w : Width) (val : Value) (base cap a : Nat) : Bool :=
  decide (wholeValue val < 2 ^ w.bits) && decide (canonLen (wholeValue val) ≤ cap) &&
    (decide (base ≤ a) && decide (a < base + canonLen (wholeValue val)))

/-- The addresses a command stores to: those of `ENC.W`, and none for any other command (R20, R34). -/
def storesTo : Instr → Nat → Bool
  | .enc8 val base cap, a => encStores .w8 val base cap a
  | .enc16 val base cap, a => encStores .w16 val base cap a
  | .enc32 val base cap, a => encStores .w32 val base cap a
  | .enc64 val base cap, a => encStores .w64 val base cap a
  | .enc128 val base cap, a => encStores .w128 val base cap a
  | .dec8 _ _, _ => false
  | .dec16 _ _, _ => false
  | .dec32 _ _, _ => false
  | .dec64 _ _, _ => false
  | .dec128 _ _, _ => false
  | .size8 _, _ => false
  | .size16 _, _ => false
  | .size32 _, _ => false
  | .size64 _, _ => false
  | .size128 _, _ => false
  | .cls _, _ => false
  | .pvp _, _ => false
  | .lpp _, _ => false
  | .hdr _, _ => false
  | .gath _, _ => false
  | .scat _, _ => false
  | .zze8 _, _ => false
  | .zze16 _, _ => false
  | .zze32 _, _ => false
  | .zze64 _, _ => false
  | .zze128 _, _ => false
  | .zzd8 _, _ => false
  | .zzd16 _, _ => false
  | .zzd32 _, _ => false
  | .zzd64 _, _ => false
  | .zzd128 _, _ => false
  | .ftu8 _, _ => false
  | .ftu16 _, _ => false
  | .ftu32 _, _ => false
  | .ftu64 _, _ => false
  | .ftu128 _, _ => false
  | .utf8 _, _ => false
  | .utf16 _, _ => false
  | .utf32 _, _ => false
  | .utf64 _, _ => false
  | .utf128 _, _ => false

/-- Two commands are independent when no byte one of them writes lies in the span of the other (R38). -/
def independent (i j : Instr) : Prop :=
  (∀ a sp, storesTo i a = true → j.span = some sp → sp.contains a = false) ∧
    ∀ a sp, storesTo j a = true → i.span = some sp → sp.contains a = false

/-- The statuses a command can return: its row of the table of R120. -/
def statusRow : Instr → List Status
  | .enc8 _ _ _ => [.ok, .bufferTooSmall, .valueTooLarge]
  | .enc16 _ _ _ => [.ok, .bufferTooSmall, .valueTooLarge]
  | .enc32 _ _ _ => [.ok, .bufferTooSmall, .valueTooLarge]
  | .enc64 _ _ _ => [.ok, .bufferTooSmall, .valueTooLarge]
  | .enc128 _ _ _ => [.ok, .bufferTooSmall]
  | .dec8 _ _ => [.ok, .truncatedInput, .overflow]
  | .dec16 _ _ => [.ok, .truncatedInput, .overflow]
  | .dec32 _ _ => [.ok, .truncatedInput, .overflow]
  | .dec64 _ _ => [.ok, .truncatedInput, .overflow]
  | .dec128 _ _ => [.ok, .truncatedInput]
  | .size8 _ => [.ok, .valueTooLarge]
  | .size16 _ => [.ok, .valueTooLarge]
  | .size32 _ => [.ok, .valueTooLarge]
  | .size64 _ => [.ok, .valueTooLarge]
  | .size128 _ => [.ok]
  | .cls _ => [.ok]
  | .pvp _ => [.ok, .valueTooLarge]
  | .lpp _ => [.ok]
  | .hdr _ => [.ok]
  | .gath _ => [.ok]
  | .scat _ => [.ok]
  | .zze8 _ => [.ok]
  | .zze16 _ => [.ok]
  | .zze32 _ => [.ok]
  | .zze64 _ => [.ok]
  | .zze128 _ => [.ok]
  | .zzd8 _ => [.ok]
  | .zzd16 _ => [.ok]
  | .zzd32 _ => [.ok]
  | .zzd64 _ => [.ok]
  | .zzd128 _ => [.ok]
  | .ftu8 _ => [.ok]
  | .ftu16 _ => [.ok]
  | .ftu32 _ => [.ok]
  | .ftu64 _ => [.ok]
  | .ftu128 _ => [.ok]
  | .utf8 _ => [.ok]
  | .utf16 _ => [.ok]
  | .utf32 _ => [.ok]
  | .utf64 _ => [.ok]
  | .utf128 _ => [.ok]

/-- The greatest number of bytes a canonical encoding of a value of the width takes (R6). -/
def worstLen : Width → Nat
  | .w8 => 2
  | .w16 => 3
  | .w32 => 5
  | .w64 => 9
  | .w128 => 17

/-- The first bytes that can lead to `Overflow` at a width: the last column of the table of R85. -/
def mayOverflow (w : Width) (b : Byte) : Bool :=
  let v := b.toNat
  match w with
  | .w8 => decide (0x80 ≤ v ∧ v ≤ 0xEF ∨ 0xF1 ≤ v)
  | .w16 => decide (0xC0 ≤ v ∧ v ≤ 0xEF ∨ 0xF2 ≤ v)
  | .w32 => decide (0xF4 ≤ v)
  | .w64 => decide (0xF8 ≤ v)
  | .w128 => false

/-- The parameter of a value's tier: 0, `k` or `n` (R60, R61, R64). -/
def tierParam (v : Nat) : Nat :=
  match tierOfValue v with
  | .immediate => 0
  | .prefixVarint => (pvK v).getD 0
  | .lengthPrefixed => lpN v

end Sys2Proof.Machine
end

