-- ==== Sys2Proof/Certificates/Slice0/Obligations.lean ====
section
/-! DEFINITION. The statements for the provers. Each says which rule of the spec it formalises. `encInstr w`, `decInstr w`
and so on stand for the five commands of one family, as the spec writes `ENC.W` (R7); `s.answer r` is the state `s` with
the response `r` given and nothing else changed, so an equation `exec i s = .next (s.answer r)` is the command's whole
frame. -/

open Sys2Proof Sys2Proof.Machine

/-! ### The command word -/

/-- A request decodes to a command exactly when it agrees with the command's own request on the command word and on the
fields the command reads (R12, R24, R40, R45, R48): no bit of a read field is dropped, and no unread field has an effect. -/
def Obligations.DecodeReadsExactlyTheNamedFields : Prop :=
  ∀ (r : Request) (i : Instr), decode r = .command i ↔
    r.cmd = (encode i).cmd ∧ (readsVal i = true → r.val = (encode i).val) ∧
      (readsVec i = true → r.vec = (encode i).vec) ∧
      (readsSpan i = true → r.base = (encode i).base ∧ r.cap = (encode i).cap)

/-- Decoding the request that presents a command gives the command back (R45, R48). -/
def Obligations.DecodeAfterEncode : Prop := ∀ i : Instr, decode (encode i) = .command i

/-- The tables of R45: the word of every mnemonic, and that these 41 of the 256 words are the legal ones. -/
def Obligations.FortyOneLegalWords : Prop :=
  (∀ r : Request, (∃ i, decode r = .command i) ↔ r.cmd ∈ legalWords) ∧
    legalWords.Nodup ∧ legalWords.length = 41 ∧
    (∀ v b c, commandWord (.enc8 v b c) = 0x01#8 ∧ commandWord (.enc16 v b c) = 0x11#8 ∧
      commandWord (.enc32 v b c) = 0x21#8 ∧ commandWord (.enc64 v b c) = 0x31#8 ∧
      commandWord (.enc128 v b c) = 0x41#8) ∧
    (∀ b c, commandWord (.dec8 b c) = 0x02#8 ∧ commandWord (.dec16 b c) = 0x12#8 ∧
      commandWord (.dec32 b c) = 0x22#8 ∧ commandWord (.dec64 b c) = 0x32#8 ∧
      commandWord (.dec128 b c) = 0x42#8) ∧
    (∀ v, commandWord (.size8 v) = 0x03#8 ∧ commandWord (.size16 v) = 0x13#8 ∧
      commandWord (.size32 v) = 0x23#8 ∧ commandWord (.size64 v) = 0x33#8 ∧
      commandWord (.size128 v) = 0x43#8) ∧
    (∀ v, commandWord (.zze8 v) = 0x0A#8 ∧ commandWord (.zze16 v) = 0x1A#8 ∧
      commandWord (.zze32 v) = 0x2A#8 ∧ commandWord (.zze64 v) = 0x3A#8 ∧
      commandWord (.zze128 v) = 0x4A#8) ∧
    (∀ v, commandWord (.zzd8 v) = 0x0B#8 ∧ commandWord (.zzd16 v) = 0x1B#8 ∧
      commandWord (.zzd32 v) = 0x2B#8 ∧ commandWord (.zzd64 v) = 0x3B#8 ∧
      commandWord (.zzd128 v) = 0x4B#8) ∧
    (∀ v, commandWord (.ftu8 v) = 0x0C#8 ∧ commandWord (.ftu16 v) = 0x1C#8 ∧
      commandWord (.ftu32 v) = 0x2C#8 ∧ commandWord (.ftu64 v) = 0x3C#8 ∧
      commandWord (.ftu128 v) = 0x4C#8) ∧
    (∀ v, commandWord (.utf8 v) = 0x0D#8 ∧ commandWord (.utf16 v) = 0x1D#8 ∧
      commandWord (.utf32 v) = 0x2D#8 ∧ commandWord (.utf64 v) = 0x3D#8 ∧
      commandWord (.utf128 v) = 0x4D#8) ∧
    ∀ v x, commandWord (.cls v) = 0x04#8 ∧ commandWord (.pvp v) = 0x05#8 ∧ commandWord (.lpp v) = 0x06#8 ∧
      commandWord (.hdr v) = 0x07#8 ∧ commandWord (.gath x) = 0x08#8 ∧ commandWord (.scat v) = 0x09#8

/-- An illegal command word is answered with `IllegalCommand` and every other response field 0, whatever the other
request fields and the state are, and nothing else changes (R119); the illegal words are the 215 that R46 lists by their
fields. -/
def Obligations.IllegalWordsAnswerIllegalCommand : Prop :=
  (∀ (r : Request) (s : State), r.cmd ∉ legalWords →
    transact r s = .next (s.answer { status := 7, val := 0, len := 0, tier := 0, aux := 0, vec := 0 })) ∧
  (∀ c : BitVec 8, c ∉ legalWords ↔
    zField c = 1#1 ∨ wselField c ∈ [0b101#3, 0b110#3, 0b111#3] ∨ opField c ∈ [0x0#4, 0xE#4, 0xF#4] ∨
      (4 ≤ (opField c).toNat ∧ (opField c).toNat ≤ 9 ∧ wselField c ≠ 0b000#3)) ∧
  ((List.range 256).filter fun n => decide (BitVec.ofNat 8 n ∉ legalWords)).length = 215

/-- Words written out in section 6 of `95_test_vectors.md` decode to the commands named there, or to none. -/
def Obligations.SpecWordsDecode : Prop :=
  decodeTableWord 8 0b00000001 = some (.enc8 0 0 0) ∧ decodeTableWord 8 0b01000010 = some (.dec128 0 0) ∧
    decodeTableWord 8 0b00110011 = some (.size64 0) ∧ decodeTableWord 8 0b00000100 = some (.cls 0) ∧
    decodeTableWord 8 0b00001001 = some (.scat 0) ∧ decodeTableWord 8 0b00101010 = some (.zze32 0) ∧
    decodeTableWord 8 0b01001101 = some (.utf128 0) ∧ decodeTableWord 8 0b00000000 = none ∧
    decodeTableWord 8 0b00010100 = none ∧ decodeTableWord 8 0b01010001 = none ∧
    decodeTableWord 8 0b10000001 = none ∧ decodeTableWord 8 0b01001111 = none

/-- A step on a request runs the command the request decodes to; all the step adds is that the host has issued it. -/
def Obligations.StepRunsTheDecodedCommand : Prop :=
  ∀ (s : State) (r : Request) (rest : List HostEvent) (i : Instr),
    s.host = .command r :: rest → decode r = .command i → step s = exec i { s with host := rest }

/-! ### Bit-layout commands -/

/-- `CLS` always answers `OK` with the tier's code, by the bounds of R57, and does nothing else (R68). -/
def Obligations.ClsAnswersTheTier : Prop :=
  ∀ (val : Value) (s : State), commandWord (.cls val) = 0x04#8 ∧
    exec (.cls val) s = .next (s.answer { Response.okay with
      tier := if val.toNat < 2 ^ 7 then 0 else if val.toNat < 2 ^ 28 then 1 else 2 })

/-- `PVP` answers the least `k` in 1 to 3 with `v < 2^(7+7k)` and `k + 1`, and `ValueTooLarge` where there is none; it
does nothing else (R60, R69). -/
def Obligations.PvpAnswersTheLeastK : Prop :=
  ∀ (val : Value) (s : State), commandWord (.pvp val) = 0x05#8 ∧
    (2 ^ 28 ≤ val.toNat → exec (.pvp val) s = .next (s.answer (Response.blank .valueTooLarge))) ∧
    (val.toNat < 2 ^ 28 → ∃ k, 1 ≤ k ∧ k ≤ 3 ∧ val.toNat < 2 ^ (7 + 7 * k) ∧
      (∀ j, 1 ≤ j → j < k → 2 ^ (7 + 7 * j) ≤ val.toNat) ∧
      exec (.pvp val) s = .next (s.answer { Response.okay with aux := count k, len := count (k + 1) }))

/-- `LPP` always answers the least `n >= 4` with `v < 2^(8n)`, which is the formula of R61, and `n + 1`; it does nothing
else (R61, R70). -/
def Obligations.LppAnswersTheLeastN : Prop :=
  ∀ (val : Value) (s : State), commandWord (.lpp val) = 0x06#8 ∧
    ∃ n, 4 ≤ n ∧ n ≤ 16 ∧ val.toNat < 2 ^ (8 * n) ∧ (∀ j, 4 ≤ j → j < n → 2 ^ (8 * j) ≤ val.toNat) ∧
      n = max 4 (max 1 (ceilDiv (bitlen val.toNat) 8)) ∧
      exec (.lpp val) s = .next (s.answer { Response.okay with aux := count n, len := count (n + 1) })

/-- `HDR` answers the row of R64's table that `VAL[7:0]` falls in, whatever `VAL[127:8]` is, and does nothing else (R71). -/
def Obligations.HdrAnswersByTheFirstByte : Prop :=
  ∀ (val : Value) (s : State), commandWord (.hdr val) = 0x07#8 ∧
    exec (.hdr val) s = .next (s.answer
      (if val.toNat % 256 < 0x80 then { Response.okay with tier := 0, aux := 0, len := 1 }
      else if val.toNat % 256 < 0xC0 then { Response.okay with tier := 1, aux := 1, len := 2 }
      else if val.toNat % 256 < 0xE0 then { Response.okay with tier := 1, aux := 2, len := 3 }
      else if val.toNat % 256 < 0xF0 then { Response.okay with tier := 1, aux := 3, len := 4 }
      else { Response.okay with
        tier := 2, aux := count (val.toNat % 16 + 1), len := count (val.toNat % 16 + 2) }))

/-! ### The wire format -/

/-- The layouts of R55 and R56 bit by bit: in a PrefixVarint byte 0 `k` ones, a zero and the `7-k` low data bits, and 8
data bits in each further byte; in a LengthPrefixed the header `0xF0 + (n-1)` and 8 data bits in each further byte. -/
def Obligations.LayoutsBitByBit : Prop :=
  (∀ k d, 1 ≤ k → k ≤ 3 → d < 2 ^ (7 + 7 * k) →
    (pvLayout k d).length = k + 1 ∧
    (∀ b, b < 8 → (byteAt (pvLayout k d) 0).getLsbD b =
      if b + k ≤ 6 then d.testBit b else decide (8 - k ≤ b)) ∧
    ∀ j b, 1 ≤ j → j ≤ k → b < 8 → (byteAt (pvLayout k d) j).getLsbD b = d.testBit (8 * j - 1 - k + b)) ∧
  ∀ n d, 1 ≤ n → n ≤ 16 → d < 2 ^ (8 * n) →
    (lpLayout n d).length = n + 1 ∧ (byteAt (lpLayout n d) 0).toNat = 0xF0 + (n - 1) ∧
    ∀ j b, 1 ≤ j → j ≤ n → b < 8 → (byteAt (lpLayout n d) j).getLsbD b = d.testBit (8 * (j - 1) + b)

/-- The canonical encoding of a value declares the value's own tier, parameter and length in its first byte, and holds
the value (R62 to R65). -/
def Obligations.CanonicalBytesHoldTheirValue : Prop :=
  ∀ v, v < 2 ^ 128 → (canonBytes v).length = canonLen v ∧
    hdr (byteAt (canonBytes v) 0) = ⟨tierOfValue v, tierParam v, canonLen v⟩ ∧ gather (canonBytes v) = v

/-- The structurally valid encodings of a value are exactly the Immediate byte, the PrefixVarint layouts and the
LengthPrefixed layouts that have room for it (R66). This and every statement on decoding takes the headers `0xF0` to
`0xF2` as accepted, as R64, R66 and R82 say and U1 leaves to be confirmed (notes/assumptions/5.md). -/
def Obligations.StructuralFormsOfAValue : Prop :=
  ∀ (bs : List Byte) (v : Nat), (structurallyValid bs = true ∧ gather bs = v) ↔
    (v < 2 ^ 7 ∧ bs = [byteOf v]) ∨
      (∃ k, 1 ≤ k ∧ k ≤ 3 ∧ v < 2 ^ (7 + 7 * k) ∧ bs = pvLayout k v) ∨
      ∃ n, 1 ≤ n ∧ n ≤ 16 ∧ v < 2 ^ (8 * n) ∧ bs = lpLayout n v

/-- No structurally valid encoding of a value is shorter than the canonical one (R63, R66). -/
def Obligations.CanonicalEncodingIsShortest : Prop :=
  ∀ (bs : List Byte), structurallyValid bs = true → canonLen (gather bs) ≤ bs.length

/-- The greatest canonical length of a value of each width is 2, 3, 5, 9, 17, and it is reached (R6). -/
def Obligations.WorstLengthByWidth : Prop :=
  ∀ w : Width, (∀ v, v < 2 ^ w.bits → canonLen v ≤ worstLen w) ∧ ∃ v, v < 2 ^ w.bits ∧ canonLen v = worstLen w

/-- The canonical length does not fall when the value grows, and takes every value 1 to 17 and no other (R62). -/
def Obligations.CanonicalLengthIsMonotone : Prop :=
  (∀ u v, u ≤ v → v < 2 ^ 128 → canonLen u ≤ canonLen v) ∧
    ∀ l, (∃ v, v < 2 ^ 128 ∧ canonLen v = l) ↔ 1 ≤ l ∧ l ≤ 17

/-- Tier, parameter and canonical length of a value follow from its leading zeros by the table of R59. -/
def Obligations.LeadingZerosClassifyAValue : Prop :=
  ∀ v, v < 2 ^ 128 → classifyByLeadingZeros v = ⟨tierOfValue v, tierParam v, canonLen v⟩ ∧
    (8 ≤ bitlen v → bitlen v ≤ 28 → tierParam v = ceilDiv (bitlen v - 7) 7)

/-! ### Codec commands -/

/-- The effect of `ENC.W` (R75) and its memory effect (R33, R78). On a usable span: when the value fits the width and its encoding the span,
the command completes, the `L` bytes of the canonical encoding stand at `BASE` upwards, every other byte is unchanged,
`LEN` is `L`, and nothing but memory and the response has changed; otherwise it answers `ValueTooLarge`, or else
`BufferTooSmall`, and changes nothing. -/
def Obligations.EncStoresTheCanonicalEncoding : Prop :=
  ∀ (w : Width) (val : Value) (base cap : Nat) (s : State), spanUsable s ⟨base, cap⟩ →
    commandWord (encInstr w val base cap) = sizedWord 0x1#4 w ∧
    (val.toNat < 2 ^ w.bits → canonLen val.toNat ≤ cap →
      ∃ t, exec (encInstr w val base cap) s = .next t ∧
        t = State.answer { s with mem := t.mem } { Response.okay with len := count (canonLen val.toNat) } ∧
        (∀ i, i < canonLen val.toNat → Memory.read t.mem (base + i) = byteAt (canonBytes val.toNat) i) ∧
        ∀ a, a < base ∨ base + canonLen val.toNat ≤ a → Memory.read t.mem a = Memory.read s.mem a) ∧
    (2 ^ w.bits ≤ val.toNat →
      exec (encInstr w val base cap) s = .next (s.answer (Response.blank .valueTooLarge))) ∧
    (val.toNat < 2 ^ w.bits → cap < canonLen val.toNat →
      exec (encInstr w val base cap) s = .next (s.answer (Response.blank .bufferTooSmall)))

/-- `SIZE.W` answers the canonical length when the value fits the width and `ValueTooLarge` otherwise, and does nothing
else; `SIZE.128` never fails and no answer is 0 on `OK` (R86). -/
def Obligations.SizeAnswersTheCanonicalLength : Prop :=
  ∀ (w : Width) (val : Value) (s : State),
    commandWord (sizeInstr w val) = sizedWord 0x3#4 w ∧
    (val.toNat < 2 ^ w.bits → exec (sizeInstr w val) s =
      .next (s.answer { Response.okay with len := count (canonLen val.toNat) }) ∧
      1 ≤ (count (canonLen val.toNat)).toNat ∧ (count (canonLen val.toNat)).toNat = canonLen val.toNat) ∧
    (2 ^ w.bits ≤ val.toNat → exec (sizeInstr w val) s = .next (s.answer (Response.blank .valueTooLarge))) ∧
    val.toNat < 2 ^ Width.w128.bits

/-- For a value that fits, `SIZE.W` gives the `LEN` that `ENC.W` gives for any span of at least that size, and `ENC.W`
fails with `BufferTooSmall` exactly when the span is shorter (R87). -/
def Obligations.SizeAgreesWithEnc : Prop :=
  ∀ (w : Width) (val : Value) (s : State), val.toNat < 2 ^ w.bits →
    ∃ n : BitVec 5, exec (sizeInstr w val) s = .next (s.answer { Response.okay with len := n }) ∧
      ∀ base cap, spanUsable s ⟨base, cap⟩ → ∃ t, exec (encInstr w val base cap) s = .next t ∧
        (n.toNat ≤ cap → t.rsp = some { Response.okay with len := n }) ∧
        (t.rsp = some (Response.blank .bufferTooSmall) ↔ cap < n.toNat)

/-- `DEC.W` on a usable span answers, in this order of checks: `TruncatedInput` when the span is empty or shorter than
the first byte declares; `Overflow` when the value held does not fit the width; else the value and the declared length.
It does nothing else, and the declared length and the value are those of R64 and R65 (R80). -/
def Obligations.DecAnswersWhatTheSpanHolds : Prop :=
  ∀ (w : Width) (base cap : Nat) (s : State), spanUsable s ⟨base, cap⟩ →
    commandWord (decInstr w base cap) = sizedWord 0x2#4 w ∧
    (cap = 0 ∨ cap < (hdr (Memory.read s.mem base)).len →
      exec (decInstr w base cap) s = .next (s.answer (Response.blank .truncatedInput))) ∧
    (cap ≠ 0 → (hdr (Memory.read s.mem base)).len ≤ cap →
      2 ^ w.bits ≤ gather (Memory.readBytes s.mem base (hdr (Memory.read s.mem base)).len) →
      exec (decInstr w base cap) s = .next (s.answer (Response.blank .overflow))) ∧
    (cap ≠ 0 → (hdr (Memory.read s.mem base)).len ≤ cap →
      gather (Memory.readBytes s.mem base (hdr (Memory.read s.mem base)).len) < 2 ^ w.bits →
      exec (decInstr w base cap) s = .next (s.answer { Response.okay with
        val := BitVec.ofNat 128 (gather (Memory.readBytes s.mem base (hdr (Memory.read s.mem base)).len)),
        len := count (hdr (Memory.read s.mem base)).len }))

/-- Which first bytes can lead to `Overflow` at each width: exactly those of the last column of R85's table. -/
def Obligations.FirstBytesThatCanOverflow : Prop :=
  ∀ (w : Width) (b : Byte),
    (∃ (s : State) (base cap : Nat), spanUsable s ⟨base, cap⟩ ∧ Memory.read s.mem base = b ∧
      exec (decInstr w base cap) s = .next (s.answer (Response.blank .overflow))) ↔ mayOverflow w b = true

/-- `DEC.W` depends on the bytes its first byte declares and on the request alone: two systems with the same map that
agree on those bytes get the same response (R15, R32). -/
def Obligations.DecDependsOnlyOnTheDeclaredBytes : Prop :=
  ∀ (w : Width) (base cap : Nat) (s s' t : State), s'.aw = s.aw → s'.ram = s.ram →
    (∀ i, i < (hdr (Memory.read s.mem base)).len →
      Memory.read s'.mem (base + i) = Memory.read s.mem (base + i)) →
    exec (decInstr w base cap) s = .next t →
    ∃ r, t.rsp = some r ∧ exec (decInstr w base cap) s' = .next (s'.answer r)

/-- `DEC.W` accepts every structurally valid encoding, canonical or not: with enough bytes present it answers the value
held and the encoding's length, and the only possible failure is `Overflow` (R82). It takes the headers `0xF0` to `0xF2`
as accepted, which U1 leaves to be confirmed (notes/assumptions/5.md). -/
def Obligations.DecAcceptsEveryStructuralForm : Prop :=
  ∀ (w : Width) (base cap : Nat) (s : State) (bs : List Byte), spanUsable s ⟨base, cap⟩ →
    structurallyValid bs = true → bs.length ≤ cap → Memory.readBytes s.mem base bs.length = bs →
    exec (decInstr w base cap) s = .next (s.answer
      (if gather bs < 2 ^ w.bits then
        { Response.okay with val := BitVec.ofNat 128 (gather bs), len := count bs.length }
      else Response.blank .overflow)) ∧ gather bs < 2 ^ 128

/-- Round trip (R67): `ENC.W` of a value into a span with room for it, then `DEC.W` of the same span, answers the value
and its canonical length, which is also the `LEN` of the `ENC.W` and of `SIZE.W`. -/
def Obligations.EncThenDecRoundTrip : Prop :=
  ∀ (w : Width) (val : Value) (base cap : Nat) (s : State), spanUsable s ⟨base, cap⟩ →
    val.toNat < 2 ^ w.bits → canonLen val.toNat ≤ cap →
    ∃ t, exec (encInstr w val base cap) s = .next t ∧
      t.rsp = some { Response.okay with len := count (canonLen val.toNat) } ∧
      exec (decInstr w base cap) t =
        .next (t.answer { Response.okay with val := val, len := count (canonLen val.toNat) }) ∧
      exec (sizeInstr w val) s = .next (s.answer { Response.okay with len := count (canonLen val.toNat) })

/-- Widths need not match between encoding and decoding (R88): what `ENC.W1` wrote is read back by `DEC.W2` when the
value is below `2^W2`, and answers `Overflow` otherwise. -/
def Obligations.EncThenDecAcrossWidths : Prop :=
  ∀ (w₁ w₂ : Width) (val : Value) (base cap : Nat) (s : State), spanUsable s ⟨base, cap⟩ →
    val.toNat < 2 ^ w₁.bits → canonLen val.toNat ≤ cap →
    ∃ t, exec (encInstr w₁ val base cap) s = .next t ∧
      exec (decInstr w₂ base cap) t = .next (t.answer
        (if val.toNat < 2 ^ w₂.bits then
          { Response.okay with val := val, len := count (canonLen val.toNat) }
        else Response.blank .overflow))

/-! ### Vector commands -/

/-- `GATH` always answers the value, length, tier and parameter of the encoding its lanes hold, the value below `2^128`;
lanes at and above the declared length have no effect; it does nothing else (R91). -/
def Obligations.GathAnswersWhatTheLanesHold : Prop :=
  ∀ (vec : Lanes) (s : State), commandWord (.gath vec) = 0x08#8 ∧ gather (lanesOf vec) < 2 ^ 128 ∧
    exec (.gath vec) s = .next (s.answer { Response.okay with
      val := BitVec.ofNat 128 (gather (lanesOf vec)), len := count (hdr (lane vec 0)).len,
      tier := (hdr (lane vec 0)).tier.code, aux := count (hdr (lane vec 0)).param }) ∧
    ∀ vec' : Lanes, (∀ i, i < (hdr (lane vec 0)).len → lane vec' i = lane vec i) →
      exec (.gath vec') s = exec (.gath vec) s

/-- `SCAT` always answers the canonical encoding in lanes 0 to `L-1` and `0x00` in the others, with its length, tier and
parameter; it does nothing else. `GATH` of that vector gives the value back with the same `LEN`, `TIER` and `AUX` (R94). -/
def Obligations.ScatAnswersTheCanonicalLanes : Prop :=
  ∀ (val : Value) (s : State), commandWord (.scat val) = 0x09#8 ∧
    ∃ y : Lanes, exec (.scat val) s = .next (s.answer { Response.okay with
        vec := y, len := count (canonLen val.toNat), tier := (tierOfValue val.toNat).code,
        aux := count (tierParam val.toNat) }) ∧
      (∀ i, i < 17 → lane y i = if i < canonLen val.toNat then byteAt (canonBytes val.toNat) i else 0) ∧
      exec (.gath y) s = .next (s.answer { Response.okay with
        val := val, len := count (canonLen val.toNat), tier := (tierOfValue val.toNat).code,
        aux := count (tierParam val.toNat) })

/-- The lane-level formulation of gathering equals its definition on every vector (R92). -/
def Obligations.LaneGatherEqualsGather : Prop :=
  ∀ x : List Byte, x.length = 17 → gatherLanes x = gather x

/-- The lane-level formulation of scattering equals the canonical encoding, padded with zero lanes, and its length the
canonical length (R95). -/
def Obligations.LaneScatterEqualsCanonicalBytes : Prop :=
  ∀ v, v < 2 ^ 128 → scatterLanes v = canonBytes v ++ List.replicate (17 - canonLen v) 0 ∧
    scatterLen v = canonLen v

/-- The shuffle-table formulation of gathering equals its definition on every vector (R96). -/
def Obligations.ShuffleGatherEqualsGather : Prop :=
  ∀ x : List Byte, x.length = 17 → gatherShuffle x = gather x

/-- The branchless classification of a first byte, from one count of leading ones, equals `hdr` (R93). -/
def Obligations.BranchlessHeaderEqualsHdr : Prop := ∀ b : Byte, hdrBranchless b = hdr b

/-- `DEC.W` and `ENC.W` are the vector datapaths wrapped in the checks (R97): on every request and every state the
composition and the command do the same, refusals included. -/
def Obligations.CodecIsTheVectorDatapathWrapped : Prop :=
  ∀ (w : Width) (val : Value) (base cap : Nat) (s : State),
    exec (decInstr w base cap) s = decodeByGather w ⟨base, cap⟩ s ∧
      exec (encInstr w val base cap) s = encodeByScatter w val ⟨base, cap⟩ s

/-! ### Mapping commands -/

/-- `ZZE.W` always answers the zigzag (R102) of the signed reading (R101) of `VAL[W-1:0]`, which is below `2^W`, whatever
`VAL[127:W]` is, and does nothing else (R103). -/
def Obligations.ZzeAnswersTheZigzag : Prop :=
  ∀ (w : Width) (val : Value) (s : State),
    commandWord (zzeInstr w val) = sizedWord 0xA#4 w ∧
    0 ≤ zzInt (signedOf w.bits (val.toNat % 2 ^ w.bits)) ∧
    zzInt (signedOf w.bits (val.toNat % 2 ^ w.bits)) < 2 ^ w.bits ∧
    exec (zzeInstr w val) s = .next (s.answer { Response.okay with
      val := BitVec.ofNat 128 (zzInt (signedOf w.bits (val.toNat % 2 ^ w.bits))).toNat })

/-- `ZZD.W` always answers the `W`-bit pattern, zero-extended, of the unzigzag (R102) of `VAL[W-1:0]`, whatever
`VAL[127:W]` is, and does nothing else (R105). -/
def Obligations.ZzdAnswersTheUnzigzag : Prop :=
  ∀ (w : Width) (val : Value) (s : State), commandWord (zzdInstr w val) = sizedWord 0xB#4 w ∧
    ∃ u, u < 2 ^ w.bits ∧ signedOf w.bits u = unzzInt ((val.toNat % 2 ^ w.bits : Nat) : Int) ∧
      exec (zzdInstr w val) s = .next (s.answer { Response.okay with val := BitVec.ofNat 128 u })

/-- `ZZE.W` and `ZZD.W` undo each other at one width; neither is its own inverse, and mixing widths is no inverse, by the
examples of R106. -/
def Obligations.ZigzagCommandsUndoEachOther : Prop :=
  (∀ s : State,
    exec (.zze8 1) s = .next (s.answer { Response.okay with val := 2 }) ∧
    exec (.zze8 2) s = .next (s.answer { Response.okay with val := 4 }) ∧
    exec (.zzd8 2) s = .next (s.answer { Response.okay with val := 1 }) ∧
    exec (.zzd8 1) s = .next (s.answer { Response.okay with val := 0xFF }) ∧
    exec (.zze8 0xFF) s = .next (s.answer { Response.okay with val := 1 }) ∧
    exec (.zze16 0x00FF) s = .next (s.answer { Response.okay with val := 0x01FE })) ∧
  ∀ (w : Width) (val : Value) (s : State),
    (∃ r, exec (zzeInstr w val) s = .next (s.answer r) ∧
      exec (zzdInstr w r.val) s =
        .next (s.answer { Response.okay with val := BitVec.ofNat 128 (val.toNat % 2 ^ w.bits) })) ∧
    ∃ r, exec (zzdInstr w val) s = .next (s.answer r) ∧
      exec (zzeInstr w r.val) s =
        .next (s.answer { Response.okay with val := BitVec.ofNat 128 (val.toNat % 2 ^ w.bits) })

/-- `FTU.W` and `UTF.W` always answer `VAL[W-1:0]` with its bytes in reverse order and zeros above, whatever `VAL[127:W]`
is, and do nothing else (R107, R109, R110). -/
def Obligations.FloatCommandsReverseTheBytes : Prop :=
  ∀ (w : Width) (val : Value) (s : State),
    commandWord (ftuInstr w val) = sizedWord 0xC#4 w ∧ commandWord (utfInstr w val) = sizedWord 0xD#4 w ∧
    ∃ u : Value,
    exec (ftuInstr w val) s = .next (s.answer { Response.okay with val := u }) ∧
    exec (utfInstr w val) s = .next (s.answer { Response.okay with val := u }) ∧
    u.toNat < 2 ^ w.bits ∧
    ∀ i, i < w.bits / 8 → u.extractLsb' (8 * i) 8 = val.extractLsb' (8 * (w.bits / 8 - 1 - i)) 8

/-- `UTF.W` of the result of `FTU.W` gives the pattern back, and the other way round; the widths must match (R111). -/
def Obligations.FloatCommandsUndoEachOther : Prop :=
  (∀ s : State, exec (.ftu32 1) s = .next (s.answer { Response.okay with val := 0x01000000 }) ∧
    exec (.ftu64 1) s = .next (s.answer { Response.okay with val := 0x0100000000000000 })) ∧
  ∀ (w : Width) (val : Value) (s : State),
    (∃ r, exec (ftuInstr w val) s = .next (s.answer r) ∧
      exec (utfInstr w r.val) s =
        .next (s.answer { Response.okay with val := BitVec.ofNat 128 (val.toNat % 2 ^ w.bits) })) ∧
    ∃ r, exec (utfInstr w val) s = .next (s.answer r) ∧
      exec (ftuInstr w r.val) s =
        .next (s.answer { Response.okay with val := BitVec.ofNat 128 (val.toNat % 2 ^ w.bits) })

/-- A pattern whose lowest byte is not zero gives a value at or above `2^(W-8)`. R109 adds that such a value "takes the
longest encoding of its width"; by R57 to R62 that holds for every such pattern at `W` = 64 and 128, and at 8, 16 and 32
only for some (notes/assumptions/14.md). -/
def Obligations.FloatPatternsWithLowByteSetStayLong : Prop :=
  (∀ (w : Width) (val : Value) (s : State), val.toNat % 256 ≠ 0 →
    ∃ u : Value, exec (ftuInstr w val) s = .next (s.answer { Response.okay with val := u }) ∧
      2 ^ (w.bits - 8) ≤ u.toNat ∧ (w = .w64 ∨ w = .w128 → canonLen u.toNat = worstLen w)) ∧
  ∀ (w : Width) (s : State), w = .w8 ∨ w = .w16 ∨ w = .w32 →
    ∃ u : Value, exec (ftuInstr w 1) s = .next (s.answer { Response.okay with val := u }) ∧
      canonLen u.toNat < worstLen w

/-- The effect of zigzag on size (R104): small magnitudes take few bytes, and without the mapping a negative number takes
the longest encoding of its width. -/
def Obligations.ZigzagMakesSmallNumbersShort : Prop :=
  ∀ (w : Width) (x : Value) (s : State), ∃ (r : Response) (t : State), sizez w x s = .next (r, t) ∧
    r.status = 0 ∧
    (-64 ≤ signedOf w.bits (x.toNat % 2 ^ w.bits) → signedOf w.bits (x.toNat % 2 ^ w.bits) ≤ 63 →
      r.len.toNat = 1) ∧
    (-8192 ≤ signedOf w.bits (x.toNat % 2 ^ w.bits) → signedOf w.bits (x.toNat % 2 ^ w.bits) ≤ 8191 →
      r.len.toNat ≤ 2) ∧
    (-2 ^ 20 ≤ signedOf w.bits (x.toNat % 2 ^ w.bits) → signedOf w.bits (x.toNat % 2 ^ w.bits) < 2 ^ 20 →
      r.len.toNat ≤ 3) ∧
    (-2 ^ 27 ≤ signedOf w.bits (x.toNat % 2 ^ w.bits) → signedOf w.bits (x.toNat % 2 ^ w.bits) < 2 ^ 27 →
      r.len.toNat ≤ 4) ∧
    (signedOf w.bits (x.toNat % 2 ^ w.bits) < 0 → canonLen (x.toNat % 2 ^ w.bits) = worstLen w)

/-! ### Pseudo-commands -/

/-- In `ENCZ.W`, `SIZEZ.W`, `ENCF.W` and `SIZEF.W` the second command never answers `ValueTooLarge` (R49). -/
def Obligations.MappedValuesAreNeverTooLarge : Prop :=
  ∀ (w : Width) (x : Value) (base cap : Nat) (s : State) (r : Response) (t : State),
    encz w x base cap s = .next (r, t) ∨ sizez w x s = .next (r, t) ∨
      encf w x base cap s = .next (r, t) ∨ sizef w x s = .next (r, t) →
    r.status ≠ Status.valueTooLarge.code

/-- `ENCZ.W` then `DECZ.W`, and `ENCF.W` then `DECF.W`, on one span with room for the width's longest encoding give the
`W`-bit pattern back, with one `LEN` (R49, R67, R106, R111). -/
def Obligations.PseudoCommandsRoundTrip : Prop :=
  ∀ (w : Width) (x : Value) (base cap : Nat) (s : State), spanUsable s ⟨base, cap⟩ → worstLen w ≤ cap →
    (∃ r t t', encz w x base cap s = .next (r, t) ∧ r.status = 0 ∧
      decz w base cap t = .next
        ({ Response.okay with val := BitVec.ofNat 128 (x.toNat % 2 ^ w.bits), len := r.len }, t')) ∧
    ∃ r t t', encf w x base cap s = .next (r, t) ∧ r.status = 0 ∧
      decf w base cap t = .next
        ({ Response.okay with val := BitVec.ofNat 128 (x.toNat % 2 ^ w.bits), len := r.len }, t')

/-- A program's run (R50) splits into the host's side and the system's. The program, told what it got, does exactly the
acts of the run and ends with the run's host variables. The system, run from the same state over exactly the events of
those acts (R37), ends in the run's final state, and the responses its steps give are those the program got, in order. And
every byte the program loaded is what memory held after the events before the load (R25). The model's choices in it: that
each loaded address is in ordinary memory, because a load elsewhere is refused (notes/assumptions/8.md), and that every
program ends, because `HostProgram` is inductive (notes/assumptions/16.md). -/
def Obligations.ProgramsAreRunsOverTheirEvents : Prop :=
  ∀ (α : Type) (p : HostProgram α) (s : State) (u : HostRun α), p.run s = .next u →
    p.follow u.acts = some u.vars ∧
    core.run (eventsOf u.acts).length { s with host := eventsOf u.acts ++ s.host } = .next u.final ∧
    runResponses (eventsOf u.acts).length { s with host := eventsOf u.acts ++ s.host } =
      .next (u.final, responsesOf u.acts) ∧
    ∀ before addr b after, u.acts = before ++ .loaded addr b :: after →
      ∃ t, core.run (eventsOf before).length { s with host := eventsOf u.acts ++ s.host } = .next t ∧
        addressBacked t.ram addr = true ∧ Memory.read t.mem addr = b

/-! ### The whole machine -/

/-- Every command that is not refused answers one status, and it is one of its row of R120; an illegal word answers
`IllegalCommand` and nothing else does. -/
def Obligations.EveryStatusIsInItsRow : Prop :=
  ∀ (r : Request) (s t : State), transact r s = .next t → ∃ p, t.rsp = some p ∧
    (∀ i, decode r = .command i → ∃ k ∈ statusRow i, p.status = k.code) ∧
    ((∀ i, decode r ≠ .command i) → p.status = Status.illegalCommand.code)

/-- An error response leaves the system exactly as it was before the request: no byte of memory has changed, `PATH` is
unchanged, and every other response field is 0 (R34 for errors, R122). -/
def Obligations.ErrorsLeaveTheSystemUnchanged : Prop :=
  ∀ (r : Request) (s t : State) (p : Response), transact r s = .next t → t.rsp = some p → p.status ≠ 0 →
    t = s.answer p ∧ p.val = 0 ∧ p.len = 0 ∧ p.tier = 0 ∧ p.aux = 0 ∧ p.vec = 0

/-- Only `ENC.W` writes memory, and only inside its span (R20, R26): a command leaves every byte alone but those
`storesTo` gives, and those lie in the command's span. -/
def Obligations.OnlyEncStoresAndOnlyInItsSpan : Prop :=
  ∀ (i : Instr) (s t : State), exec i s = .next t →
    (∀ a, storesTo i a = false → Memory.read t.mem a = Memory.read s.mem a) ∧
    (∀ a, storesTo i a = true → ∃ sp, i.span = some sp ∧ sp.contains a = true) ∧
    t.aw = s.aw ∧ t.path = s.path ∧ t.ram = s.ram ∧ t.host = s.host

/-- A command whose span is not usable is refused, by the name of the first check that fails: a field too wide for the
port (R12), a span that wraps (R27), a span not wholly in ordinary memory (R36). The first name and the
order of the checks are the model's choice (notes/assumptions/2.md and 8.md); that a span that wraps or is not backed is
refused is what R27 and R36 ask of a model. -/
def Obligations.UnusableSpansAreRefused : Prop :=
  ∀ (i : Instr) (sp : Span) (s : State), i.span = some sp →
    (sp.fitsPorts s.aw = false → exec i s = .refused .fieldTooWide) ∧
    (sp.fitsPorts s.aw = true → sp.noWrap s.aw = false → exec i s = .refused .spanWraps) ∧
    (sp.fitsPorts s.aw = true → sp.noWrap s.aw = true → spanBacked s.ram sp = false →
      exec i s = .refused .spanNotBacked)

/-- No host that keeps its duties is ever stopped: every run over its events, of any length, ends in a state
(R134, R141). -/
def Obligations.DutifulHostsAreNeverStopped : Prop :=
  ∀ (k : Nat) (s : State), (∀ e ∈ s.host, hostDuty s e) → safeRun k s

/-- Every step keeps the invariant, from every state that meets it: memory stays in canonical form, the map stays a map,
only ordinary memory is ever written, and every response is one that R14 and R114 allow. -/
def Obligations.StepKeepsTheInvariant : Prop :=
  ∀ s t : State, s.Inv → step s = .next t → t.Inv

/-- The state after reset meets the invariant. -/
def Obligations.ResetMeetsTheInvariant : Prop := State.reset.Inv

/-- Every access is idempotent: repeating a command at once gives the same response and leaves the same bytes (R35). -/
def Obligations.RepeatingACommandChangesNothing : Prop :=
  ∀ (i : Instr) (s t : State), Memory.wf s.mem → exec i s = .next t → exec i t = .next t

/-- Independent commands commute: either order gives the same responses and the same final memory (R38). -/
def Obligations.IndependentCommandsCommute : Prop :=
  ∀ (i j : Instr) (s a c : State), Memory.wf s.mem → independent i j →
    exec i s = .next a → exec j s = .next c →
    ∃ b d, exec j a = .next b ∧ exec i c = .next d ∧ b.mem = d.mem ∧ a.rsp = d.rsp ∧ b.rsp = c.rsp

/-- Another agent's writes outside a command's span cannot be told from writes before the command: the response and the
memory are the same (R38, R136). -/
def Obligations.IndependentWritesCannotBeToldApart : Prop :=
  ∀ (r : Request) (cells : List Host.Cell) (s t : State), Memory.wf s.mem →
    touches (requestSpan r) cells = false → (∀ c ∈ cells, addressBacked s.ram c.1 = true) →
    transact r s = .next t →
    ∃ u, transactDuring r cells s = .next u ∧ u.rsp = t.rsp ∧
      transact r { s with mem := Memory.writeCells s.mem cells } = .next u

/-- A run in which another agent writes a byte of a running command's span is refused (R38), and so is a run with a reset
inside a command (R133). -/
def Obligations.BrokenDutiesAreRefused : Prop :=
  ∀ (s : State) (r : Request) (rest : List HostEvent),
    (∀ cells, s.host = .commandDuring r cells :: rest → touches (requestSpan r) cells = true →
      step s = .refused .bufferDisturbed) ∧
    ∀ p, s.host = .resetDuring r p :: rest → step s = .refused .resetInsideCommand

/-- A byte holds what was last written to it (R25): after the host's store of a list of cells in ordinary memory, each
address in the list reads as its last cell says, and every other byte as before; a store of any other cell is refused
(notes/assumptions/8.md). The unit keeps nothing (R10), and that the step presents no response, `rsp := none`, is R16's
"belongs to one response only" as notes/assumptions/10.md reads it. -/
def Obligations.HostStoresAreReadBack : Prop :=
  ∀ (s : State) (cells : List Host.Cell) (rest : List HostEvent), s.host = .store cells :: rest →
    ((∀ c ∈ cells, addressBacked s.ram c.1 = true) →
      ∃ t, step s = .next t ∧ t = { s with mem := t.mem, rsp := none, host := rest } ∧
        (∀ before a b after, cells = before ++ (a, b) :: after → (∀ c ∈ after, c.1 ≠ a) → Memory.read t.mem a = b) ∧
        ∀ x, (∀ c ∈ cells, c.1 ≠ x) → Memory.read t.mem x = Memory.read s.mem x) ∧
    ((∃ c ∈ cells, addressBacked s.ram c.1 = false) → step s = .refused .storeOutsideMemory)

/-- The path cannot be observed: whatever it is, a request gets the same response and leaves the same memory, or is
refused alike (R98). -/
def Obligations.PathIsNotObserved : Prop :=
  ∀ (r : Request) (s : State) (p : Path), transact r { s with path := p } =
    match transact r s with
    | .next t => .next { t with path := p }
    | .fault e => .fault e
    | .refused e => .refused e

/-- A status is not sticky: what an earlier command answered has no effect on a later one (R16, R123). -/
def Obligations.ResponsesAreNotSticky : Prop :=
  ∀ (r : Request) (s : State) (q : Option Response), transact r { s with rsp := q } = transact r s

/-- A reset between commands leaves the unit idle with no response, does not touch memory, and sets the path it
selected (R131, R132). -/
def Obligations.ResetLeavesMemoryAlone : Prop :=
  ∀ (s : State) (p : Path) (rest : List HostEvent), s.host = .reset p :: rest →
    step s = .next { s with path := p, rsp := none, host := rest }

/-- Right after reset there is no response and no byte that anybody has written, and the unit does nothing until the host
does (R23, R129). The default `AW` is R5's; the empty list of the host's events (notes/assumptions/3.md), the path and the
map (4.md), the empty memory (1.md) and the default as the value after reset (2.md) are the model's choice. -/
def Obligations.ResetStateIsIdle : Prop :=
  State.reset.rsp = none ∧ State.reset.host = [] ∧ State.reset.aw = 64 ∧
    (∀ a, Memory.read State.reset.mem a = Config.unwrittenByte a) ∧ step State.reset = .next State.reset

/-- When the host does nothing, neither does the unit (R129): the step withdraws the last response and changes nothing
else. That the response is withdrawn is the model's choice, by R16 and R23 (notes/assumptions/10.md). -/
def Obligations.IdleStepOnlyWithdrawsTheResponse : Prop :=
  ∀ s : State, s.host = [] → step s = .next { s with rsp := none }
end

