-- ==== Sys2Proof/Laws/Decode.lean ====
section
/-! SUPPORT. What the decoder answers, by the fields of the command word: one lemma for each operation of R42, and one
that lists every way a request can decode to a command. -/

namespace Sys2Proof

/-- A command word with `Z` = 0 is `16 * WSEL + OP` (R40). -/
theorem cmd_of_fields (c : BitVec 8) (hz : zField c ≠ 1#1) :
    c.toNat = 16 * (wselField c).toNat + (opField c).toNat := by
  revert c
  decide

variable {r : Request} {w : Width}

/-- The rest of the decoder once `Z` is known to be 0. -/
theorem decode_zField (hz : zField r.cmd = 1#1) : decode r = .illegal .zBitSet := by
  unfold decode
  rw [if_pos hz]

theorem decode_enc (hz : zField r.cmd ≠ 1#1) (ho : (opField r.cmd).toNat = 1)
    (hw : widthOfWsel (wselField r.cmd) = some w) : decode r = .command (encInstr w r.val r.base r.cap) := by
  unfold decode
  rw [if_neg hz]
  simp only [ho, decodeSized, hw]

theorem decode_dec (hz : zField r.cmd ≠ 1#1) (ho : (opField r.cmd).toNat = 2)
    (hw : widthOfWsel (wselField r.cmd) = some w) : decode r = .command (decInstr w r.base r.cap) := by
  unfold decode
  rw [if_neg hz]
  simp only [ho, decodeSized, hw]

theorem decode_size (hz : zField r.cmd ≠ 1#1) (ho : (opField r.cmd).toNat = 3)
    (hw : widthOfWsel (wselField r.cmd) = some w) : decode r = .command (sizeInstr w r.val) := by
  unfold decode
  rw [if_neg hz]
  simp only [ho, decodeSized, hw]

theorem decode_zze (hz : zField r.cmd ≠ 1#1) (ho : (opField r.cmd).toNat = 10)
    (hw : widthOfWsel (wselField r.cmd) = some w) : decode r = .command (zzeInstr w r.val) := by
  unfold decode
  rw [if_neg hz]
  simp only [ho, decodeSized, hw]

theorem decode_zzd (hz : zField r.cmd ≠ 1#1) (ho : (opField r.cmd).toNat = 11)
    (hw : widthOfWsel (wselField r.cmd) = some w) : decode r = .command (zzdInstr w r.val) := by
  unfold decode
  rw [if_neg hz]
  simp only [ho, decodeSized, hw]

theorem decode_ftu (hz : zField r.cmd ≠ 1#1) (ho : (opField r.cmd).toNat = 12)
    (hw : widthOfWsel (wselField r.cmd) = some w) : decode r = .command (ftuInstr w r.val) := by
  unfold decode
  rw [if_neg hz]
  simp only [ho, decodeSized, hw]

theorem decode_utf (hz : zField r.cmd ≠ 1#1) (ho : (opField r.cmd).toNat = 13)
    (hw : widthOfWsel (wselField r.cmd) = some w) : decode r = .command (utfInstr w r.val) := by
  unfold decode
  rw [if_neg hz]
  simp only [ho, decodeSized, hw]

theorem decode_cls (hz : zField r.cmd ≠ 1#1) (ho : (opField r.cmd).toNat = 4)
    (hw : wselField r.cmd = 0#3) : decode r = .command (.cls r.val) := by
  unfold decode
  rw [if_neg hz]
  simp only [ho, decodeUnsized, hw, if_true]

theorem decode_pvp (hz : zField r.cmd ≠ 1#1) (ho : (opField r.cmd).toNat = 5)
    (hw : wselField r.cmd = 0#3) : decode r = .command (.pvp r.val) := by
  unfold decode
  rw [if_neg hz]
  simp only [ho, decodeUnsized, hw, if_true]

theorem decode_lpp (hz : zField r.cmd ≠ 1#1) (ho : (opField r.cmd).toNat = 6)
    (hw : wselField r.cmd = 0#3) : decode r = .command (.lpp r.val) := by
  unfold decode
  rw [if_neg hz]
  simp only [ho, decodeUnsized, hw, if_true]

theorem decode_hdr (hz : zField r.cmd ≠ 1#1) (ho : (opField r.cmd).toNat = 7)
    (hw : wselField r.cmd = 0#3) : decode r = .command (.hdr r.val) := by
  unfold decode
  rw [if_neg hz]
  simp only [ho, decodeUnsized, hw, if_true]

theorem decode_gath (hz : zField r.cmd ≠ 1#1) (ho : (opField r.cmd).toNat = 8)
    (hw : wselField r.cmd = 0#3) : decode r = .command (.gath r.vec) := by
  unfold decode
  rw [if_neg hz]
  simp only [ho, decodeUnsized, hw, if_true]

theorem decode_scat (hz : zField r.cmd ≠ 1#1) (ho : (opField r.cmd).toNat = 9)
    (hw : wselField r.cmd = 0#3) : decode r = .command (.scat r.val) := by
  unfold decode
  rw [if_neg hz]
  simp only [ho, decodeUnsized, hw, if_true]

theorem decodeSized_command {wsel : BitVec 3} {make : Width → Instr} {i : Instr}
    (h : decodeSized wsel make = .command i) : ∃ w, widthOfWsel wsel = some w ∧ i = make w := by
  unfold decodeSized at h
  split at h
  · next w hw => exact ⟨w, hw, by cases h; rfl⟩
  · cases h

theorem decodeUnsized_command {wsel : BitVec 3} {i j : Instr} (h : decodeUnsized wsel j = .command i) :
    wsel = 0#3 ∧ i = j := by
  unfold decodeUnsized at h
  split at h
  · next hw => exact ⟨hw, by cases h; rfl⟩
  · cases h

/-- Every way a request can decode to a command. -/
theorem decode_command {i : Instr} (h : decode r = .command i) :
    zField r.cmd ≠ 1#1 ∧ (
      ((opField r.cmd).toNat = 1 ∧ ∃ w, widthOfWsel (wselField r.cmd) = some w ∧ i = encInstr w r.val r.base r.cap) ∨
      ((opField r.cmd).toNat = 2 ∧ ∃ w, widthOfWsel (wselField r.cmd) = some w ∧ i = decInstr w r.base r.cap) ∨
      ((opField r.cmd).toNat = 3 ∧ ∃ w, widthOfWsel (wselField r.cmd) = some w ∧ i = sizeInstr w r.val) ∨
      ((opField r.cmd).toNat = 4 ∧ wselField r.cmd = 0#3 ∧ i = .cls r.val) ∨
      ((opField r.cmd).toNat = 5 ∧ wselField r.cmd = 0#3 ∧ i = .pvp r.val) ∨
      ((opField r.cmd).toNat = 6 ∧ wselField r.cmd = 0#3 ∧ i = .lpp r.val) ∨
      ((opField r.cmd).toNat = 7 ∧ wselField r.cmd = 0#3 ∧ i = .hdr r.val) ∨
      ((opField r.cmd).toNat = 8 ∧ wselField r.cmd = 0#3 ∧ i = .gath r.vec) ∨
      ((opField r.cmd).toNat = 9 ∧ wselField r.cmd = 0#3 ∧ i = .scat r.val) ∨
      ((opField r.cmd).toNat = 10 ∧ ∃ w, widthOfWsel (wselField r.cmd) = some w ∧ i = zzeInstr w r.val) ∨
      ((opField r.cmd).toNat = 11 ∧ ∃ w, widthOfWsel (wselField r.cmd) = some w ∧ i = zzdInstr w r.val) ∨
      ((opField r.cmd).toNat = 12 ∧ ∃ w, widthOfWsel (wselField r.cmd) = some w ∧ i = ftuInstr w r.val) ∨
      ((opField r.cmd).toNat = 13 ∧ ∃ w, widthOfWsel (wselField r.cmd) = some w ∧ i = utfInstr w r.val)) := by
  unfold decode at h
  split at h
  · cases h
  · next hz =>
    refine ⟨hz, ?_⟩
    split at h
    · next ho => exact .inl ⟨ho, decodeSized_command h⟩
    · next ho => exact .inr (.inl ⟨ho, decodeSized_command h⟩)
    · next ho => exact .inr (.inr (.inl ⟨ho, decodeSized_command h⟩))
    · next ho => exact .inr (.inr (.inr (.inl ⟨ho, decodeUnsized_command h⟩)))
    · next ho => exact .inr (.inr (.inr (.inr (.inl ⟨ho, decodeUnsized_command h⟩))))
    · next ho => exact .inr (.inr (.inr (.inr (.inr (.inl ⟨ho, decodeUnsized_command h⟩)))))
    · next ho => exact .inr (.inr (.inr (.inr (.inr (.inr (.inl ⟨ho, decodeUnsized_command h⟩))))))
    · next ho => exact .inr (.inr (.inr (.inr (.inr (.inr (.inr (.inl ⟨ho, decodeUnsized_command h⟩)))))))
    · next ho => exact .inr (.inr (.inr (.inr (.inr (.inr (.inr (.inr (.inl ⟨ho, decodeUnsized_command h⟩))))))))
    · next ho => exact .inr (.inr (.inr (.inr (.inr (.inr (.inr (.inr (.inr (.inl ⟨ho, decodeSized_command h⟩)))))))))
    · next ho => exact .inr (.inr (.inr (.inr (.inr (.inr (.inr (.inr (.inr (.inr (.inl ⟨ho, decodeSized_command h⟩))))))))))
    · next ho => exact .inr (.inr (.inr (.inr (.inr (.inr (.inr (.inr (.inr (.inr (.inr (.inl ⟨ho, decodeSized_command h⟩)))))))))))
    · next ho => exact .inr (.inr (.inr (.inr (.inr (.inr (.inr (.inr (.inr (.inr (.inr (.inr (⟨ho, decodeSized_command h⟩))))))))))))
    · cases h

end Sys2Proof
end

