-- ==== Sys2Proof/Laws/Layout.lean ====
section
/-! SUPPORT. The small lemmas of the wire format's functions: lengths, ranges of the parameters, splitting numbers into
bytes and joining them, what a header byte declares. -/

namespace Sys2Proof.Machine

/-! ### Bytes and numbers -/

@[simp] theorem byteOf_toNat (v : Nat) : (byteOf v).toNat = v % 256 := by simp [byteOf]

@[simp] theorem bytesLe_length (v n : Nat) : (bytesLe v n).length = n := by simp [bytesLe]

/-- The bytes of a number: the lowest, then those of the rest. -/
theorem bytesLe_succ (v n : Nat) : bytesLe v (n + 1) = byteOf v :: bytesLe (v / 256) n := by
  simp only [bytesLe, List.range_succ_eq_map, List.map_cons, List.map_map]
  congr 1
  · simp only [bitsOf, byteOf]
    apply BitVec.eq_of_toNat_eq
    simp
  · apply List.map_congr_left
    intro i _
    simp only [Function.comp, bitsOf, Nat.succ_eq_add_one]
    have h1 : 8 * (i + 1) + 7 - 8 * (i + 1) + 1 = 8 := by omega
    have h2 : 8 * i + 7 - 8 * i + 1 = 8 := by omega
    have h3 : v >>> (8 * (i + 1)) = (v / 256) >>> (8 * i) := by
      rw [Nat.shiftRight_eq_div_pow, Nat.shiftRight_eq_div_pow, Nat.div_div_eq_div_mul]
      congr 1
      rw [show 8 * (i + 1) = 8 + 8 * i by ring, pow_add]
      norm_num
    rw [h1, h2, h3]

theorem le_lt (bs : List Byte) : le bs < 256 ^ bs.length := by
  induction bs with
  | nil => simp [le]
  | cons b bs ih =>
    have hb := b.isLt
    simp only [le, List.length_cons, pow_succ]
    omega

/-- Splitting a number into `n` bytes and joining them again keeps it modulo `256^n`. -/
theorem le_bytesLe (v n : Nat) : le (bytesLe v n) = v % 256 ^ n := by
  induction n generalizing v with
  | zero => simp [bytesLe, le, Nat.mod_one]
  | succ n ih =>
    rw [bytesLe_succ, le, ih, byteOf_toNat, pow_succ, Nat.mul_comm (256 ^ n) 256, Nat.mod_mul]

/-- Joining bytes and splitting the number again gives the bytes. -/
theorem bytesLe_le (bs : List Byte) : bytesLe (le bs) bs.length = bs := by
  induction bs with
  | nil => rfl
  | cons b bs ih =>
    have hb := b.isLt
    rw [List.length_cons, bytesLe_succ, le]
    congr 1
    · apply BitVec.eq_of_toNat_eq
      rw [byteOf_toNat]
      omega
    · rw [show (b.toNat + 256 * le bs) / 256 = le bs by omega, ih]

@[simp] theorem byteAt_cons_zero (b : Byte) (bs : List Byte) : byteAt (b :: bs) 0 = b := rfl

@[simp] theorem byteAt_cons_succ (b : Byte) (bs : List Byte) (j : Nat) :
    byteAt (b :: bs) (j + 1) = byteAt bs j := by simp [byteAt]

theorem byteAt_append_left {as : List Byte} (bs : List Byte) {j : Nat} (h : j < as.length) :
    byteAt (as ++ bs) j = byteAt as j := by
  simp [byteAt, List.getElem?_append_left h]

/-! ### Parameters of a value -/

/-- What `pv_k` answers (R60). -/
theorem pvK_eq (v : Nat) :
    pvK v = if v < 2 ^ 14 then some 1 else if v < 2 ^ 21 then some 2 else if v < 2 ^ 28 then some 3 else none := by
  have e1 : 2 ^ (7 + 7 * 1) = 2 ^ 14 := rfl
  have e2 : 2 ^ (7 + 7 * 2) = 2 ^ 21 := rfl
  have e3 : 2 ^ (7 + 7 * 3) = 2 ^ 28 := rfl
  unfold pvK
  by_cases h1 : v < 2 ^ 14
  · rw [List.find?_cons_of_pos (by rw [e1]; exact decide_eq_true h1), if_pos h1]
  rw [List.find?_cons_of_neg (by rw [e1]; simpa using h1), if_neg h1]
  by_cases h2 : v < 2 ^ 21
  · rw [List.find?_cons_of_pos (by rw [e2]; exact decide_eq_true h2), if_pos h2]
  rw [List.find?_cons_of_neg (by rw [e2]; simpa using h2), if_neg h2]
  by_cases h3 : v < 2 ^ 28
  · rw [List.find?_cons_of_pos (by rw [e3]; exact decide_eq_true h3), if_pos h3]
  · rw [List.find?_cons_of_neg (by rw [e3]; simpa using h3), if_neg h3, List.find?_nil]

/-- In the PrefixVarint tier `pv_k` answers 1, 2 or 3. -/
theorem pvK_spec {v k : Nat} (h : pvK v = some k) : 1 ≤ k ∧ k ≤ 3 ∧ v < 2 ^ (7 + 7 * k) := by
  rw [pvK_eq] at h
  split at h
  · cases h; exact ⟨by norm_num, by norm_num, by omega⟩
  · split at h
    · cases h; exact ⟨by norm_num, by norm_num, by omega⟩
    · split at h
      · cases h; exact ⟨by norm_num, by norm_num, by omega⟩
      · cases h

theorem pvK_isSome {v : Nat} (h : v < 2 ^ 28) : ∃ k, pvK v = some k := by
  rw [pvK_eq, if_pos h]
  split
  · exact ⟨_, rfl⟩
  · split <;> exact ⟨_, rfl⟩

/-- What `lp_n` answers for a value of the port (R61): 4 to 16, enough bytes, and no more than needed. -/
theorem lpN_spec {v : Nat} (h : v < 2 ^ 128) :
    4 ≤ lpN v ∧ lpN v ≤ 16 ∧ v < 2 ^ (8 * lpN v) ∧ (lpN v = 4 ∨ 2 ^ (8 * (lpN v - 1)) ≤ v) := by
  have hfind : ∃ n, (List.range' 1 16).find? (fun n => decide (v < 2 ^ (8 * n))) = some n := by
    rcases hx : (List.range' 1 16).find? (fun n => decide (v < 2 ^ (8 * n))) with _ | n
    · rw [List.find?_eq_none] at hx
      exact absurd (by simpa using h) (hx 16 (by simp))
    · exact ⟨n, rfl⟩
  obtain ⟨n, hn⟩ := hfind
  have hlp : lpN v = max 4 n := by simp [lpN, hn]
  have hmem := List.mem_of_find?_eq_some hn
  have hlt : v < 2 ^ (8 * n) := by simpa using List.find?_some hn
  simp only [List.mem_range'_1] at hmem
  rw [hlp]
  refine ⟨by omega, by omega, lt_of_lt_of_le hlt (Nat.pow_le_pow_right (by norm_num) (by omega)), ?_⟩
  by_cases h4 : n ≤ 4
  · left; omega
  · right
    rw [show max 4 n = n by omega]
    by_contra hc
    rw [Nat.not_le] at hc
    obtain ⟨_, as, bs, heq, hall⟩ := List.find?_eq_some_iff_append.1 hn
    have hmem' : n - 1 ∈ as := by
      have h1 : n - 1 ∈ List.range' 1 16 := by simp only [List.mem_range'_1]; omega
      rw [heq] at h1
      rcases List.mem_append.1 h1 with h1 | h1
      · exact h1
      · exfalso
        have hsorted : (List.range' 1 16).Pairwise (· < ·) := List.pairwise_lt_range'
        rw [heq] at hsorted
        have hs := (List.pairwise_append.1 hsorted).2.1
        rcases List.mem_cons.1 h1 with h1 | h1
        · omega
        · have := (List.pairwise_cons.1 hs).1 _ h1
          omega
    have := hall _ hmem'
    simp at this
    omega

/-! ### Lengths -/

@[simp] theorem pvLayout_length (k d : Nat) : (pvLayout k d).length = k + 1 := by simp [pvLayout]

@[simp] theorem lpLayout_length (n d : Nat) : (lpLayout n d).length = n + 1 := by simp [lpLayout]

/-- The canonical encoding is as long as `canon_len` says (R62, R63). -/
@[simp] theorem canonBytes_length (v : Nat) : (canonBytes v).length = canonLen v := by
  simp only [canonBytes, canonLen]
  split <;> simp

/-- `canon_len` of a value of the port is 1 to 17 (R62). -/
theorem canonLen_bounds {v : Nat} (h : v < 2 ^ 128) : 1 ≤ canonLen v ∧ canonLen v ≤ 17 := by
  simp only [canonLen, tierOfValue]
  split
  · omega
  · next ht =>
    split at ht
    · cases ht
    · split at ht
      · next h28 =>
        obtain ⟨k, hk⟩ := pvK_isSome h28
        have := pvK_spec hk
        simp only [hk, Option.getD_some]
        omega
      · cases ht
  · have := lpN_spec h
    omega

/-! ### First bytes -/

/-- What a first byte declares, by its value (R64). -/
theorem hdr_cases (b : Byte) :
    hdr b = if b.toNat < 0x80 then ⟨.immediate, 0, 1⟩
      else if b.toNat < 0xC0 then ⟨.prefixVarint, 1, 2⟩
      else if b.toNat < 0xE0 then ⟨.prefixVarint, 2, 3⟩
      else if b.toNat < 0xF0 then ⟨.prefixVarint, 3, 4⟩
      else ⟨.lengthPrefixed, b.toNat % 16 + 1, b.toNat % 16 + 2⟩ := by
  revert b
  decide

/-- A declared length is 1 to 17. -/
theorem hdr_len_bounds (b : Byte) : 1 ≤ (hdr b).len ∧ (hdr b).len ≤ 17 := by
  rw [hdr_cases]
  split_ifs <;> (simp; try omega)

/-- A declared parameter is at most 16. -/
theorem hdr_param_le (b : Byte) : (hdr b).param ≤ 16 := by
  rw [hdr_cases]
  split_ifs <;> simp
  omega

end Sys2Proof.Machine
end

