-- ==== Sys2Proof/Laws/Memory.lean ====
section
/-! SUPPORT. What buffer memory does: a read after a write gives the byte written, a write leaves every other address
alone, every operation keeps the canonical form, and two memories in canonical form that read alike are equal. -/

namespace Sys2Proof.Machine

/-! ### One byte -/

theorem Memory.read?_write_same (m : Memory) (a : Nat) (b : Byte) :
    Memory.read? (Memory.write m a b) a = some b := by
  induction m with
  | nil => simp [Memory.write, Memory.read?]
  | cons c m ih =>
    obtain ⟨k, v⟩ := c
    simp only [Memory.write]
    split
    · simp [Memory.read?]
    · split
      · simp [Memory.read?]
      · have : k ≠ a := by omega
        simp [Memory.read?, this, ih]

theorem Memory.read?_write_other (m : Memory) {a x : Nat} (b : Byte) (h : x ≠ a) :
    Memory.read? (Memory.write m a b) x = Memory.read? m x := by
  induction m with
  | nil => simp [Memory.write, Memory.read?, Ne.symm h]
  | cons c m ih =>
    obtain ⟨k, v⟩ := c
    simp only [Memory.write]
    split
    · simp [Memory.read?, Ne.symm h]
    · split
      · next hk => subst hk; simp [Memory.read?, Ne.symm h]
      · simp [Memory.read?, ih]

theorem Memory.read?_write (m : Memory) (a x : Nat) (b : Byte) :
    Memory.read? (Memory.write m a b) x = if x = a then some b else Memory.read? m x := by
  split
  · next h => subst h; exact Memory.read?_write_same m x b
  · next h => exact Memory.read?_write_other m b h

@[simp] theorem Memory.read_write_same (m : Memory) (a : Nat) (b : Byte) :
    Memory.read (Memory.write m a b) a = b := by
  simp [Memory.read, Memory.read?_write_same]

theorem Memory.read_write_other (m : Memory) {a x : Nat} (b : Byte) (h : x ≠ a) :
    Memory.read (Memory.write m a b) x = Memory.read m x := by
  simp [Memory.read, Memory.read?_write_other m b h]

/-- The cells after a write are the new one and some of the old. -/
theorem Memory.mem_write {m : Memory} {a : Nat} {b : Byte} {c : Host.Cell} (h : c ∈ Memory.write m a b) :
    c = (a, b) ∨ c ∈ m := by
  induction m with
  | nil => simpa [Memory.write] using h
  | cons d m ih =>
    obtain ⟨k, v⟩ := d
    simp only [Memory.write] at h
    split at h
    · simpa using h
    · split at h
      · simp only [List.mem_cons] at h ⊢; tauto
      · simp only [List.mem_cons] at h ⊢
        rcases h with h | h
        · tauto
        · rcases ih h with h | h <;> tauto

theorem Memory.write_wf {m : Memory} (hm : Memory.wf m) (a : Nat) (b : Byte) : Memory.wf (Memory.write m a b) := by
  induction m with
  | nil => simp [Memory.write, Memory.wf]
  | cons d m ih =>
    obtain ⟨k, v⟩ := d
    have hk := List.pairwise_cons.1 hm
    simp only [Memory.write]
    split
    · next hlt =>
      refine List.pairwise_cons.2 ⟨?_, hm⟩
      intro c hc
      rcases List.mem_cons.1 hc with rfl | hc
      · exact hlt
      · exact lt_trans hlt (hk.1 c hc)
    · split
      · next heq => subst heq; exact List.pairwise_cons.2 ⟨hk.1, hk.2⟩
      · refine List.pairwise_cons.2 ⟨?_, ih hk.2⟩
        intro c hc
        rcases Memory.mem_write hc with rfl | hc
        · simp only; omega
        · exact hk.1 c hc

/-! ### Runs of bytes and lists of cells -/

/-- Every byte after a store of a run: the bytes of the run at its addresses, and the old byte everywhere else. -/
theorem Memory.read?_writeBytes (bs : List Byte) (m : Memory) (addr x : Nat) :
    Memory.read? (Memory.writeBytes m addr bs) x =
      if addr ≤ x ∧ x < addr + bs.length then bs[x - addr]? else Memory.read? m x := by
  induction bs generalizing m addr with
  | nil =>
    rw [if_neg (by simp only [List.length_nil]; omega)]
    rfl
  | cons b bs ih =>
    simp only [Memory.writeBytes, ih, Memory.read?_write, List.length_cons]
    by_cases hx : x = addr
    · subst hx
      rw [if_neg (by omega), if_pos rfl, if_pos (by omega)]
      simp
    · by_cases hin : addr + 1 ≤ x ∧ x < addr + 1 + bs.length
      · obtain ⟨d, rfl⟩ : ∃ d, x = addr + 1 + d := ⟨x - (addr + 1), by omega⟩
        rw [if_pos hin, if_pos (by omega)]
        have h1 : addr + 1 + d - addr = d + 1 := by omega
        have h2 : addr + 1 + d - (addr + 1) = d := by omega
        rw [h1, h2, List.getElem?_cons_succ]
      · rw [if_neg hin, if_neg hx, if_neg (by omega)]

theorem Memory.read_writeBytes_outside {bs : List Byte} {m : Memory} {addr x : Nat}
    (h : x < addr ∨ addr + bs.length ≤ x) :
    Memory.read (Memory.writeBytes m addr bs) x = Memory.read m x := by
  have : ¬(addr ≤ x ∧ x < addr + bs.length) := by omega
  simp [Memory.read, Memory.read?_writeBytes, this]

theorem Memory.read_writeBytes_inside {bs : List Byte} {m : Memory} {addr i : Nat} (h : i < bs.length) :
    Memory.read (Memory.writeBytes m addr bs) (addr + i) = byteAt bs i := by
  have : addr ≤ addr + i ∧ addr + i < addr + bs.length := by omega
  simp [Memory.read, Memory.read?_writeBytes, this, byteAt, h]

/-- Reading a run that was just stored gives it back. -/
theorem Memory.readBytes_writeBytes (bs : List Byte) (m : Memory) (addr : Nat) :
    Memory.readBytes (Memory.writeBytes m addr bs) addr bs.length = bs := by
  refine List.ext_getElem (by simp [Memory.readBytes]) ?_
  intro i h1 h2
  simp only [Memory.readBytes, List.getElem_map, List.getElem_range]
  rw [Memory.read_writeBytes_inside h2]
  simp [byteAt, h2]

@[simp] theorem Memory.readBytes_length (m : Memory) (addr n : Nat) : (Memory.readBytes m addr n).length = n := by
  simp [Memory.readBytes]

theorem Memory.writeBytes_wf (bs : List Byte) {m : Memory} (hm : Memory.wf m) (addr : Nat) :
    Memory.wf (Memory.writeBytes m addr bs) := by
  induction bs generalizing m addr with
  | nil => exact hm
  | cons b bs ih => exact ih (Memory.write_wf hm addr b) (addr + 1)

theorem Memory.mem_writeBytes {bs : List Byte} {m : Memory} {addr : Nat} {c : Host.Cell}
    (h : c ∈ Memory.writeBytes m addr bs) : (addr ≤ c.1 ∧ c.1 < addr + bs.length) ∨ c ∈ m := by
  induction bs generalizing m addr with
  | nil => exact .inr h
  | cons b bs ih =>
    simp only [List.length_cons]
    rcases ih h with h | h
    · left; omega
    · rcases Memory.mem_write h with rfl | h
      · left; simp
      · exact .inr h

theorem Memory.writeCells_wf (cells : List Host.Cell) {m : Memory} (hm : Memory.wf m) :
    Memory.wf (Memory.writeCells m cells) := by
  induction cells generalizing m with
  | nil => exact hm
  | cons c cells ih => exact ih (Memory.write_wf hm c.1 c.2)

theorem Memory.mem_writeCells {cells : List Host.Cell} {m : Memory} {c : Host.Cell}
    (h : c ∈ Memory.writeCells m cells) : c ∈ cells ∨ c ∈ m := by
  induction cells generalizing m with
  | nil => exact .inr h
  | cons d cells ih =>
    rcases ih (m := Memory.write m d.1 d.2) h with h | h
    · exact .inl (List.mem_cons_of_mem _ h)
    · rcases Memory.mem_write h with rfl | h
      · exact .inl List.mem_cons_self
      · exact .inr h

theorem Memory.read_writeCells_outside {cells : List Host.Cell} {m : Memory} {x : Nat}
    (h : ∀ c ∈ cells, c.1 ≠ x) : Memory.read (Memory.writeCells m cells) x = Memory.read m x := by
  induction cells generalizing m with
  | nil => rfl
  | cons d cells ih =>
    have h1 := ih (m := Memory.write m d.1 d.2) fun c hc => h c (List.mem_cons_of_mem _ hc)
    have h2 := h d List.mem_cons_self
    exact h1.trans (Memory.read_write_other m d.2 (Ne.symm h2))

/-! ### Canonical form -/

theorem Memory.read?_eq_none_of_lt {m : Memory} {a : Nat} (h : ∀ c ∈ m, a < c.1) : Memory.read? m a = none := by
  induction m with
  | nil => rfl
  | cons d m ih =>
    obtain ⟨k, v⟩ := d
    have := h (k, v) List.mem_cons_self
    have hk : k ≠ a := by simp only at this; omega
    simp only [Memory.read?, hk, if_false]
    exact ih fun c hc => h c (List.mem_cons_of_mem _ hc)

/-- Two memories in canonical form that hold the same written bytes are equal. -/
theorem Memory.ext_read? {m n : Memory} (hm : Memory.wf m) (hn : Memory.wf n)
    (h : ∀ a, Memory.read? m a = Memory.read? n a) : m = n := by
  induction m generalizing n with
  | nil =>
    cases n with
    | nil => rfl
    | cons d n =>
      obtain ⟨k, v⟩ := d
      have := h k
      simp [Memory.read?] at this
  | cons c m ih =>
    obtain ⟨k, v⟩ := c
    cases n with
    | nil =>
      have := h k
      simp [Memory.read?] at this
    | cons d n =>
      obtain ⟨l, w⟩ := d
      have hk := List.pairwise_cons.1 hm
      have hl := List.pairwise_cons.1 hn
      have hkl : k = l := by
        rcases lt_trichotomy k l with hlt | heq | hgt
        · have h1 := h k
          have h2 : Memory.read? ((l, w) :: n) k = none := by
            refine Memory.read?_eq_none_of_lt ?_
            intro c hc
            rcases List.mem_cons.1 hc with rfl | hc
            · exact hlt
            · exact lt_trans hlt (hl.1 c hc)
          rw [h2] at h1
          simp [Memory.read?] at h1
        · exact heq
        · have h1 := h l
          have h2 : Memory.read? ((k, v) :: m) l = none := by
            refine Memory.read?_eq_none_of_lt ?_
            intro c hc
            rcases List.mem_cons.1 hc with rfl | hc
            · exact hgt
            · exact lt_trans hgt (hk.1 c hc)
          rw [h2] at h1
          simp [Memory.read?] at h1
      subst hkl
      have hvw : v = w := by
        have := h k
        simpa [Memory.read?] using this
      subst hvw
      have hmn : m = n := by
        refine ih hk.2 hl.2 ?_
        intro a
        by_cases ha : k = a
        · subst ha
          rw [Memory.read?_eq_none_of_lt hk.1, Memory.read?_eq_none_of_lt hl.1]
        · have := h a
          simpa [Memory.read?, ha] using this
      rw [hmn]

/-- Every operation on memory keeps the canonical form. -/
theorem Memory.operations_keep_wf {m : Memory} (hm : Memory.wf m) :
    (∀ a b, Memory.wf (Memory.write m a b)) ∧ (∀ addr bs, Memory.wf (Memory.writeBytes m addr bs)) ∧
      ∀ cells, Memory.wf (Memory.writeCells m cells) :=
  ⟨fun a b => Memory.write_wf hm a b, fun addr bs => Memory.writeBytes_wf bs hm addr,
    fun cells => Memory.writeCells_wf cells hm⟩

/-- The memory of the reset state is in canonical form. -/
theorem Memory.reset_wf : Memory.wf State.reset.mem := List.Pairwise.nil

end Sys2Proof.Machine
end

