-- ==== Sys2Proof/Laws/State.lean ====
section
/-! SUPPORT. One lemma for each field and each update of the state and of the response, true by unfolding, so that no
proof unfolds a record update again. -/

namespace Sys2Proof.Machine

variable (s : State) (r : Response) (k : Status) (p : Path)

@[simp] theorem State.answer_aw : (s.answer r).aw = s.aw := rfl
@[simp] theorem State.answer_path : (s.answer r).path = s.path := rfl
@[simp] theorem State.answer_ram : (s.answer r).ram = s.ram := rfl
@[simp] theorem State.answer_mem : (s.answer r).mem = s.mem := rfl
@[simp] theorem State.answer_rsp : (s.answer r).rsp = some r := rfl
@[simp] theorem State.answer_host : (s.answer r).host = s.host := rfl

@[simp] theorem State.noResponse_aw : s.noResponse.aw = s.aw := rfl
@[simp] theorem State.noResponse_path : s.noResponse.path = s.path := rfl
@[simp] theorem State.noResponse_ram : s.noResponse.ram = s.ram := rfl
@[simp] theorem State.noResponse_mem : s.noResponse.mem = s.mem := rfl
@[simp] theorem State.noResponse_rsp : s.noResponse.rsp = none := rfl
@[simp] theorem State.noResponse_host : s.noResponse.host = s.host := rfl

@[simp] theorem resetUnit_aw : (resetUnit p s).aw = s.aw := rfl
@[simp] theorem resetUnit_path : (resetUnit p s).path = p := rfl
@[simp] theorem resetUnit_ram : (resetUnit p s).ram = s.ram := rfl
@[simp] theorem resetUnit_mem : (resetUnit p s).mem = s.mem := rfl
@[simp] theorem resetUnit_rsp : (resetUnit p s).rsp = none := rfl
@[simp] theorem resetUnit_host : (resetUnit p s).host = s.host := rfl

@[simp] theorem withFetchWord_aw (nbits w : Nat) : (s.withFetchWord nbits w).aw = s.aw := rfl
@[simp] theorem withFetchWord_path (nbits w : Nat) : (s.withFetchWord nbits w).path = s.path := rfl
@[simp] theorem withFetchWord_ram (nbits w : Nat) : (s.withFetchWord nbits w).ram = s.ram := rfl
@[simp] theorem withFetchWord_mem (nbits w : Nat) : (s.withFetchWord nbits w).mem = s.mem := rfl
@[simp] theorem withFetchWord_rsp (nbits w : Nat) : (s.withFetchWord nbits w).rsp = s.rsp := rfl
@[simp] theorem withFetchWord_host (nbits w : Nat) :
    (s.withFetchWord nbits w).host = .command (requestOfWord nbits w) :: s.host := rfl

@[simp] theorem Response.blank_status : (Response.blank k).status = k.code := rfl
@[simp] theorem Response.blank_val : (Response.blank k).val = 0 := rfl
@[simp] theorem Response.blank_len : (Response.blank k).len = 0 := rfl
@[simp] theorem Response.blank_tier : (Response.blank k).tier = 0 := rfl
@[simp] theorem Response.blank_aux : (Response.blank k).aux = 0 := rfl
@[simp] theorem Response.blank_vec : (Response.blank k).vec = 0 := rfl

@[simp] theorem Response.okay_status : Response.okay.status = 0 := rfl
@[simp] theorem Response.okay_val : Response.okay.val = 0 := rfl
@[simp] theorem Response.okay_len : Response.okay.len = 0 := rfl
@[simp] theorem Response.okay_tier : Response.okay.tier = 0 := rfl
@[simp] theorem Response.okay_aux : Response.okay.aux = 0 := rfl
@[simp] theorem Response.okay_vec : Response.okay.vec = 0 := rfl

/-- A command that completes answers, and does nothing else. -/
@[simp] theorem complete_eq : complete r s = .next (s.answer r) := rfl

/-- A command that fails answers its status with every other field 0, and does nothing else (R122). -/
@[simp] theorem fail_eq : fail k s = .next (s.answer (Response.blank k)) := rfl

end Sys2Proof.Machine
end

