-- ==== Sys2Proof/Laws/Ops.lean ====
section
/-! SUPPORT. For each shared operation, one lemma that says everything it can do; later proofs cite it instead of
unfolding the operation. -/

namespace Sys2Proof.Machine

/-- On a usable span the body runs. -/
theorem withSpan_usable {sp : Span} {s : State} (h : spanUsable s sp)
    (body : Host.Outcome State Fault Refusal) : withSpan sp s body = body := by
  obtain ⟨h1, h2, h3⟩ := h
  simp [withSpan, h1, h2, h3]

/-- Everything `withSpan` can do: run the body on a usable span, or refuse for one of three reasons. -/
theorem withSpan_cases (sp : Span) (s : State) (body : Host.Outcome State Fault Refusal) :
    (spanUsable s sp ∧ withSpan sp s body = body) ∨
      (¬spanUsable s sp ∧ (withSpan sp s body = .refused .fieldTooWide ∨
        withSpan sp s body = .refused .spanWraps ∨ withSpan sp s body = .refused .spanNotBacked)) := by
  unfold withSpan
  split
  · next h => exact .inr ⟨fun hu => by simp [hu.1] at h, .inl rfl⟩
  · split
    · next h => exact .inr ⟨fun hu => by simp [hu.2.1] at h, .inr (.inl rfl)⟩
    · split
      · next h => exact .inr ⟨fun hu => by simp [hu.2.2] at h, .inr (.inr rfl)⟩
      · next h1 h2 h3 => exact .inl ⟨⟨by simpa using h1, by simpa using h2, by simpa using h3⟩, rfl⟩

/-- A body that answered ran on a usable span. -/
theorem withSpan_next {sp : Span} {s t : State} {body : Host.Outcome State Fault Refusal}
    (h : withSpan sp s body = .next t) : spanUsable s sp ∧ body = .next t := by
  rcases withSpan_cases sp s body with ⟨hu, he⟩ | ⟨_, he | he | he⟩ <;> rw [he] at h
  · exact ⟨hu, h⟩
  all_goals cases h

/-- Everything `ENC.W` can do when it is not refused (R75). -/
theorem encodeValue_next {w : Width} {val : Value} {sp : Span} {s t : State}
    (h : encodeValue w val sp s = .next t) :
    spanUsable s sp ∧
      ((2 ^ w.bits ≤ val.toNat ∧ t = s.answer (Response.blank .valueTooLarge)) ∨
        (val.toNat < 2 ^ w.bits ∧ sp.cap < canonLen val.toNat ∧
          t = s.answer (Response.blank .bufferTooSmall)) ∨
        (val.toNat < 2 ^ w.bits ∧ canonLen val.toNat ≤ sp.cap ∧
          t = State.answer { s with mem := Memory.writeBytes s.mem sp.base (canonBytes val.toNat) }
            { Response.okay with len := count (canonLen val.toNat) })) := by
  obtain ⟨hu, h⟩ := withSpan_next h
  refine ⟨hu, ?_⟩
  dsimp only [complete_eq, fail_eq] at h
  split at h
  · next hv => exact .inl ⟨hv, by cases h; rfl⟩
  · split at h
    · next hv hc => exact .inr (.inl ⟨Nat.lt_of_not_le hv, hc, by cases h; rfl⟩)
    · next hv hc => exact .inr (.inr ⟨Nat.lt_of_not_le hv, Nat.le_of_not_lt hc, by cases h; rfl⟩)

/-- Everything `DEC.W` can do when it is not refused (R80). -/
theorem decodeSpan_next {w : Width} {sp : Span} {s t : State} (h : decodeSpan w sp s = .next t) :
    spanUsable s sp ∧
      (((sp.cap = 0 ∨ sp.cap < (hdr (Memory.read s.mem sp.base)).len) ∧
          t = s.answer (Response.blank .truncatedInput)) ∨
        ((sp.cap ≠ 0 ∧ (hdr (Memory.read s.mem sp.base)).len ≤ sp.cap) ∧
          ((2 ^ w.bits ≤ gather (Memory.readBytes s.mem sp.base (hdr (Memory.read s.mem sp.base)).len) ∧
              t = s.answer (Response.blank .overflow)) ∨
            (gather (Memory.readBytes s.mem sp.base (hdr (Memory.read s.mem sp.base)).len) < 2 ^ w.bits ∧
              t = s.answer { Response.okay with
                val := BitVec.ofNat 128
                  (gather (Memory.readBytes s.mem sp.base (hdr (Memory.read s.mem sp.base)).len)),
                len := count (hdr (Memory.read s.mem sp.base)).len })))) := by
  obtain ⟨hu, h⟩ := withSpan_next h
  refine ⟨hu, ?_⟩
  simp only [fail_eq, complete_eq] at h
  split at h
  · next hc => exact .inl ⟨.inl hc, by cases h; rfl⟩
  · split at h
    · next hc => exact .inl ⟨.inr hc, by cases h; rfl⟩
    · next h0 hc =>
      refine .inr ⟨⟨h0, by omega⟩, ?_⟩
      split at h
      · next hv => exact .inl ⟨hv, by cases h; rfl⟩
      · next hv => exact .inr ⟨by omega, by cases h; rfl⟩

/-- What `ENC.W` does on a usable span, as one function of its operands (R75). -/
theorem encodeValue_usable {w : Width} {val : Value} {sp : Span} {s : State} (h : spanUsable s sp) :
    encodeValue w val sp s = if 2 ^ w.bits ≤ val.toNat then .next (s.answer (Response.blank .valueTooLarge))
      else if sp.cap < canonLen val.toNat then .next (s.answer (Response.blank .bufferTooSmall))
      else .next (State.answer { s with mem := Memory.writeBytes s.mem sp.base (canonBytes val.toNat) }
          { Response.okay with len := count (canonLen val.toNat) }) := by
  unfold encodeValue; rw [withSpan_usable h]; rfl

/-- What `DEC.W` does on a usable span, as one function of the span and its bytes (R80). -/
theorem decodeSpan_usable {w : Width} {sp : Span} {s : State} (h : spanUsable s sp) :
    decodeSpan w sp s = if sp.cap = 0 ∨ sp.cap < (hdr (Memory.read s.mem sp.base)).len then
        .next (s.answer (Response.blank .truncatedInput))
      else if 2 ^ w.bits ≤ gather (Memory.readBytes s.mem sp.base (hdr (Memory.read s.mem sp.base)).len) then
        .next (s.answer (Response.blank .overflow))
      else .next (s.answer { Response.okay with
        val := BitVec.ofNat 128 (gather (Memory.readBytes s.mem sp.base (hdr (Memory.read s.mem sp.base)).len)),
        len := count (hdr (Memory.read s.mem sp.base)).len }) := by
  unfold decodeSpan; rw [withSpan_usable h]; dsimp only
  by_cases h0 : sp.cap = 0
  · rw [if_pos h0, if_pos (.inl h0)]; rfl
  · rw [if_neg h0]
    by_cases h1 : sp.cap < (hdr (Memory.read s.mem sp.base)).len
    · rw [if_pos h1, if_pos (.inr h1)]; rfl
    · rw [if_neg h1]
      have hn : ¬(sp.cap = 0 ∨ sp.cap < (hdr (Memory.read s.mem sp.base)).len) := fun h => h.elim h0 h1
      rw [if_neg hn]; rfl

/-- Everything `SIZE.W` can do (R86). -/
theorem sizeOfValue_cases (w : Width) (val : Value) (s : State) :
    (2 ^ w.bits ≤ val.toNat ∧ sizeOfValue w val s = .next (s.answer (Response.blank .valueTooLarge))) ∨
      (val.toNat < 2 ^ w.bits ∧
        sizeOfValue w val s = .next (s.answer { Response.okay with len := count (canonLen val.toNat) })) := by
  dsimp only [sizeOfValue, fail_eq, complete_eq]
  split
  · next h => exact .inl ⟨h, rfl⟩
  · next h => exact .inr ⟨Nat.lt_of_not_le h, rfl⟩

/-- Everything `PVP` can do (R69). -/
theorem execPvp_cases (val : Value) (s : State) :
    (pvK val.toNat = none ∧ execPvp val s = .next (s.answer (Response.blank .valueTooLarge))) ∨
      ∃ k, pvK val.toNat = some k ∧
        execPvp val s = .next (s.answer { Response.okay with aux := count k, len := count (k + 1) }) := by
  simp only [execPvp, wholeValue, fail_eq, complete_eq]
  rcases h : pvK val.toNat with _ | k
  · exact .inl ⟨rfl, rfl⟩
  · exact .inr ⟨k, rfl, rfl⟩

/-- Everything a store by the host or another agent can do. -/
theorem hostStore_cases (cells : List Host.Cell) (s : State) :
    ((∀ c ∈ cells, addressBacked s.ram c.1 = true) ∧
        hostStore cells s = .next { s with mem := Memory.writeCells s.mem cells }) ∨
      ((¬∀ c ∈ cells, addressBacked s.ram c.1 = true) ∧ hostStore cells s = .refused .storeOutsideMemory) := by
  unfold hostStore
  split
  · next h =>
    refine .inr ⟨fun hall => ?_, rfl⟩
    rw [List.all_eq_true.2 hall] at h
    cases h
  · next h =>
    refine .inl ⟨?_, rfl⟩
    have : cells.all (fun c => addressBacked s.ram c.1) = true := by simpa using h
    exact List.all_eq_true.1 this

/-- Everything a load of the host can do. -/
theorem hostLoad_cases (addr : Nat) (s : State) :
    (addressBacked s.ram addr = true ∧ hostLoad addr s = .next (Memory.read s.mem addr)) ∨
      (addressBacked s.ram addr = false ∧ hostLoad addr s = .refused .loadOutsideMemory) := by
  unfold hostLoad
  rcases h : addressBacked s.ram addr
  · exact .inr ⟨rfl, rfl⟩
  · exact .inl ⟨rfl, rfl⟩

/-- A byte of a usable span is a byte of ordinary memory. -/
theorem addressBacked_of_spanBacked {ram : List Region} {sp : Span} (h : spanBacked ram sp = true) {a : Nat}
    (ha : sp.contains a = true) : addressBacked ram a = true := by
  simp only [Span.contains, Bool.and_eq_true, decide_eq_true_eq] at ha
  simp only [spanBacked, Bool.or_eq_true, decide_eq_true_eq, List.any_eq_true, Bool.and_eq_true] at h
  rcases h with h | ⟨g, hg, h1, h2⟩
  · omega
  · simp only [addressBacked, List.any_eq_true, Bool.and_eq_true, decide_eq_true_eq]
    exact ⟨g, hg, by omega, by omega⟩

/-- Two runs of a map are the same run, or there is a gap between them. -/
theorem runs_apart {ram : List Region} (h : ram.Pairwise fun g h => g.base + g.size < h.base) {g g' : Region}
    (hg : g ∈ ram) (hg' : g' ∈ ram) : g = g' ∨ g.base + g.size < g'.base ∨ g'.base + g'.size < g.base := by
  induction ram with
  | nil => cases hg
  | cons c ram ih =>
    obtain ⟨hc, hrest⟩ := List.pairwise_cons.1 h
    rcases List.mem_cons.1 hg with e | m <;> rcases List.mem_cons.1 hg' with e' | m'
    · exact .inl (e.trans e'.symm)
    · exact .inr (.inl (e ▸ hc _ m'))
    · exact .inr (.inr (e' ▸ hc _ m))
    · exact ih hrest m m'

/-- With a map as it should be, "one run holds the span" says the same as "every byte of the span is backed" (R36). -/
theorem spanBacked_iff {aw : Nat} {ram : List Region} (hwf : mapWf aw ram) (sp : Span) :
    spanBacked ram sp = true ↔ ∀ a, sp.contains a = true → addressBacked ram a = true := by
  refine ⟨fun h a ha => addressBacked_of_spanBacked h ha, fun h => ?_⟩
  simp only [spanBacked, Bool.or_eq_true, decide_eq_true_eq, List.any_eq_true, Bool.and_eq_true]
  by_cases h0 : sp.cap = 0
  · exact .inl h0
  right
  have hbase := h sp.base (by simp [Span.contains]; omega)
  simp only [addressBacked, List.any_eq_true, Bool.and_eq_true, decide_eq_true_eq] at hbase
  obtain ⟨g, hg, h1, h2⟩ := hbase
  refine ⟨g, hg, h1, ?_⟩
  by_contra hlong
  -- the first address after the run `g` lies in the span and in no run
  have hnext := h (g.base + g.size) (by simp [Span.contains]; omega)
  simp only [addressBacked, List.any_eq_true, Bool.and_eq_true, decide_eq_true_eq] at hnext
  obtain ⟨g', hg', h3, h4⟩ := hnext
  rcases runs_apart hwf.1 hg hg' with rfl | h5 | h5 <;> omega

end Sys2Proof.Machine
end

