-- ==== Sys2Proof/Laws/Exec.lean ====
section
/-! SUPPORT. What `exec` and `step` do, said once: the meaning of a command at every width, the shape every answer has,
and what one step of the system can be. -/

namespace Sys2Proof.Machine

@[simp] theorem exec_encInstr (w : Width) (val : Value) (base cap : Nat) (s : State) :
    exec (encInstr w val base cap) s = encodeValue w val ⟨base, cap⟩ s := by cases w <;> rfl

@[simp] theorem exec_decInstr (w : Width) (base cap : Nat) (s : State) :
    exec (decInstr w base cap) s = decodeSpan w ⟨base, cap⟩ s := by cases w <;> rfl

@[simp] theorem exec_sizeInstr (w : Width) (val : Value) (s : State) :
    exec (sizeInstr w val) s = sizeOfValue w val s := by cases w <;> rfl

@[simp] theorem exec_zzeInstr (w : Width) (val : Value) (s : State) :
    exec (zzeInstr w val) s = zigzagEncode w val s := by cases w <;> rfl

@[simp] theorem exec_zzdInstr (w : Width) (val : Value) (s : State) :
    exec (zzdInstr w val) s = zigzagDecode w val s := by cases w <;> rfl

@[simp] theorem exec_ftuInstr (w : Width) (val : Value) (s : State) :
    exec (ftuInstr w val) s = floatToUnsigned w val s := by cases w <;> rfl

@[simp] theorem exec_utfInstr (w : Width) (val : Value) (s : State) :
    exec (utfInstr w val) s = unsignedToFloat w val s := by cases w <;> rfl

/-- Everything a command can do when it is not refused: answer, and, if it is an `ENC.W` that passed its checks, store
its encoding. -/
theorem exec_answers {i : Instr} {s t : State} (h : exec i s = .next t) :
    ∃ m r, t = State.answer { s with mem := m } r ∧
      ((m = s.mem) ∨ ∃ w val base cap, i = encInstr w val base cap ∧ val.toNat < 2 ^ w.bits ∧
        canonLen val.toNat ≤ cap ∧ m = Memory.writeBytes s.mem base (canonBytes val.toNat)) := by
  have enc : ∀ w val base cap, i = encInstr w val base cap → encodeValue w val ⟨base, cap⟩ s = .next t →
      ∃ m r, t = State.answer { s with mem := m } r ∧
        ((m = s.mem) ∨ ∃ w val base cap, i = encInstr w val base cap ∧ val.toNat < 2 ^ w.bits ∧
          canonLen val.toNat ≤ cap ∧ m = Memory.writeBytes s.mem base (canonBytes val.toNat)) := by
    intro w val base cap hi he
    obtain ⟨_, ⟨_, rfl⟩ | ⟨_, _, rfl⟩ | ⟨hv, hc, rfl⟩⟩ := encodeValue_next he
    · exact ⟨s.mem, _, rfl, .inl rfl⟩
    · exact ⟨s.mem, _, rfl, .inl rfl⟩
    · exact ⟨_, _, rfl, .inr ⟨w, val, base, cap, hi, hv, hc, rfl⟩⟩
  have dec : ∀ w sp, decodeSpan w sp s = .next t → ∃ r, t = s.answer r := by
    intro w sp he
    obtain ⟨_, ⟨_, rfl⟩ | ⟨_, ⟨_, rfl⟩ | ⟨_, rfl⟩⟩⟩ := decodeSpan_next he <;> exact ⟨_, rfl⟩
  have size : ∀ w val, sizeOfValue w val s = .next t → ∃ r, t = s.answer r := by
    intro w val he
    rcases sizeOfValue_cases w val s with ⟨_, h2⟩ | ⟨_, h2⟩ <;> rw [h2] at he <;> cases he <;> exact ⟨_, rfl⟩
  have plain : ∀ r, t = s.answer r → ∃ m r, t = State.answer { s with mem := m } r ∧
        ((m = s.mem) ∨ ∃ w val base cap, i = encInstr w val base cap ∧ val.toNat < 2 ^ w.bits ∧
          canonLen val.toNat ≤ cap ∧ m = Memory.writeBytes s.mem base (canonBytes val.toNat)) :=
    fun r hr => ⟨s.mem, r, hr, .inl rfl⟩
  cases i with
  | enc8 val base cap => exact enc .w8 val base cap rfl h
  | enc16 val base cap => exact enc .w16 val base cap rfl h
  | enc32 val base cap => exact enc .w32 val base cap rfl h
  | enc64 val base cap => exact enc .w64 val base cap rfl h
  | enc128 val base cap => exact enc .w128 val base cap rfl h
  | dec8 base cap => exact (dec .w8 _ h).elim plain
  | dec16 base cap => exact (dec .w16 _ h).elim plain
  | dec32 base cap => exact (dec .w32 _ h).elim plain
  | dec64 base cap => exact (dec .w64 _ h).elim plain
  | dec128 base cap => exact (dec .w128 _ h).elim plain
  | size8 val => exact (size .w8 val h).elim plain
  | size16 val => exact (size .w16 val h).elim plain
  | size32 val => exact (size .w32 val h).elim plain
  | size64 val => exact (size .w64 val h).elim plain
  | size128 val => exact (size .w128 val h).elim plain
  | cls _ => cases h; exact plain _ rfl
  | pvp val =>
    have h : execPvp val s = .next t := h
    rcases execPvp_cases val s with ⟨_, h2⟩ | ⟨k, _, h2⟩ <;> rw [h2] at h <;> cases h <;> exact plain _ rfl
  | lpp _ => cases h; exact plain _ rfl
  | hdr _ => cases h; exact plain _ rfl
  | gath _ => cases h; exact plain _ rfl
  | scat _ => cases h; exact plain _ rfl
  | zze8 _ => cases h; exact plain _ rfl
  | zze16 _ => cases h; exact plain _ rfl
  | zze32 _ => cases h; exact plain _ rfl
  | zze64 _ => cases h; exact plain _ rfl
  | zze128 _ => cases h; exact plain _ rfl
  | zzd8 _ => cases h; exact plain _ rfl
  | zzd16 _ => cases h; exact plain _ rfl
  | zzd32 _ => cases h; exact plain _ rfl
  | zzd64 _ => cases h; exact plain _ rfl
  | zzd128 _ => cases h; exact plain _ rfl
  | ftu8 _ => cases h; exact plain _ rfl
  | ftu16 _ => cases h; exact plain _ rfl
  | ftu32 _ => cases h; exact plain _ rfl
  | ftu64 _ => cases h; exact plain _ rfl
  | ftu128 _ => cases h; exact plain _ rfl
  | utf8 _ => cases h; exact plain _ rfl
  | utf16 _ => cases h; exact plain _ rfl
  | utf32 _ => cases h; exact plain _ rfl
  | utf64 _ => cases h; exact plain _ rfl
  | utf128 _ => cases h; exact plain _ rfl

/-- A command touches nothing but memory and the response. -/
theorem exec_frame {i : Instr} {s t : State} (h : exec i s = .next t) :
    t.aw = s.aw ∧ t.path = s.path ∧ t.ram = s.ram ∧ t.host = s.host ∧ ∃ r, t.rsp = some r := by
  obtain ⟨m, r, rfl, _⟩ := exec_answers h
  exact ⟨rfl, rfl, rfl, rfl, r, rfl⟩

/-- `SIZE.W` answers by its operand alone (R15, R86). -/
theorem sizeOfValue_answer (w : Width) (val : Value) : ∃ r, ∀ s, sizeOfValue w val s = .next (s.answer r) := by
  by_cases h : 2 ^ w.bits ≤ val.toNat
  · refine ⟨Response.blank .valueTooLarge, fun s => ?_⟩
    rcases sizeOfValue_cases w val s with ⟨_, e⟩ | ⟨h', _⟩
    · exact e
    · omega
  · refine ⟨{ Response.okay with len := count (canonLen val.toNat) }, fun s => ?_⟩
    rcases sizeOfValue_cases w val s with ⟨h', _⟩ | ⟨_, e⟩
    · exact absurd h' h
    · exact e

/-- `PVP` answers by its operand alone (R15, R69). -/
theorem execPvp_answer (val : Value) : ∃ r, ∀ s, execPvp val s = .next (s.answer r) := by
  rcases h : pvK val.toNat with _ | k
  · refine ⟨Response.blank .valueTooLarge, fun s => ?_⟩
    rcases execPvp_cases val s with ⟨_, e⟩ | ⟨k, h', _⟩
    · exact e
    · simp [h] at h'
  · refine ⟨{ Response.okay with aux := count k, len := count (k + 1) }, fun s => ?_⟩
    rcases execPvp_cases val s with ⟨h', _⟩ | ⟨k', h', e⟩
    · simp [h] at h'
    · rw [h] at h'; cases h'; exact e

/-- The three kinds of command: `ENC.W`, `DEC.W`, and the others, which have no span, store nothing and answer by their
operands alone (R15, R20, R24). -/
theorem exec_kinds (i : Instr) :
    (∃ w val base cap, i = encInstr w val base cap) ∨ (∃ w base cap, i = decInstr w base cap) ∨
      (i.span = none ∧ (∀ a, storesTo i a = false) ∧ ∃ r, ∀ s, exec i s = .next (s.answer r)) := by
  cases i
  case enc8 v b c => exact .inl ⟨.w8, v, b, c, rfl⟩
  case enc16 v b c => exact .inl ⟨.w16, v, b, c, rfl⟩
  case enc32 v b c => exact .inl ⟨.w32, v, b, c, rfl⟩
  case enc64 v b c => exact .inl ⟨.w64, v, b, c, rfl⟩
  case enc128 v b c => exact .inl ⟨.w128, v, b, c, rfl⟩
  case dec8 b c => exact .inr (.inl ⟨.w8, b, c, rfl⟩)
  case dec16 b c => exact .inr (.inl ⟨.w16, b, c, rfl⟩)
  case dec32 b c => exact .inr (.inl ⟨.w32, b, c, rfl⟩)
  case dec64 b c => exact .inr (.inl ⟨.w64, b, c, rfl⟩)
  case dec128 b c => exact .inr (.inl ⟨.w128, b, c, rfl⟩)
  case size8 v => exact .inr (.inr ⟨rfl, fun _ => rfl, sizeOfValue_answer .w8 v⟩)
  case size16 v => exact .inr (.inr ⟨rfl, fun _ => rfl, sizeOfValue_answer .w16 v⟩)
  case size32 v => exact .inr (.inr ⟨rfl, fun _ => rfl, sizeOfValue_answer .w32 v⟩)
  case size64 v => exact .inr (.inr ⟨rfl, fun _ => rfl, sizeOfValue_answer .w64 v⟩)
  case size128 v => exact .inr (.inr ⟨rfl, fun _ => rfl, sizeOfValue_answer .w128 v⟩)
  case pvp v => exact .inr (.inr ⟨rfl, fun _ => rfl, execPvp_answer v⟩)
  all_goals exact .inr (.inr ⟨rfl, fun _ => rfl, _, fun _ => rfl⟩)

@[simp] theorem storesTo_enc (w : Width) (v : Value) (b c a : Nat) :
    storesTo (encInstr w v b c) a = encStores w v b c a := by cases w <;> rfl
@[simp] theorem storesTo_dec (w : Width) (b c a : Nat) : storesTo (decInstr w b c) a = false := by
  cases w <;> rfl
@[simp] theorem span_enc (w : Width) (v : Value) (b c : Nat) : (encInstr w v b c).span = some ⟨b, c⟩ := by
  cases w <;> rfl
@[simp] theorem span_dec (w : Width) (b c : Nat) : (decInstr w b c).span = some ⟨b, c⟩ := by cases w <;> rfl

/-- A command does the same in two systems with one map that agree on its span: it gives the same response and stores
the same bytes, which are those `storesTo` names (R15, R26). -/
theorem exec_transfer {i : Instr} {s s' t : State} (haw : s'.aw = s.aw) (hram : s'.ram = s.ram)
    (hag : ∀ sp a, i.span = some sp → sp.contains a = true → Memory.read s'.mem a = Memory.read s.mem a)
    (h : exec i s = .next t) :
    ∃ (bs : List Byte) (b : Nat) (r : Response), t = State.answer { s with mem := Memory.writeBytes s.mem b bs } r ∧
      exec i s' = .next (State.answer { s' with mem := Memory.writeBytes s'.mem b bs } r) ∧
      (∀ a, storesTo i a = true ↔ b ≤ a ∧ a < b + bs.length) := by
  rcases exec_kinds i with ⟨w, v, b, c, rfl⟩ | ⟨w, b, c, rfl⟩ | ⟨hsp, hst, r, hr⟩
  · rw [exec_encInstr] at h
    have hu := (encodeValue_next h).1
    have hu' : spanUsable s' ⟨b, c⟩ := by
      obtain ⟨x, y, z⟩ := hu
      exact ⟨by rw [haw]; exact x, by rw [haw]; exact y, by rw [hram]; exact z⟩
    rw [exec_encInstr, encodeValue_usable hu']
    rw [encodeValue_usable hu] at h
    have hst : ∀ a, storesTo (encInstr w v b c) a = true ↔
        v.toNat < 2 ^ w.bits ∧ canonLen v.toNat ≤ c ∧ b ≤ a ∧ a < b + canonLen v.toNat := by
      intro a
      rw [storesTo_enc]
      simp only [encStores, Bool.and_eq_true, decide_eq_true_eq]
      exact and_assoc
    simp only [hst]
    dsimp only at h ⊢
    split_ifs at h ⊢ with h1 h2
    · cases h; exact ⟨[], 0, _, rfl, rfl, by intro a; simp; omega⟩
    · cases h; exact ⟨[], 0, _, rfl, rfl, by intro a; simp; omega⟩
    · cases h; exact ⟨_, _, _, rfl, rfl, by intro a; simp; omega⟩
  · rw [exec_decInstr] at h
    have hu := (decodeSpan_next h).1
    have hu' : spanUsable s' ⟨b, c⟩ := by
      obtain ⟨x, y, z⟩ := hu
      exact ⟨by rw [haw]; exact x, by rw [haw]; exact y, by rw [hram]; exact z⟩
    rw [exec_decInstr, decodeSpan_usable hu']
    rw [decodeSpan_usable hu] at h
    simp only [storesTo_dec]
    dsimp only at h ⊢
    by_cases h0 : c = 0
    · rw [if_pos (.inl h0)] at h ⊢; cases h; exact ⟨[], 0, _, rfl, rfl, by intro a; simp⟩
    · have e0 : Memory.read s'.mem b = Memory.read s.mem b :=
        hag ⟨b, c⟩ b (span_dec w b c) (by simp [Span.contains]; omega)
      rw [e0]
      by_cases h1 : c < (hdr (Memory.read s.mem b)).len
      · rw [if_pos (.inr h1)] at h ⊢; cases h; exact ⟨[], 0, _, rfl, rfl, by intro a; simp⟩
      · have e1 : Memory.readBytes s'.mem b (hdr (Memory.read s.mem b)).len =
            Memory.readBytes s.mem b (hdr (Memory.read s.mem b)).len := by
          unfold Memory.readBytes
          apply List.map_congr_left
          intro j hj
          have := List.mem_range.1 hj
          exact hag ⟨b, c⟩ _ (span_dec w b c) (by simp [Span.contains]; omega)
        rw [e1]
        split_ifs at h ⊢
        · cases h; exact ⟨[], 0, _, rfl, rfl, by intro a; simp⟩
        · cases h; exact ⟨[], 0, _, rfl, rfl, by intro a; simp⟩
        · cases h; exact ⟨[], 0, _, rfl, rfl, by intro a; simp⟩
  · rw [hr] at h; cases h
    exact ⟨[], 0, r, rfl, hr s', by intro a; simp [hst]⟩

/-- What a command stores lies in its span (R26). -/
theorem stores_in_span {i : Instr} {a : Nat} (h : storesTo i a = true) :
    ∃ sp, i.span = some sp ∧ sp.contains a = true := by
  rcases exec_kinds i with ⟨w, v, b, c, rfl⟩ | ⟨w, b, c, rfl⟩ | ⟨hsp, hst, r, hr⟩
  · rw [storesTo_enc] at h
    simp only [encStores, Bool.and_eq_true, decide_eq_true_eq] at h
    exact ⟨_, span_enc w v b c, by simp [Span.contains]; omega⟩
  · rw [storesTo_dec] at h; cases h
  · rw [hst] at h; cases h

/-- A command whose span, if it has one, is usable completes (R141). -/
theorem exec_next_of_usable (i : Instr) (s : State) (h : ∀ sp, i.span = some sp → spanUsable s sp) :
    ∃ t, exec i s = .next t := by
  rcases exec_kinds i with ⟨w, v, b, c, rfl⟩ | ⟨w, b, c, rfl⟩ | ⟨_, _, r, hr⟩
  · have hu : spanUsable s ⟨b, c⟩ := h _ (by cases w <;> rfl)
    rw [exec_encInstr, encodeValue_usable hu]
    split_ifs <;> exact ⟨_, rfl⟩
  · have hu : spanUsable s ⟨b, c⟩ := h _ (by cases w <;> rfl)
    rw [exec_decInstr, decodeSpan_usable hu]
    split_ifs <;> exact ⟨_, rfl⟩
  · exact ⟨_, hr s⟩

/-- A transaction is the command its request decodes to, or the illegal-command answer. -/
theorem transact_cases (r : Request) (s : State) :
    (∃ i, decode r = .command i ∧ transact r s = exec i s) ∨
      (∃ why, decode r = .illegal why ∧ transact r s = .next (s.answer (Response.blank .illegalCommand))) := by
  unfold transact
  rcases h : decode r with i | why
  · exact .inl ⟨i, rfl, rfl⟩
  · exact .inr ⟨why, rfl, rfl⟩

/-- A request that keeps the duties is answered. -/
theorem transact_next (r : Request) (s : State) (h : requestDuty s r) : ∃ t, transact r s = .next t := by
  rcases transact_cases r s with ⟨i, hd, he⟩ | ⟨_, _, he⟩
  · rw [he]; apply exec_next_of_usable; intro sp hsp; apply h; simp [requestSpan, hd, hsp]
  · exact ⟨_, he⟩

/-- A transaction changes memory and the response alone. -/
theorem transact_frame {r : Request} {s t : State} (h : transact r s = .next t) :
    t.aw = s.aw ∧ t.ram = s.ram ∧ t.host = s.host ∧ t.path = s.path := by
  rcases transact_cases r s with ⟨i, hd, he⟩ | ⟨_, _, he⟩ <;> rw [he] at h
  · have := exec_frame h; exact ⟨this.1, this.2.2.1, this.2.2.2.1, this.2.1⟩
  · cases h; exact ⟨rfl, rfl, rfl, rfl⟩

/-- A transaction does not look at what the host does afterwards (R15). -/
theorem transact_host {r : Request} {s t : State} (h : transact r s = .next t) (later : List HostEvent) :
    transact r { s with host := later } = .next { t with host := later } := by
  rcases hd : decode r with i | why
  · have e : ∀ s, transact r s = exec i s := fun s => by simp [transact, hd]
    rw [e] at h ⊢
    obtain ⟨bs, b, q, rfl, h', _⟩ :=
      exec_transfer (i := i) (s := s) (s' := { s with host := later }) rfl rfl (fun _ _ _ _ => rfl) h
    exact h'
  · have e : ∀ s, transact r s = .next (s.answer (Response.blank .illegalCommand)) :=
      fun s => by simp [transact, hd]
    rw [e] at h ⊢; cases h; rfl

/-- Every transaction that is not refused gives a response (R15). -/
theorem transact_answers {r : Request} {s t : State} (h : transact r s = .next t) : ∃ q, t.rsp = some q := by
  rcases transact_cases r s with ⟨i, _, e⟩ | ⟨_, _, e⟩ <;> rw [e] at h
  · exact (exec_frame h).2.2.2.2
  · cases h; exact ⟨_, rfl⟩

/-- One step: idle when the host does nothing, else the host's next event. -/
theorem step_nil {s : State} (h : s.host = []) : step s = .next s.noResponse := by simp [step, h]

theorem step_cons {s : State} {e : HostEvent} {rest : List HostEvent} (h : s.host = e :: rest) :
    step s = hostEvent e { s with host := rest } := by simp [step, h]

/-- One step of a run, then the others. -/
theorem run_succ {s t : State} (k : Nat) (h : step s = .next t) : core.run (k + 1) s = core.run k t := by
  have h' : core.step s = .next t := h
  simp only [Host.Core.run, h']

theorem runResponses_succ {s t u : State} {ps : List Response} {k : Nat} (h : step s = .next t)
    (h' : runResponses k t = .next (u, ps)) : runResponses (k + 1) s = .next (u, t.rsp.toList ++ ps) := by
  simp only [runResponses, h, h']

/-! ### Cross-validation (R100) -/

/-- `GATH` is the response that `crossValidatesGath` compares with (R91). -/
theorem execGath_eq (vec : Lanes) (s : State) : execGath vec s = .next (s.answer (gathResponse gather hdr vec)) := rfl

/-- `SCAT` is the response that `crossValidatesScat` compares with (R94). -/
theorem execScat_eq (val : Value) (s : State) :
    execScat val s = .next (s.answer (scatResponse (canonBytes val.toNat) (canonLen val.toNat) hdr)) := rfl

theorem lanesOf_length (vec : Lanes) : (lanesOf vec).length = 17 := by simp [lanesOf, Config.numLanes]

/-- Padding with zero lanes does not change the vector a byte list is laid into (R94). -/
theorem vecOf_append_zeros (bs : List Byte) (n : Nat) : vecOf (bs ++ List.replicate n 0#8) = vecOf bs := by
  have zeros : ∀ n, le (List.replicate n 0#8) = 0 := by
    intro n
    induction n with
    | zero => rfl
    | succ n ih => simp [List.replicate_succ, le, ih]
  have append : le (bs ++ List.replicate n 0#8) = le bs := by
    induction bs with
    | nil => exact zeros n
    | cons b bs ih => simp [le, ih]
  simp only [vecOf, append]

/-- Every vector cross-validates once the two gathers and the branchless classification equal the definitions. -/
theorem crossValidatesGath_of (hl : ∀ x : List Byte, x.length = 17 → gatherLanes x = gather x)
    (ht : ∀ x : List Byte, x.length = 17 → gatherShuffle x = gather x) (hb : ∀ b, hdrBranchless b = hdr b)
    (vec : Lanes) : crossValidatesGath vec = true := by
  simp [crossValidatesGath, gathResponse, hl _ (lanesOf_length vec), ht _ (lanesOf_length vec), hb]

/-- Every value cross-validates once the lane-level scatter and the branchless classification equal the definitions. -/
theorem crossValidatesScat_of
    (hs : ∀ v, v < 2 ^ 128 → scatterLanes v = canonBytes v ++ List.replicate (17 - canonLen v) 0 ∧
      scatterLen v = canonLen v)
    (hb : ∀ b, hdrBranchless b = hdr b) (val : Value) : crossValidatesScat val = true := by
  obtain ⟨h1, h2⟩ := hs val.toNat val.isLt
  have h0 : byteAt (canonBytes val.toNat ++ List.replicate (17 - canonLen val.toNat) 0#8) 0 =
      byteAt (canonBytes val.toNat) 0 :=
    byteAt_append_left _ (by rw [canonBytes_length]; exact (canonLen_bounds val.isLt).1)
  simp [crossValidatesScat, scatResponse, wholeValue, h1, h2, h0, hb, vecOf_append_zeros]

/-! ### Programs of the host (R50) -/

@[simp] theorem eventsOf_issued (r : Request) (q : Response) (acts : List HostAct) :
    eventsOf (.issued r q :: acts) = .command r :: eventsOf acts := rfl

@[simp] theorem eventsOf_stored (cells : List Host.Cell) (acts : List HostAct) :
    eventsOf (.stored cells :: acts) = .store cells :: eventsOf acts := rfl

@[simp] theorem eventsOf_loaded (addr : Nat) (b : Byte) (acts : List HostAct) :
    eventsOf (.loaded addr b :: acts) = eventsOf acts := rfl

@[simp] theorem responsesOf_issued (r : Request) (q : Response) (acts : List HostAct) :
    responsesOf (.issued r q :: acts) = q :: responsesOf acts := rfl

@[simp] theorem responsesOf_stored (cells : List Host.Cell) (acts : List HostAct) :
    responsesOf (.stored cells :: acts) = responsesOf acts := rfl

@[simp] theorem responsesOf_loaded (addr : Nat) (b : Byte) (acts : List HostAct) :
    responsesOf (.loaded addr b :: acts) = responsesOf acts := rfl

/-- `noting` changes the list of acts alone. -/
theorem noting_next {α : Type} {a : HostAct} {rest : Host.Outcome (HostRun α) Fault Refusal} {u : HostRun α}
    (h : noting a rest = .next u) : ∃ v, rest = .next v ∧ u = { v with acts := a :: v.acts } := by
  cases rest with
  | next v => cases h; exact ⟨v, rfl, rfl⟩
  | fault e => cases h
  | refused e => cases h

/-- What a program that issues a command does next, when it ends. -/
theorem run_issue {α : Type} {r : Request} {next : Response → HostProgram α} {s : State} {u : HostRun α}
    (h : (HostProgram.issue r next).run s = .next u) :
    ∃ t q v, transact r s = .next t ∧ t.rsp = some q ∧ (next q).run t = .next v ∧
      u = { v with acts := .issued r q :: v.acts } := by
  simp only [HostProgram.run] at h
  split at h
  · next t ht =>
    obtain ⟨q, hq⟩ := transact_answers ht
    rw [hq] at h
    obtain ⟨v, hv, e⟩ := noting_next h
    exact ⟨t, q, v, ht, hq, hv, e⟩
  · cases h
  · cases h

/-- What a program that stores does next, when it ends. -/
theorem run_store {α : Type} {cells : List Host.Cell} {next : HostProgram α} {s : State} {u : HostRun α}
    (h : (HostProgram.store cells next).run s = .next u) :
    ∃ v, (∀ c ∈ cells, addressBacked s.ram c.1 = true) ∧
      next.run { s.noResponse with mem := Memory.writeCells s.mem cells } = .next v ∧
      u = { v with acts := .stored cells :: v.acts } := by
  simp only [HostProgram.run] at h
  rcases hostStore_cases cells s.noResponse with ⟨hb, e⟩ | ⟨_, e⟩ <;> rw [e] at h
  · obtain ⟨v, hv, e⟩ := noting_next h
    exact ⟨v, hb, hv, e⟩
  · cases h

/-- What a program that loads does next, when it ends. -/
theorem run_load {α : Type} {addr : Nat} {next : Byte → HostProgram α} {s : State} {u : HostRun α}
    (h : (HostProgram.load addr next).run s = .next u) :
    ∃ v, addressBacked s.ram addr = true ∧ (next (Memory.read s.mem addr)).run s = .next v ∧
      u = { v with acts := .loaded addr (Memory.read s.mem addr) :: v.acts } := by
  simp only [HostProgram.run] at h
  rcases hostLoad_cases addr s with ⟨hb, e⟩ | ⟨_, e⟩ <;> rw [e] at h
  · obtain ⟨v, hv, e⟩ := noting_next h
    exact ⟨v, hb, hv, e⟩
  · cases h

end Sys2Proof.Machine
end

