-- ==== Sys2Proof/Laws/PerInstr.lean ====
section
/-! SUPPORT. Facts about the commands as syntax, one lemma per constructor of `Instr` (LAWS.json names the families). -/

namespace Sys2Proof.Laws.LegalWord

/-- The command word of the command is one of the 41 legal words (R45), with `Z` = 0 (R40). -/
def Statement (i : Instr) : Prop := commandWord i ∈ legalWords ∧ zField (commandWord i) = 0#1

theorem enc8 (val : Value) (base cap : Nat) : Statement (.enc8 val base cap) :=
  ⟨(by decide : 0x01#8 ∈ legalWords), (by decide : zField 0x01#8 = 0#1)⟩

theorem enc16 (val : Value) (base cap : Nat) : Statement (.enc16 val base cap) :=
  ⟨(by decide : 0x11#8 ∈ legalWords), (by decide : zField 0x11#8 = 0#1)⟩

theorem enc32 (val : Value) (base cap : Nat) : Statement (.enc32 val base cap) :=
  ⟨(by decide : 0x21#8 ∈ legalWords), (by decide : zField 0x21#8 = 0#1)⟩

theorem enc64 (val : Value) (base cap : Nat) : Statement (.enc64 val base cap) :=
  ⟨(by decide : 0x31#8 ∈ legalWords), (by decide : zField 0x31#8 = 0#1)⟩

theorem enc128 (val : Value) (base cap : Nat) : Statement (.enc128 val base cap) :=
  ⟨(by decide : 0x41#8 ∈ legalWords), (by decide : zField 0x41#8 = 0#1)⟩

theorem dec8 (base cap : Nat) : Statement (.dec8 base cap) :=
  ⟨(by decide : 0x02#8 ∈ legalWords), (by decide : zField 0x02#8 = 0#1)⟩

theorem dec16 (base cap : Nat) : Statement (.dec16 base cap) :=
  ⟨(by decide : 0x12#8 ∈ legalWords), (by decide : zField 0x12#8 = 0#1)⟩

theorem dec32 (base cap : Nat) : Statement (.dec32 base cap) :=
  ⟨(by decide : 0x22#8 ∈ legalWords), (by decide : zField 0x22#8 = 0#1)⟩

theorem dec64 (base cap : Nat) : Statement (.dec64 base cap) :=
  ⟨(by decide : 0x32#8 ∈ legalWords), (by decide : zField 0x32#8 = 0#1)⟩

theorem dec128 (base cap : Nat) : Statement (.dec128 base cap) :=
  ⟨(by decide : 0x42#8 ∈ legalWords), (by decide : zField 0x42#8 = 0#1)⟩

theorem size8 (val : Value) : Statement (.size8 val) :=
  ⟨(by decide : 0x03#8 ∈ legalWords), (by decide : zField 0x03#8 = 0#1)⟩

theorem size16 (val : Value) : Statement (.size16 val) :=
  ⟨(by decide : 0x13#8 ∈ legalWords), (by decide : zField 0x13#8 = 0#1)⟩

theorem size32 (val : Value) : Statement (.size32 val) :=
  ⟨(by decide : 0x23#8 ∈ legalWords), (by decide : zField 0x23#8 = 0#1)⟩

theorem size64 (val : Value) : Statement (.size64 val) :=
  ⟨(by decide : 0x33#8 ∈ legalWords), (by decide : zField 0x33#8 = 0#1)⟩

theorem size128 (val : Value) : Statement (.size128 val) :=
  ⟨(by decide : 0x43#8 ∈ legalWords), (by decide : zField 0x43#8 = 0#1)⟩

theorem cls (val : Value) : Statement (.cls val) :=
  ⟨(by decide : 0x04#8 ∈ legalWords), (by decide : zField 0x04#8 = 0#1)⟩

theorem pvp (val : Value) : Statement (.pvp val) :=
  ⟨(by decide : 0x05#8 ∈ legalWords), (by decide : zField 0x05#8 = 0#1)⟩

theorem lpp (val : Value) : Statement (.lpp val) :=
  ⟨(by decide : 0x06#8 ∈ legalWords), (by decide : zField 0x06#8 = 0#1)⟩

theorem hdr (val : Value) : Statement (.hdr val) :=
  ⟨(by decide : 0x07#8 ∈ legalWords), (by decide : zField 0x07#8 = 0#1)⟩

theorem gath (vec : Lanes) : Statement (.gath vec) :=
  ⟨(by decide : 0x08#8 ∈ legalWords), (by decide : zField 0x08#8 = 0#1)⟩

theorem scat (val : Value) : Statement (.scat val) :=
  ⟨(by decide : 0x09#8 ∈ legalWords), (by decide : zField 0x09#8 = 0#1)⟩

theorem zze8 (val : Value) : Statement (.zze8 val) :=
  ⟨(by decide : 0x0A#8 ∈ legalWords), (by decide : zField 0x0A#8 = 0#1)⟩

theorem zze16 (val : Value) : Statement (.zze16 val) :=
  ⟨(by decide : 0x1A#8 ∈ legalWords), (by decide : zField 0x1A#8 = 0#1)⟩

theorem zze32 (val : Value) : Statement (.zze32 val) :=
  ⟨(by decide : 0x2A#8 ∈ legalWords), (by decide : zField 0x2A#8 = 0#1)⟩

theorem zze64 (val : Value) : Statement (.zze64 val) :=
  ⟨(by decide : 0x3A#8 ∈ legalWords), (by decide : zField 0x3A#8 = 0#1)⟩

theorem zze128 (val : Value) : Statement (.zze128 val) :=
  ⟨(by decide : 0x4A#8 ∈ legalWords), (by decide : zField 0x4A#8 = 0#1)⟩

theorem zzd8 (val : Value) : Statement (.zzd8 val) :=
  ⟨(by decide : 0x0B#8 ∈ legalWords), (by decide : zField 0x0B#8 = 0#1)⟩

theorem zzd16 (val : Value) : Statement (.zzd16 val) :=
  ⟨(by decide : 0x1B#8 ∈ legalWords), (by decide : zField 0x1B#8 = 0#1)⟩

theorem zzd32 (val : Value) : Statement (.zzd32 val) :=
  ⟨(by decide : 0x2B#8 ∈ legalWords), (by decide : zField 0x2B#8 = 0#1)⟩

theorem zzd64 (val : Value) : Statement (.zzd64 val) :=
  ⟨(by decide : 0x3B#8 ∈ legalWords), (by decide : zField 0x3B#8 = 0#1)⟩

theorem zzd128 (val : Value) : Statement (.zzd128 val) :=
  ⟨(by decide : 0x4B#8 ∈ legalWords), (by decide : zField 0x4B#8 = 0#1)⟩

theorem ftu8 (val : Value) : Statement (.ftu8 val) :=
  ⟨(by decide : 0x0C#8 ∈ legalWords), (by decide : zField 0x0C#8 = 0#1)⟩

theorem ftu16 (val : Value) : Statement (.ftu16 val) :=
  ⟨(by decide : 0x1C#8 ∈ legalWords), (by decide : zField 0x1C#8 = 0#1)⟩

theorem ftu32 (val : Value) : Statement (.ftu32 val) :=
  ⟨(by decide : 0x2C#8 ∈ legalWords), (by decide : zField 0x2C#8 = 0#1)⟩

theorem ftu64 (val : Value) : Statement (.ftu64 val) :=
  ⟨(by decide : 0x3C#8 ∈ legalWords), (by decide : zField 0x3C#8 = 0#1)⟩

theorem ftu128 (val : Value) : Statement (.ftu128 val) :=
  ⟨(by decide : 0x4C#8 ∈ legalWords), (by decide : zField 0x4C#8 = 0#1)⟩

theorem utf8 (val : Value) : Statement (.utf8 val) :=
  ⟨(by decide : 0x0D#8 ∈ legalWords), (by decide : zField 0x0D#8 = 0#1)⟩

theorem utf16 (val : Value) : Statement (.utf16 val) :=
  ⟨(by decide : 0x1D#8 ∈ legalWords), (by decide : zField 0x1D#8 = 0#1)⟩

theorem utf32 (val : Value) : Statement (.utf32 val) :=
  ⟨(by decide : 0x2D#8 ∈ legalWords), (by decide : zField 0x2D#8 = 0#1)⟩

theorem utf64 (val : Value) : Statement (.utf64 val) :=
  ⟨(by decide : 0x3D#8 ∈ legalWords), (by decide : zField 0x3D#8 = 0#1)⟩

theorem utf128 (val : Value) : Statement (.utf128 val) :=
  ⟨(by decide : 0x4D#8 ∈ legalWords), (by decide : zField 0x4D#8 = 0#1)⟩

end Sys2Proof.Laws.LegalWord

namespace Sys2Proof.Laws.UnreadFieldsZero

/-- In the request that presents the command, every field the command does not read is 0 (R48). -/
def Statement (i : Instr) : Prop :=
  (readsVal i = false → (encode i).val = 0) ∧ (readsVec i = false → (encode i).vec = 0) ∧
    (readsSpan i = false → (encode i).base = 0 ∧ (encode i).cap = 0)

theorem enc8 (val : Value) (base cap : Nat) : Statement (.enc8 val base cap) :=
  ⟨(fun h => nomatch h), (fun _ => rfl), (fun h => nomatch h)⟩

theorem enc16 (val : Value) (base cap : Nat) : Statement (.enc16 val base cap) :=
  ⟨(fun h => nomatch h), (fun _ => rfl), (fun h => nomatch h)⟩

theorem enc32 (val : Value) (base cap : Nat) : Statement (.enc32 val base cap) :=
  ⟨(fun h => nomatch h), (fun _ => rfl), (fun h => nomatch h)⟩

theorem enc64 (val : Value) (base cap : Nat) : Statement (.enc64 val base cap) :=
  ⟨(fun h => nomatch h), (fun _ => rfl), (fun h => nomatch h)⟩

theorem enc128 (val : Value) (base cap : Nat) : Statement (.enc128 val base cap) :=
  ⟨(fun h => nomatch h), (fun _ => rfl), (fun h => nomatch h)⟩

theorem dec8 (base cap : Nat) : Statement (.dec8 base cap) :=
  ⟨(fun _ => rfl), (fun _ => rfl), (fun h => nomatch h)⟩

theorem dec16 (base cap : Nat) : Statement (.dec16 base cap) :=
  ⟨(fun _ => rfl), (fun _ => rfl), (fun h => nomatch h)⟩

theorem dec32 (base cap : Nat) : Statement (.dec32 base cap) :=
  ⟨(fun _ => rfl), (fun _ => rfl), (fun h => nomatch h)⟩

theorem dec64 (base cap : Nat) : Statement (.dec64 base cap) :=
  ⟨(fun _ => rfl), (fun _ => rfl), (fun h => nomatch h)⟩

theorem dec128 (base cap : Nat) : Statement (.dec128 base cap) :=
  ⟨(fun _ => rfl), (fun _ => rfl), (fun h => nomatch h)⟩

theorem size8 (val : Value) : Statement (.size8 val) :=
  ⟨(fun h => nomatch h), (fun _ => rfl), (fun _ => ⟨rfl, rfl⟩)⟩

theorem size16 (val : Value) : Statement (.size16 val) :=
  ⟨(fun h => nomatch h), (fun _ => rfl), (fun _ => ⟨rfl, rfl⟩)⟩

theorem size32 (val : Value) : Statement (.size32 val) :=
  ⟨(fun h => nomatch h), (fun _ => rfl), (fun _ => ⟨rfl, rfl⟩)⟩

theorem size64 (val : Value) : Statement (.size64 val) :=
  ⟨(fun h => nomatch h), (fun _ => rfl), (fun _ => ⟨rfl, rfl⟩)⟩

theorem size128 (val : Value) : Statement (.size128 val) :=
  ⟨(fun h => nomatch h), (fun _ => rfl), (fun _ => ⟨rfl, rfl⟩)⟩

theorem cls (val : Value) : Statement (.cls val) :=
  ⟨(fun h => nomatch h), (fun _ => rfl), (fun _ => ⟨rfl, rfl⟩)⟩

theorem pvp (val : Value) : Statement (.pvp val) :=
  ⟨(fun h => nomatch h), (fun _ => rfl), (fun _ => ⟨rfl, rfl⟩)⟩

theorem lpp (val : Value) : Statement (.lpp val) :=
  ⟨(fun h => nomatch h), (fun _ => rfl), (fun _ => ⟨rfl, rfl⟩)⟩

theorem hdr (val : Value) : Statement (.hdr val) :=
  ⟨(fun h => nomatch h), (fun _ => rfl), (fun _ => ⟨rfl, rfl⟩)⟩

theorem gath (vec : Lanes) : Statement (.gath vec) :=
  ⟨(fun _ => rfl), (fun h => nomatch h), (fun _ => ⟨rfl, rfl⟩)⟩

theorem scat (val : Value) : Statement (.scat val) :=
  ⟨(fun h => nomatch h), (fun _ => rfl), (fun _ => ⟨rfl, rfl⟩)⟩

theorem zze8 (val : Value) : Statement (.zze8 val) :=
  ⟨(fun h => nomatch h), (fun _ => rfl), (fun _ => ⟨rfl, rfl⟩)⟩

theorem zze16 (val : Value) : Statement (.zze16 val) :=
  ⟨(fun h => nomatch h), (fun _ => rfl), (fun _ => ⟨rfl, rfl⟩)⟩

theorem zze32 (val : Value) : Statement (.zze32 val) :=
  ⟨(fun h => nomatch h), (fun _ => rfl), (fun _ => ⟨rfl, rfl⟩)⟩

theorem zze64 (val : Value) : Statement (.zze64 val) :=
  ⟨(fun h => nomatch h), (fun _ => rfl), (fun _ => ⟨rfl, rfl⟩)⟩

theorem zze128 (val : Value) : Statement (.zze128 val) :=
  ⟨(fun h => nomatch h), (fun _ => rfl), (fun _ => ⟨rfl, rfl⟩)⟩

theorem zzd8 (val : Value) : Statement (.zzd8 val) :=
  ⟨(fun h => nomatch h), (fun _ => rfl), (fun _ => ⟨rfl, rfl⟩)⟩

theorem zzd16 (val : Value) : Statement (.zzd16 val) :=
  ⟨(fun h => nomatch h), (fun _ => rfl), (fun _ => ⟨rfl, rfl⟩)⟩

theorem zzd32 (val : Value) : Statement (.zzd32 val) :=
  ⟨(fun h => nomatch h), (fun _ => rfl), (fun _ => ⟨rfl, rfl⟩)⟩

theorem zzd64 (val : Value) : Statement (.zzd64 val) :=
  ⟨(fun h => nomatch h), (fun _ => rfl), (fun _ => ⟨rfl, rfl⟩)⟩

theorem zzd128 (val : Value) : Statement (.zzd128 val) :=
  ⟨(fun h => nomatch h), (fun _ => rfl), (fun _ => ⟨rfl, rfl⟩)⟩

theorem ftu8 (val : Value) : Statement (.ftu8 val) :=
  ⟨(fun h => nomatch h), (fun _ => rfl), (fun _ => ⟨rfl, rfl⟩)⟩

theorem ftu16 (val : Value) : Statement (.ftu16 val) :=
  ⟨(fun h => nomatch h), (fun _ => rfl), (fun _ => ⟨rfl, rfl⟩)⟩

theorem ftu32 (val : Value) : Statement (.ftu32 val) :=
  ⟨(fun h => nomatch h), (fun _ => rfl), (fun _ => ⟨rfl, rfl⟩)⟩

theorem ftu64 (val : Value) : Statement (.ftu64 val) :=
  ⟨(fun h => nomatch h), (fun _ => rfl), (fun _ => ⟨rfl, rfl⟩)⟩

theorem ftu128 (val : Value) : Statement (.ftu128 val) :=
  ⟨(fun h => nomatch h), (fun _ => rfl), (fun _ => ⟨rfl, rfl⟩)⟩

theorem utf8 (val : Value) : Statement (.utf8 val) :=
  ⟨(fun h => nomatch h), (fun _ => rfl), (fun _ => ⟨rfl, rfl⟩)⟩

theorem utf16 (val : Value) : Statement (.utf16 val) :=
  ⟨(fun h => nomatch h), (fun _ => rfl), (fun _ => ⟨rfl, rfl⟩)⟩

theorem utf32 (val : Value) : Statement (.utf32 val) :=
  ⟨(fun h => nomatch h), (fun _ => rfl), (fun _ => ⟨rfl, rfl⟩)⟩

theorem utf64 (val : Value) : Statement (.utf64 val) :=
  ⟨(fun h => nomatch h), (fun _ => rfl), (fun _ => ⟨rfl, rfl⟩)⟩

theorem utf128 (val : Value) : Statement (.utf128 val) :=
  ⟨(fun h => nomatch h), (fun _ => rfl), (fun _ => ⟨rfl, rfl⟩)⟩

end Sys2Proof.Laws.UnreadFieldsZero
end

