-- ==== Sys2Proof/Tests/Slice0.lean ====
section
/-! SUPPORT. The model's own tests. Every expected value is the spec's: the encoding tables of `30_encoding.md` (R40 to
R45) and the vectors of `95_test_vectors.md`. At the end, for every obligation with hypotheses, a state and operands that
meet them. -/

namespace Sys2Proof.Tests

open Sys2Proof.Machine

/-! ### Helpers -/

/-- A system right after reset whose host has put the bytes at `0x100` upwards. -/
def bench (bs : List Byte) : State := { State.reset with mem := Memory.writeBytes [] 0x100 bs }

/-- The host's buffer of the spec's vectors: `n` bytes `0xAA` at `0x100`. -/
def filled (n : Nat) : State := bench (List.replicate n 0xAA)

/-- The response of an outcome. -/
def answerOf : Host.Outcome State Fault Refusal → Option Response
  | .next t => t.rsp
  | .fault _ => none
  | .refused _ => none

/-- The `n` bytes at `0x100` after an outcome, none where nobody wrote. -/
def bytesOf (n : Nat) : Host.Outcome State Fault Refusal → List (Option Byte)
  | .next t => (List.range n).map fun i => Memory.read? t.mem (0x100 + i)
  | .fault _ => []
  | .refused _ => []

/-- The reason an outcome was refused. -/
def refusalOf : Host.Outcome State Fault Refusal → Option Refusal
  | .next _ => none
  | .fault _ => none
  | .refused e => some e

/-! ### WellFormed: an ill-formed command for each check -/

/-- `BASE` of 17 bits on a 16-bit port (R12). -/
theorem test_wf_base_too_wide : Instr.wellFormed 16 (.dec8 0x10000 0) = false := by decide

/-- `CAP` of 17 bits on a 16-bit port (R12). -/
theorem test_wf_cap_too_wide : Instr.wellFormed 16 (.enc8 0 0 0x10000) = false := by decide

/-- A span that ends one byte past the address space (R27). -/
theorem test_wf_wrapping_span : Instr.wellFormed 16 (.dec128 0xFFFF 2) = false := by decide

/-- A span that ends exactly at the end of the address space, and an empty one (R26, R27). -/
theorem test_wf_accepts : Instr.wellFormed 16 (.dec128 0xFFFF 1) = true ∧ Instr.wellFormed 16 (.enc8 0 0 0) = true ∧
    Instr.wellFormed 16 (.gath 0) = true := by decide

/-! ### Decode: every command's word, bit by bit (`Z`, `WSEL`, `OP`: R40 to R42) -/

theorem test_decode_enc8 : decodeTableWord 8 0b0_000_0001 = some (.enc8 0 0 0) := by decide
theorem test_decode_enc16 : decodeTableWord 8 0b0_001_0001 = some (.enc16 0 0 0) := by decide
theorem test_decode_enc32 : decodeTableWord 8 0b0_010_0001 = some (.enc32 0 0 0) := by decide
theorem test_decode_enc64 : decodeTableWord 8 0b0_011_0001 = some (.enc64 0 0 0) := by decide
theorem test_decode_enc128 : decodeTableWord 8 0b0_100_0001 = some (.enc128 0 0 0) := by decide
theorem test_decode_dec8 : decodeTableWord 8 0b0_000_0010 = some (.dec8 0 0) := by decide
theorem test_decode_dec16 : decodeTableWord 8 0b0_001_0010 = some (.dec16 0 0) := by decide
theorem test_decode_dec32 : decodeTableWord 8 0b0_010_0010 = some (.dec32 0 0) := by decide
theorem test_decode_dec64 : decodeTableWord 8 0b0_011_0010 = some (.dec64 0 0) := by decide
theorem test_decode_dec128 : decodeTableWord 8 0b0_100_0010 = some (.dec128 0 0) := by decide
theorem test_decode_size8 : decodeTableWord 8 0b0_000_0011 = some (.size8 0) := by decide
theorem test_decode_size16 : decodeTableWord 8 0b0_001_0011 = some (.size16 0) := by decide
theorem test_decode_size32 : decodeTableWord 8 0b0_010_0011 = some (.size32 0) := by decide
theorem test_decode_size64 : decodeTableWord 8 0b0_011_0011 = some (.size64 0) := by decide
theorem test_decode_size128 : decodeTableWord 8 0b0_100_0011 = some (.size128 0) := by decide
theorem test_decode_zze8 : decodeTableWord 8 0b0_000_1010 = some (.zze8 0) := by decide
theorem test_decode_zze16 : decodeTableWord 8 0b0_001_1010 = some (.zze16 0) := by decide
theorem test_decode_zze32 : decodeTableWord 8 0b0_010_1010 = some (.zze32 0) := by decide
theorem test_decode_zze64 : decodeTableWord 8 0b0_011_1010 = some (.zze64 0) := by decide
theorem test_decode_zze128 : decodeTableWord 8 0b0_100_1010 = some (.zze128 0) := by decide
theorem test_decode_zzd8 : decodeTableWord 8 0b0_000_1011 = some (.zzd8 0) := by decide
theorem test_decode_zzd16 : decodeTableWord 8 0b0_001_1011 = some (.zzd16 0) := by decide
theorem test_decode_zzd32 : decodeTableWord 8 0b0_010_1011 = some (.zzd32 0) := by decide
theorem test_decode_zzd64 : decodeTableWord 8 0b0_011_1011 = some (.zzd64 0) := by decide
theorem test_decode_zzd128 : decodeTableWord 8 0b0_100_1011 = some (.zzd128 0) := by decide
theorem test_decode_ftu8 : decodeTableWord 8 0b0_000_1100 = some (.ftu8 0) := by decide
theorem test_decode_ftu16 : decodeTableWord 8 0b0_001_1100 = some (.ftu16 0) := by decide
theorem test_decode_ftu32 : decodeTableWord 8 0b0_010_1100 = some (.ftu32 0) := by decide
theorem test_decode_ftu64 : decodeTableWord 8 0b0_011_1100 = some (.ftu64 0) := by decide
theorem test_decode_ftu128 : decodeTableWord 8 0b0_100_1100 = some (.ftu128 0) := by decide
theorem test_decode_utf8 : decodeTableWord 8 0b0_000_1101 = some (.utf8 0) := by decide
theorem test_decode_utf16 : decodeTableWord 8 0b0_001_1101 = some (.utf16 0) := by decide
theorem test_decode_utf32 : decodeTableWord 8 0b0_010_1101 = some (.utf32 0) := by decide
theorem test_decode_utf64 : decodeTableWord 8 0b0_011_1101 = some (.utf64 0) := by decide
theorem test_decode_utf128 : decodeTableWord 8 0b0_100_1101 = some (.utf128 0) := by decide
theorem test_decode_cls : decodeTableWord 8 0b0_000_0100 = some (.cls 0) := by decide
theorem test_decode_pvp : decodeTableWord 8 0b0_000_0101 = some (.pvp 0) := by decide
theorem test_decode_lpp : decodeTableWord 8 0b0_000_0110 = some (.lpp 0) := by decide
theorem test_decode_hdr : decodeTableWord 8 0b0_000_0111 = some (.hdr 0) := by decide
theorem test_decode_gath : decodeTableWord 8 0b0_000_1000 = some (.gath 0) := by decide
theorem test_decode_scat : decodeTableWord 8 0b0_000_1001 = some (.scat 0) := by decide

/-- Illegal words of each kind (R46). -/
theorem test_decode_illegal :
    decodeTableWord 8 0b1_000_0001 = none ∧ decodeTableWord 8 0b0_000_0000 = none ∧
      decodeTableWord 8 0b0_000_1110 = none ∧ decodeTableWord 8 0b0_000_1111 = none ∧
      decodeTableWord 8 0b0_101_0001 = none ∧ decodeTableWord 8 0b0_110_0010 = none ∧
      decodeTableWord 8 0b0_111_1101 = none ∧ decodeTableWord 8 0b0_001_0100 = none := by decide

/-- The operand fields reach the command they belong to (R12, R48). -/
theorem test_decode_operands :
    decode ⟨0b0_010_0001, 0xABCDE, 5, 0x100, 8⟩ = .command (.enc32 0xABCDE 0x100 8) ∧
      decode ⟨0b0_011_0010, 7, 5, 0x100, 8⟩ = .command (.dec64 0x100 8) ∧
      decode ⟨0b0_000_1000, 7, 5, 0x100, 8⟩ = .command (.gath 5) := by decide

/-- The opcode table's numbering: bits above the eight of the command port do not exist (R40, R47). -/
theorem test_fetch_word :
    (State.reset.withFetchWord 8 0x0A).host = [.command ⟨0x0A, 0, 0, 0, 0⟩] := by decide

/-! ### One step of each command -/

/-- `95_test_vectors.md` 3.1. -/
theorem test_enc8 :
    answerOf (exec (.enc8 0xFF 0x100 4) (filled 4)) =
        some ({ Response.okay with len := 2 }) ∧
      bytesOf 4 (exec (.enc8 0xFF 0x100 4) (filled 4)) =
        [some 0xBF, some 0x03, some 0xAA, some 0xAA] := by decide

/-- `95_test_vectors.md` 3.2. -/
theorem test_enc8_value_first :
    answerOf (exec (.enc8 0x100 0x100 0) (filled 4)) =
        some (Response.blank .valueTooLarge) ∧
      bytesOf 4 (exec (.enc8 0x100 0x100 0) (filled 4)) =
        [some 0xAA, some 0xAA, some 0xAA, some 0xAA] := by decide

/-- `95_test_vectors.md` 3.1. -/
theorem test_enc16 :
    answerOf (exec (.enc16 0xFFFF 0x100 4) (filled 4)) =
        some ({ Response.okay with len := 3 }) ∧
      bytesOf 4 (exec (.enc16 0xFFFF 0x100 4) (filled 4)) =
        [some 0xDF, some 0xFF, some 0x07, some 0xAA] := by decide

/-- `95_test_vectors.md` 3.2. -/
theorem test_enc16_too_large :
    answerOf (exec (.enc16 0x10000 0x100 16) (filled 4)) =
        some (Response.blank .valueTooLarge) ∧
      bytesOf 4 (exec (.enc16 0x10000 0x100 16) (filled 4)) =
        [some 0xAA, some 0xAA, some 0xAA, some 0xAA] := by decide

/-- `95_test_vectors.md` 3.1. -/
theorem test_enc32 :
    answerOf (exec (.enc32 0xABCDE 0x100 3) (filled 4)) =
        some ({ Response.okay with len := 3 }) ∧
      bytesOf 4 (exec (.enc32 0xABCDE 0x100 3) (filled 4)) =
        [some 0xDE, some 0xE6, some 0x55, some 0xAA] := by decide

/-- `95_test_vectors.md` 3.2. -/
theorem test_enc32_too_small :
    answerOf (exec (.enc32 0xABCDE 0x100 2) (filled 4)) =
        some (Response.blank .bufferTooSmall) ∧
      bytesOf 4 (exec (.enc32 0xABCDE 0x100 2) (filled 4)) =
        [some 0xAA, some 0xAA, some 0xAA, some 0xAA] := by decide

/-- `95_test_vectors.md` 3.1. -/
theorem test_enc64 :
    answerOf (exec (.enc64 0xFFFFFFFFFFFFFFFF 0x100 9) (filled 10)) =
        some ({ Response.okay with len := 9 }) ∧
      bytesOf 10 (exec (.enc64 0xFFFFFFFFFFFFFFFF 0x100 9) (filled 10)) =
        [some 0xF7, some 0xFF, some 0xFF, some 0xFF, some 0xFF, some 0xFF, some 0xFF, some 0xFF, some 0xFF, some 0xAA] := by decide

/-- `95_test_vectors.md` 3.2. -/
theorem test_enc64_too_large :
    answerOf (exec (.enc64 0x10000000000000000 0x100 16) (filled 4)) =
        some (Response.blank .valueTooLarge) ∧
      bytesOf 4 (exec (.enc64 0x10000000000000000 0x100 16) (filled 4)) =
        [some 0xAA, some 0xAA, some 0xAA, some 0xAA] := by decide

/-- `95_test_vectors.md` 3.1. -/
theorem test_enc128 :
    answerOf (exec (.enc128 0xFFFFFFFFFFFFFFFFFFFFFFFFFFFFFFFF 0x100 17) (filled 18)) =
        some ({ Response.okay with len := 17 }) ∧
      bytesOf 18 (exec (.enc128 0xFFFFFFFFFFFFFFFFFFFFFFFFFFFFFFFF 0x100 17) (filled 18)) =
        [some 0xFF, some 0xFF, some 0xFF, some 0xFF, some 0xFF, some 0xFF, some 0xFF, some 0xFF, some 0xFF, some 0xFF, some 0xFF, some 0xFF, some 0xFF, some 0xFF, some 0xFF, some 0xFF, some 0xFF, some 0xAA] := by decide

/-- `95_test_vectors.md` 3.2. -/
theorem test_enc128_too_small :
    answerOf (exec (.enc128 0xFFFFFFFFFFFFFFFFFFFFFFFFFFFFFFFF 0x100 16) (filled 2)) =
        some (Response.blank .bufferTooSmall) ∧
      bytesOf 2 (exec (.enc128 0xFFFFFFFFFFFFFFFFFFFFFFFFFFFFFFFF 0x100 16) (filled 2)) =
        [some 0xAA, some 0xAA] := by decide

/-- `95_test_vectors.md` 3.3. -/
theorem test_dec8_greatest :
    answerOf (exec (.dec8 0x100 2) (bench [0xBF, 0x03])) =
      some ({ Response.okay with val := 0xFF, len := 2 }) := by decide

/-- `95_test_vectors.md` 3.3. -/
theorem test_dec8_truncated_first :
    answerOf (exec (.dec8 0x100 3) (bench [0xFF, 0xFF, 0xFF])) =
      some (Response.blank .truncatedInput) := by decide

/-- `95_test_vectors.md` 3.3. -/
theorem test_dec16 :
    answerOf (exec (.dec16 0x100 3) (bench [0xDF, 0xFF, 0x07])) =
      some ({ Response.okay with val := 0xFFFF, len := 3 }) := by decide

/-- `95_test_vectors.md` 3.3. -/
theorem test_dec16_overflow :
    answerOf (exec (.dec16 0x100 3) (bench [0xC0, 0x00, 0x08])) =
      some (Response.blank .overflow) := by decide

/-- `95_test_vectors.md` 3.3. -/
theorem test_dec32_trailing_byte :
    answerOf (exec (.dec32 0x100 4) (bench [0xDE, 0xE6, 0x55, 0x99])) =
      some ({ Response.okay with val := 0xABCDE, len := 3 }) := by decide

/-- `95_test_vectors.md` 3.3. -/
theorem test_dec32_overlong :
    answerOf (exec (.dec32 0x100 4) (bench [0xF2, 0xDE, 0xBC, 0x0A])) =
      some ({ Response.okay with val := 0xABCDE, len := 4 }) := by decide

/-- `95_test_vectors.md` 3.3. -/
theorem test_dec64 :
    answerOf (exec (.dec64 0x100 6) (bench [0xF4, 0x00, 0x00, 0x00, 0x00, 0x01])) =
      some ({ Response.okay with val := 0x100000000, len := 6 }) := by decide

/-- `95_test_vectors.md` 3.3. -/
theorem test_dec64_empty_span :
    answerOf (exec (.dec64 0x100 0) (bench [0x00])) =
      some (Response.blank .truncatedInput) := by decide

/-- `95_test_vectors.md` 3.3. -/
theorem test_dec128 :
    answerOf (exec (.dec128 0x100 17) (bench [0xFF, 0xFF, 0xFF, 0xFF, 0xFF, 0xFF, 0xFF, 0xFF, 0xFF, 0xFF, 0xFF, 0xFF, 0xFF, 0xFF, 0xFF, 0xFF, 0xFF])) =
      some ({ Response.okay with val := 0xFFFFFFFFFFFFFFFFFFFFFFFFFFFFFFFF, len := 17 }) := by decide

/-- `95_test_vectors.md` 3.3. -/
theorem test_dec128_overlong :
    answerOf (exec (.dec128 0x100 17) (bench [0xFF, 0x07, 0x00, 0x00, 0x00, 0x00, 0x00, 0x00, 0x00, 0x00, 0x00, 0x00, 0x00, 0x00, 0x00, 0x00, 0x00])) =
      some ({ Response.okay with val := 7, len := 17 }) := by decide

/-- `95_test_vectors.md` 3.1, 3.2. -/
theorem test_size8 : answerOf (exec (.size8 0xFF) State.reset) =
    some ({ Response.okay with len := 2 }) := by decide

/-- `95_test_vectors.md` 3.1, 3.2. -/
theorem test_size16 : answerOf (exec (.size16 0xFFFF) State.reset) =
    some ({ Response.okay with len := 3 }) := by decide

/-- `95_test_vectors.md` 3.1, 3.2. -/
theorem test_size32 : answerOf (exec (.size32 0xFFFFFFFF) State.reset) =
    some ({ Response.okay with len := 5 }) := by decide

/-- `95_test_vectors.md` 3.1, 3.2. -/
theorem test_size64 : answerOf (exec (.size64 0xFFFFFFFFFFFFFFFF) State.reset) =
    some ({ Response.okay with len := 9 }) := by decide

/-- `95_test_vectors.md` 3.1, 3.2. -/
theorem test_size128 : answerOf (exec (.size128 0x80000000000000000000000000000000) State.reset) =
    some ({ Response.okay with len := 17 }) := by decide

/-- `95_test_vectors.md` 3.2. -/
theorem test_size8_too_large : answerOf (exec (.size8 0x100) State.reset) =
    some (Response.blank .valueTooLarge) := by decide

/-- `95_test_vectors.md` 2.1. -/
theorem test_cls_edge : answerOf (exec (.cls 0xFFFFFFF) State.reset) =
    some ({ Response.okay with tier := 1 }) := by decide

/-- `95_test_vectors.md` 2.1. -/
theorem test_cls_top : answerOf (exec (.cls 0x10000000) State.reset) =
    some ({ Response.okay with tier := 2 }) := by decide

/-- `95_test_vectors.md` 2.1. -/
theorem test_pvp : answerOf (exec (.pvp 0x4000) State.reset) =
    some ({ Response.okay with aux := 2, len := 3 }) := by decide

/-- `95_test_vectors.md` 2.1. -/
theorem test_pvp_too_large : answerOf (exec (.pvp 0x10000000) State.reset) =
    some (Response.blank .valueTooLarge) := by decide

/-- `95_test_vectors.md` 2.1. -/
theorem test_lpp_floor : answerOf (exec (.lpp 0) State.reset) =
    some ({ Response.okay with aux := 4, len := 5 }) := by decide

/-- `95_test_vectors.md` 2.1. -/
theorem test_lpp : answerOf (exec (.lpp 0x100000000) State.reset) =
    some ({ Response.okay with aux := 5, len := 6 }) := by decide

/-- `95_test_vectors.md` 2.2: only `VAL[7:0]` is read. -/
theorem test_hdr : answerOf (exec (.hdr 0x1234DE) State.reset) =
    some ({ Response.okay with tier := 1, aux := 2, len := 3 }) := by decide

/-- `95_test_vectors.md` 2.2. -/
theorem test_hdr_top : answerOf (exec (.hdr 0xFF) State.reset) =
    some ({ Response.okay with tier := 2, aux := 16, len := 17 }) := by decide

/-- `95_test_vectors.md` 4.1. -/
theorem test_gath : answerOf (exec (.gath (vecOf ([0xDE, 0xE6, 0x55] ++ List.replicate 14 0x99))) State.reset) =
    some ({ Response.okay with val := 0xABCDE, len := 3, tier := 1, aux := 2 }) := by decide

/-- `95_test_vectors.md` 4.1. -/
theorem test_gath_full : answerOf (exec (.gath (vecOf (List.replicate 17 0xFF))) State.reset) =
    some ({ Response.okay with val := BitVec.allOnes 128, len := 17, tier := 2, aux := 16 }) := by decide

/-- `95_test_vectors.md` 4.2. -/
theorem test_scat : answerOf (exec (.scat 0x12345678) State.reset) =
    some ({ Response.okay with vec := vecOf [0xF3, 0x78, 0x56, 0x34, 0x12], len := 5, tier := 2, aux := 4 }) := by decide

/-- `95_test_vectors.md` 4.2, lane 0 the lowest byte (R13). -/
theorem test_scat_low : answerOf (exec (.scat 0xABCDE) State.reset) =
    some ({ Response.okay with vec := 0x55E6DE, len := 3, tier := 1, aux := 2 }) := by decide

/-- `95_test_vectors.md` 5.1. R103. -/
theorem test_zze8 : answerOf (exec (.zze8 0x80) State.reset) =
    some ({ Response.okay with val := 0xFF }) := by decide

/-- `95_test_vectors.md` 5.1. R105. -/
theorem test_zzd8 : answerOf (exec (.zzd8 0xFF) State.reset) =
    some ({ Response.okay with val := 0x80 }) := by decide

/-- `95_test_vectors.md` 5.1. R103. -/
theorem test_zze16 : answerOf (exec (.zze16 0x7FFF) State.reset) =
    some ({ Response.okay with val := 0xFFFE }) := by decide

/-- `95_test_vectors.md` 5.1. R105. -/
theorem test_zzd16 : answerOf (exec (.zzd16 0xFFFE) State.reset) =
    some ({ Response.okay with val := 0x7FFF }) := by decide

/-- `95_test_vectors.md` 5.1. R103. -/
theorem test_zze32 : answerOf (exec (.zze32 0xFFFFFF85) State.reset) =
    some ({ Response.okay with val := 0xF5 }) := by decide

/-- `95_test_vectors.md` 5.1. R105. -/
theorem test_zzd32 : answerOf (exec (.zzd32 0xF5) State.reset) =
    some ({ Response.okay with val := 0xFFFFFF85 }) := by decide

/-- `95_test_vectors.md` 5.1. R103. -/
theorem test_zze64 : answerOf (exec (.zze64 0xFFFFFFFFFFFFFFFF) State.reset) =
    some ({ Response.okay with val := 1 }) := by decide

/-- `95_test_vectors.md` 5.1. R105. -/
theorem test_zzd64 : answerOf (exec (.zzd64 1) State.reset) =
    some ({ Response.okay with val := 0xFFFFFFFFFFFFFFFF }) := by decide

/-- `95_test_vectors.md` 5.1. R103. -/
theorem test_zze128 : answerOf (exec (.zze128 0x80000000000000000000000000000000) State.reset) =
    some ({ Response.okay with val := 0xFFFFFFFFFFFFFFFFFFFFFFFFFFFFFFFF }) := by decide

/-- `95_test_vectors.md` 5.1. R105. -/
theorem test_zzd128 : answerOf (exec (.zzd128 0xFFFFFFFFFFFFFFFFFFFFFFFFFFFFFFFF) State.reset) =
    some ({ Response.okay with val := 0x80000000000000000000000000000000 }) := by decide

/-- R103: `VAL[127:W]` is ignored. -/
theorem test_zze8_high_bits : answerOf (exec (.zze8 0xABFF) State.reset) =
    some ({ Response.okay with val := 1 }) := by decide

/-- R109, R110; `95_test_vectors.md` 5.2. -/
theorem test_ftu8 : answerOf (exec (.ftu8 0x80) State.reset) =
    some ({ Response.okay with val := 0x80 }) := by decide

/-- R109, R110; `95_test_vectors.md` 5.2. -/
theorem test_utf8 : answerOf (exec (.utf8 0x80) State.reset) =
    some ({ Response.okay with val := 0x80 }) := by decide

/-- R109, R110; `95_test_vectors.md` 5.2. -/
theorem test_ftu16 : answerOf (exec (.ftu16 0x3C00) State.reset) =
    some ({ Response.okay with val := 0x003C }) := by decide

/-- R109, R110; `95_test_vectors.md` 5.2. -/
theorem test_utf16 : answerOf (exec (.utf16 0x003C) State.reset) =
    some ({ Response.okay with val := 0x3C00 }) := by decide

/-- R109, R110; `95_test_vectors.md` 5.2. -/
theorem test_ftu32 : answerOf (exec (.ftu32 0x3F800000) State.reset) =
    some ({ Response.okay with val := 0x0000803F }) := by decide

/-- R109, R110; `95_test_vectors.md` 5.2. -/
theorem test_utf32 : answerOf (exec (.utf32 0x0000803F) State.reset) =
    some ({ Response.okay with val := 0x3F800000 }) := by decide

/-- R109, R110; `95_test_vectors.md` 5.2. -/
theorem test_ftu64 : answerOf (exec (.ftu64 0x3FF0000000000000) State.reset) =
    some ({ Response.okay with val := 0xF03F }) := by decide

/-- R109, R110; `95_test_vectors.md` 5.2. -/
theorem test_utf64 : answerOf (exec (.utf64 0xF03F) State.reset) =
    some ({ Response.okay with val := 0x3FF0000000000000 }) := by decide

/-- R109, R110; `95_test_vectors.md` 5.2. -/
theorem test_ftu128 : answerOf (exec (.ftu128 0x3FFF0000000000000000000000000000) State.reset) =
    some ({ Response.okay with val := 0xFF3F }) := by decide

/-- R109, R110; `95_test_vectors.md` 5.2. -/
theorem test_utf128 : answerOf (exec (.utf128 0xFF3F) State.reset) =
    some ({ Response.okay with val := 0x3FFF0000000000000000000000000000 }) := by decide

/-! ### Cross-validation (R100): the vectors of `95_test_vectors.md` 4.3 -/

theorem test_cross_validation_gath :
    crossValidatesGath (vecOf (0x7F :: List.replicate 16 0xFF)) = true ∧ crossValidatesGath (vecOf [0x80, 0x02]) = true ∧
      crossValidatesGath (vecOf [0xDE, 0xE6, 0x55, 0x99]) = true ∧
      crossValidatesGath (vecOf [0xEF, 0xFF, 0xFF, 0xFF, 0xFF]) = true ∧
      crossValidatesGath (vecOf [0xF3, 0x78, 0x56, 0x34, 0x12, 0xFF, 0xFF]) = true ∧
      crossValidatesGath (vecOf (0xF8 :: List.replicate 16 0xFF)) = true ∧
      crossValidatesGath (vecOf (List.replicate 17 0xFF)) = true := by decide

theorem test_cross_validation_scat :
    crossValidatesScat 0x7F = true ∧ crossValidatesScat 0x80 = true ∧ crossValidatesScat 0xABCDE = true ∧
      crossValidatesScat 0xFFFFFFF = true ∧ crossValidatesScat 0x10000000 = true ∧
      crossValidatesScat 0x100000000 = true ∧ crossValidatesScat (BitVec.allOnes 128) = true := by decide

/-! ### What the spec's runs without a meaning do -/

/-- A span that wraps (R27, U5), one outside ordinary memory (R36, U6), a field too wide for its port (R12). -/
theorem test_unusable_spans :
    refusalOf (exec (.dec8 (2 ^ 64 - 1) 2) State.reset) = some .spanWraps ∧
      refusalOf (exec (.enc8 5 0x10F 2) { State.reset with ram := [⟨0x100, 0x10⟩] }) = some .spanNotBacked ∧
      refusalOf (exec (.dec8 (2 ^ 64) 0) State.reset) = some .fieldTooWide := by decide

/-- A span of no byte is legal even where there is no memory (R26). -/
theorem test_empty_span :
    answerOf (exec (.dec8 0x5000 0) { State.reset with ram := [] }) = some (Response.blank .truncatedInput) := by decide

/-- A write into a running command's span, and a reset inside a command (R38, R133). -/
theorem test_broken_duties :
    refusalOf (step { filled 4 with host := [.commandDuring ⟨0x02, 0, 0, 0x100, 4⟩ [(0x103, 1)]] }) =
        some .bufferDisturbed ∧
      refusalOf (step { filled 4 with host := [.resetDuring ⟨0x04, 0, 0, 0, 0⟩ .wide] }) =
        some .resetInsideCommand := by decide

/-- The remark in R109 on the longest encoding fails at `W` = 16: notes/assumptions/14.md. -/
theorem test_float_remark :
    answerOf (exec (.ftu16 0x0001) State.reset) = some { Response.okay with val := 0x0100 } ∧
      answerOf (exec (.size16 0x0100) State.reset) = some { Response.okay with len := 2 } ∧ worstLen .w16 = 3 := by
  decide

/-! ### Witnesses: a state and operands that meet the hypotheses of each obligation that has some -/

theorem witness_IllegalWordsAnswerIllegalCommand : 0x00#8 ∉ legalWords ∧ 0x51#8 ∉ legalWords ∧ 0xFF#8 ∉ legalWords := by
  decide

theorem witness_StepRunsTheDecodedCommand :
    (State.reset.withFetchWord 8 0x04).host = .command (requestOfWord 8 0x04) :: [] ∧
      decode (requestOfWord 8 0x04) = .command (.cls 0) := by decide

theorem witness_PvpAnswersTheLeastK :
    2 ^ 28 ≤ (0x10000000 : Value).toNat ∧ (0xFFFFFFF : Value).toNat < 2 ^ 28 ∧ (0 : Value).toNat < 2 ^ 28 := by decide

theorem witness_LayoutsBitByBit :
    (1 ≤ 3 ∧ 3 ≤ 3 ∧ 2 ^ 28 - 1 < 2 ^ (7 + 7 * 3) ∧ 7 < 8) ∧ (1 ≤ 16 ∧ 16 ≤ 16 ∧ 2 ^ 128 - 1 < 2 ^ (8 * 16)) := by decide

theorem witness_CanonicalBytesHoldTheirValue : 2 ^ 128 - 1 < 2 ^ 128 := by decide

theorem witness_CanonicalEncodingIsShortest : structurallyValid [0xF0, 0x05] = true := by decide

theorem witness_WorstLengthByWidth : 2 ^ 8 - 1 < 2 ^ Width.w8.bits ∧ 2 ^ 128 - 1 < 2 ^ Width.w128.bits := by decide

theorem witness_CanonicalLengthIsMonotone : 0 ≤ 2 ^ 128 - 1 ∧ 2 ^ 128 - 1 < 2 ^ 128 := by decide

theorem witness_LeadingZerosClassifyAValue :
    (2 ^ 7 < 2 ^ 128 ∧ 8 ≤ bitlen (2 ^ 7) ∧ bitlen (2 ^ 7) ≤ 28) ∧
      (2 ^ 28 - 1 < 2 ^ 128 ∧ 8 ≤ bitlen (2 ^ 28 - 1) ∧ bitlen (2 ^ 28 - 1) ≤ 28) := by decide

theorem witness_EncStoresTheCanonicalEncoding :
    (spanUsable (filled 4) ⟨0x100, 2⟩ ∧ (0xFF : Value).toNat < 2 ^ Width.w8.bits ∧ canonLen (0xFF : Value).toNat ≤ 2) ∧
      (spanUsable (filled 4) ⟨0x100, 1⟩ ∧ (0xFF : Value).toNat < 2 ^ Width.w8.bits ∧
        1 < canonLen (0xFF : Value).toNat) ∧
      spanUsable (filled 4) ⟨0x100, 0⟩ ∧ 2 ^ Width.w8.bits ≤ (0x100 : Value).toNat := by decide

theorem witness_SizeAnswersTheCanonicalLength :
    (0xFF : Value).toNat < 2 ^ Width.w8.bits ∧ 2 ^ Width.w8.bits ≤ (0x100 : Value).toNat := by decide

theorem witness_SizeAgreesWithEnc :
    (0xFF : Value).toNat < 2 ^ Width.w8.bits ∧ spanUsable (filled 4) ⟨0x100, 2⟩ ∧ spanUsable (filled 4) ⟨0x100, 1⟩ := by
  decide

theorem witness_DecAnswersWhatTheSpanHolds :
    spanUsable (bench [0x80, 0x04]) ⟨0x100, 0⟩ ∧
      (spanUsable (bench [0x80, 0x04]) ⟨0x100, 1⟩ ∧ 1 < (hdr (Memory.read (bench [0x80, 0x04]).mem 0x100)).len) ∧
      (spanUsable (bench [0x80, 0x04]) ⟨0x100, 2⟩ ∧ (hdr (Memory.read (bench [0x80, 0x04]).mem 0x100)).len ≤ 2 ∧
        2 ^ Width.w8.bits ≤ gather (Memory.readBytes (bench [0x80, 0x04]).mem 0x100 2)) ∧
      (hdr (Memory.read (bench [0xBF, 0x03]).mem 0x100)).len ≤ 2 ∧
        gather (Memory.readBytes (bench [0xBF, 0x03]).mem 0x100 2) < 2 ^ Width.w8.bits := by decide

theorem witness_FirstBytesThatCanOverflow :
    (spanUsable (bench [0xF1, 0x00, 0x01]) ⟨0x100, 3⟩ ∧ Memory.read (bench [0xF1, 0x00, 0x01]).mem 0x100 = 0xF1#8 ∧
      answerOf (exec (.dec8 0x100 3) (bench [0xF1, 0x00, 0x01])) = some (Response.blank .overflow)) ∧
      mayOverflow .w8 0xF1#8 = true ∧ mayOverflow .w8 0xF0#8 = false := by decide

theorem witness_DecDependsOnlyOnTheDeclaredBytes :
    (∀ i, i < (hdr (Memory.read (bench [0x05, 0x99]).mem 0x100)).len →
      Memory.read (bench [0x05]).mem (0x100 + i) = Memory.read (bench [0x05, 0x99]).mem (0x100 + i)) ∧
      ∃ t, exec (.dec8 0x100 2) (bench [0x05, 0x99]) = .next t := ⟨by decide, _, rfl⟩

theorem witness_DecAcceptsEveryStructuralForm :
    spanUsable (bench [0xF0, 0x05]) ⟨0x100, 2⟩ ∧ structurallyValid [0xF0, 0x05] = true ∧
      Memory.readBytes (bench [0xF0, 0x05]).mem 0x100 2 = [0xF0, 0x05] := by decide

theorem witness_EncThenDecRoundTrip :
    spanUsable (filled 17) ⟨0x100, 17⟩ ∧ (BitVec.allOnes 128).toNat < 2 ^ Width.w128.bits ∧
      canonLen (BitVec.allOnes 128).toNat ≤ 17 := by decide

theorem witness_EncThenDecAcrossWidths :
    spanUsable (filled 2) ⟨0x100, 2⟩ ∧ (300 : Value).toNat < 2 ^ Width.w64.bits ∧ canonLen (300 : Value).toNat ≤ 2 ∧
      (300 : Value).toNat < 2 ^ Width.w16.bits ∧ ¬(300 : Value).toNat < 2 ^ Width.w8.bits := by decide

theorem witness_GathAnswersWhatTheLanesHold :
    (∀ i, i < (hdr (lane (vecOf [0x7F]) 0)).len → lane (vecOf [0x7F, 0xFF]) i = lane (vecOf [0x7F]) i) ∧
      vecOf [0x7F, 0xFF] ≠ vecOf [0x7F] := by decide

theorem witness_LaneGatherEqualsGather : (List.replicate 17 (0xFF : Byte)).length = 17 := by decide

theorem witness_LaneScatterEqualsCanonicalBytes : 0 < 2 ^ 128 ∧ 2 ^ 28 < 2 ^ 128 ∧ 2 ^ 128 - 1 < 2 ^ 128 := by decide

theorem witness_ShuffleGatherEqualsGather : (0xE5 :: List.replicate 16 (0xFF : Byte)).length = 17 := by decide

theorem witness_FloatCommandsReverseTheBytes : 15 < Width.w128.bits / 8 ∧ 0 < Width.w8.bits / 8 := by decide

theorem witness_FloatPatternsWithLowByteSetStayLong : (1 : Value).toNat % 256 ≠ 0 ∧ (255 : Value).toNat % 256 ≠ 0 := by
  decide

theorem witness_ZigzagMakesSmallNumbersShort :
    signedOf 8 0xC0 = -64 ∧ signedOf 8 0x3F = 63 ∧ signedOf 16 0xE000 = -8192 ∧ signedOf 16 0x1FFF = 8191 ∧
      signedOf 32 0xFFF00000 = -2 ^ 20 ∧ signedOf 32 0x000FFFFF = 2 ^ 20 - 1 ∧ signedOf 32 0xF8000000 = -2 ^ 27 ∧
      signedOf 32 0x07FFFFFF = 2 ^ 27 - 1 ∧ signedOf 8 0xFF < 0 := by decide

theorem witness_MappedValuesAreNeverTooLarge :
    (∃ p, encz .w8 0x80 0x100 2 (filled 2) = .next p) ∧ (∃ p, sizez .w8 0x80 (filled 2) = .next p) ∧
      (∃ p, encf .w8 0x80 0x100 1 (filled 2) = .next p) ∧ ∃ p, sizef .w8 0x80 (filled 2) = .next p :=
  ⟨⟨_, rfl⟩, ⟨_, rfl⟩, ⟨_, rfl⟩, ⟨_, rfl⟩⟩

/-- The response of a host call. -/
def responseOf : HostCall → Option Response
  | .next (r, _) => some r
  | .fault _ => none
  | .refused _ => none

/-- Mixed widths (R139): `ENCZ.16` of 300 then `DECZ.8` overflows (R83, R88), `ENCZ.16` of -1 then `DECZ.8` gives -1
(R102), and `ENCF.16` of 1 then `DECF.32` a wrong number (R111): notes/assumptions/17.md. -/
theorem test_mixed_widths :
    responseOf (andThen (encz .w16 300 0x100 3 (filled 3)) fun _ t => decz .w8 0x100 3 t) =
        some (Response.blank .overflow) ∧
      responseOf (andThen (encz .w16 0xFFFF 0x100 3 (filled 3)) fun _ t => decz .w8 0x100 3 t) =
        some { Response.okay with val := 0xFF, len := 1 } ∧
      responseOf (andThen (encf .w16 1 0x100 3 (filled 3)) fun _ t => decf .w32 0x100 3 t) =
        some { Response.okay with val := 0x00010000, len := 2 } := by decide

theorem witness_PseudoCommandsRoundTrip : spanUsable (filled 17) ⟨0x100, 17⟩ ∧ worstLen .w128 ≤ 17 := by decide

/-- Store two encodings, decode both, moving the cursor by the first `LEN`, and load the byte at the cursor (program P1 of
`95_test_vectors.md` in small). -/
def twoDecodes : HostProgram (BitVec 128 × Byte) :=
  .store [(0x100, 0x80), (0x101, 0x02), (0x102, 0x05)] <|
    .issue ⟨0x42, 0, 0, 0x100, 3⟩ fun r =>
      .load (0x100 + r.len.toNat) fun b =>
        .issue ⟨0x42, 0, 0, 0x100 + r.len.toNat, 3 - r.len.toNat⟩ fun r' => .finish (r'.val, b)

/-- What its run leaves of each kind: the host variables, the acts, the responses. -/
def twoDecodesActs : List HostAct :=
  [.stored [(0x100, 0x80), (0x101, 0x02), (0x102, 0x05)],
    .issued ⟨0x42, 0, 0, 0x100, 3⟩ { Response.okay with val := 0x80, len := 2 }, .loaded 0x102 0x05,
    .issued ⟨0x42, 0, 0, 0x102, 1⟩ { Response.okay with val := 5, len := 1 }]

theorem test_host_program :
    (match twoDecodes.run State.reset with
      | .next u => some (u.vars, u.acts)
      | .fault _ => none
      | .refused _ => none) = some ((5, 0x05), twoDecodesActs) := by decide

theorem witness_ProgramsAreRunsOverTheirEvents :
    ∃ u, twoDecodes.run State.reset = .next u ∧
      u.acts = twoDecodesActs.take 2 ++ .loaded 0x102 0x05 :: twoDecodesActs.drop 3 := ⟨_, rfl, by decide⟩

/-- A load where there is no memory is refused, as a store there is: notes/assumptions/8.md. -/
theorem test_host_load_outside_memory :
    (match hostLoad 0x50 { State.reset with ram := [⟨0x100, 0x10⟩] } with
      | .next _ => none
      | .fault _ => none
      | .refused e => some e) = some .loadOutsideMemory := by decide

theorem witness_EveryStatusIsInItsRow :
    (∃ t, transact ⟨0x03, 0x100, 0, 0, 0⟩ State.reset = .next t) ∧
      (∃ t, transact ⟨0x00, 0, 0, 0, 0⟩ State.reset = .next t) ∧
      (∀ i, decode ⟨0x00, 0, 0, 0, 0⟩ ≠ .command i) ∧ decode ⟨0x03, 0x100, 0, 0, 0⟩ = .command (.size8 0x100) :=
  have h0 : decode ⟨0x00, 0, 0, 0, 0⟩ = .illegal .noOperation := by decide
  ⟨⟨_, rfl⟩, ⟨_, rfl⟩, fun i h => (nomatch h0.symm.trans h), by decide⟩

theorem witness_ErrorsLeaveTheSystemUnchanged :
    ∃ t p, transact ⟨0x01, 0x80, 0, 0x100, 1⟩ (filled 2) = .next t ∧ t.rsp = some p ∧ p.status ≠ 0 :=
  ⟨_, _, rfl, rfl, by decide⟩

theorem witness_OnlyEncStoresAndOnlyInItsSpan :
    (∃ t, exec (.enc8 0x80 0x100 3) (filled 4) = .next t) ∧ storesTo (.enc8 0x80 0x100 3) 0x101 = true ∧
      storesTo (.enc8 0x80 0x100 3) 0x102 = false := ⟨⟨_, rfl⟩, by decide, by decide⟩

theorem witness_UnusableSpansAreRefused :
    (Instr.dec8 (2 ^ 64) 0).span = some ⟨2 ^ 64, 0⟩ ∧ Span.fitsPorts 64 ⟨2 ^ 64, 0⟩ = false ∧
      Span.fitsPorts 64 ⟨2 ^ 64 - 1, 2⟩ = true ∧ Span.noWrap 64 ⟨2 ^ 64 - 1, 2⟩ = false ∧
      Span.noWrap 64 ⟨2 ^ 64 - 1, 1⟩ = true ∧ spanBacked [⟨0, 2 ^ 64 - 1⟩] ⟨2 ^ 64 - 1, 1⟩ = false := by decide

/-- The host's events of a dutiful run, one of each kind. -/
def dutifulHost : List HostEvent :=
  [.store [(0x100, 0x05)], .command ⟨0x02, 0, 0, 0x100, 1⟩, .commandDuring ⟨0x02, 0, 0, 0x100, 1⟩ [(0x101, 7)],
    .reset .wide]

theorem witness_DutifulHostsAreNeverStopped : ∀ e ∈ dutifulHost, hostDuty { State.reset with host := dutifulHost } e := by
  intro e he
  simp only [dutifulHost, List.mem_cons, List.not_mem_nil, or_false] at he
  rcases he with rfl | rfl | rfl | rfl
  · show ∀ c ∈ [((0x100, 0x05) : Host.Cell)], addressBacked [⟨0, 2 ^ 64⟩] c.1 = true
    decide
  · intro sp h
    have : requestSpan ⟨0x02, 0, 0, 0x100, 1⟩ = some ⟨0x100, 1⟩ := by decide
    rw [this] at h; cases h; decide
  · refine ⟨?_, by decide, ?_⟩
    · intro sp h
      have : requestSpan ⟨0x02, 0, 0, 0x100, 1⟩ = some ⟨0x100, 1⟩ := by decide
      rw [this] at h; cases h; decide
    · show ∀ c ∈ [((0x101, 7) : Host.Cell)], addressBacked [⟨0, 2 ^ 64⟩] c.1 = true
      decide
  · exact trivial

theorem witness_StepKeepsTheInvariant :
    (State.reset.withFetchWord 8 0x09).Inv ∧ ∃ t, step (State.reset.withFetchWord 8 0x09) = .next t :=
  ⟨⟨List.Pairwise.nil, by decide, by decide, by intro r h; cases h⟩, _, rfl⟩

theorem witness_RepeatingACommandChangesNothing :
    Memory.wf (filled 4).mem ∧ ∃ t, exec (.enc8 0x80 0x100 4) (filled 4) = .next t := ⟨by decide, _, rfl⟩

theorem witness_IndependentCommandsCommute :
    independent (.enc8 5 0x100 1) (.dec8 0x101 1) ∧ Memory.wf (filled 2).mem ∧
      (∃ a, exec (.enc8 5 0x100 1) (bench [0xAA, 0x07]) = .next a) ∧
      ∃ c, exec (.dec8 0x101 1) (bench [0xAA, 0x07]) = .next c := by
  refine ⟨⟨fun a sp h hs => ?_, fun a sp h => by cases h⟩, by decide, ⟨_, rfl⟩, _, rfl⟩
  cases hs
  have hc : canonLen (wholeValue 5) = 1 := by decide
  simp only [storesTo, encStores, hc, Bool.and_eq_true, decide_eq_true_eq] at h
  simp only [Span.contains, Bool.and_eq_false_iff, decide_eq_false_iff_not]
  omega

theorem witness_IndependentWritesCannotBeToldApart :
    Memory.wf (filled 2).mem ∧ touches (requestSpan ⟨0x01, 5, 0, 0x100, 1⟩) [(0x101, 7)] = false ∧
      (∀ c ∈ [((0x101, 7) : Host.Cell)], addressBacked (filled 2).ram c.1 = true) ∧
      ∃ t, transact ⟨0x01, 5, 0, 0x100, 1⟩ (filled 2) = .next t := ⟨by decide, by decide, by decide, _, rfl⟩

theorem witness_BrokenDutiesAreRefused : touches (requestSpan ⟨0x01, 5, 0, 0x100, 1⟩) [(0x100, 7)] = true := by decide

theorem witness_HostStoresAreReadBack :
    (∀ c ∈ [((0x100, 1) : Host.Cell), (2 ^ 64 - 1, 2), (0x100, 3)], addressBacked State.reset.ram c.1 = true) ∧
      ([((0x100, 1) : Host.Cell), (2 ^ 64 - 1, 2), (0x100, 3)] = [(0x100, 1), (2 ^ 64 - 1, 2)] ++ (0x100, 3) :: [] ∧
        ∀ c ∈ ([] : List Host.Cell), c.1 ≠ 0x100) ∧
      (∀ c ∈ [((0x100, 1) : Host.Cell), (2 ^ 64 - 1, 2), (0x100, 3)], c.1 ≠ 0x101) ∧
      ∃ c ∈ [((2 ^ 64, 1) : Host.Cell)], addressBacked State.reset.ram c.1 = false := by decide

theorem witness_IdleStepOnlyWithdrawsTheResponse :
    ({ State.reset with rsp := some Response.okay } : State).host = [] := by decide

theorem witness_ResetLeavesMemoryAlone :
    ({ filled 2 with host := [.reset .narrow] } : State).host = .reset .narrow :: [] := by decide

end Sys2Proof.Tests
end

-- ==== The greatest canonical length of each width ====
section
/-! PROOF of `Obligations.WorstLengthByWidth`. A value's canonical length `l` and its size pin each other down to one byte:
the value of `n` whole bytes takes at most `n + 1`, and a value with the top bit of `n` whole bytes set takes no fewer. -/

namespace Sys2Proof.Machine

/-- In the PrefixVarint tier `pv_k` is the least that has room: the value needs more than `7k` bits (R57, R60). -/
theorem two_pow_le_of_pvK {v k : Nat} (h7 : 2 ^ 7 ≤ v) (h : pvK v = some k) : 2 ^ (7 * k) ≤ v := by
  rw [pvK_eq] at h
  split at h
  · cases h; exact h7
  · split at h
    · cases h; omega
    · split at h
      · cases h; omega
      · cases h

/-- What `canon_len` answers for a value of the port, with the range of values of each answer (R57 to R62). -/
theorem canonLen_cases {v : Nat} (h : v < 2 ^ 128) :
    (v < 2 ^ 7 ∧ canonLen v = 1) ∨
    (∃ k, 1 ≤ k ∧ k ≤ 3 ∧ 2 ^ (7 * k) ≤ v ∧ v < 2 ^ (7 + 7 * k) ∧ canonLen v = k + 1) ∨
    ∃ n, 4 ≤ n ∧ n ≤ 16 ∧ 2 ^ 28 ≤ v ∧ (n = 4 ∨ 2 ^ (8 * (n - 1)) ≤ v) ∧ v < 2 ^ (8 * n) ∧ canonLen v = n + 1 := by
  by_cases h7 : v < 2 ^ 7
  · exact .inl ⟨h7, by simp only [canonLen, tierOfValue, if_pos h7]⟩
  by_cases h28 : v < 2 ^ 28
  · obtain ⟨k, hk⟩ := pvK_isSome h28
    obtain ⟨hk1, hk3, hroom⟩ := pvK_spec hk
    have hlen : canonLen v = k + 1 := by
      simp only [canonLen, tierOfValue, if_neg h7, if_pos h28, hk, Option.getD_some]
    exact .inr (.inl ⟨k, hk1, hk3, two_pow_le_of_pvK (Nat.not_lt.1 h7) hk, hroom, hlen⟩)
  · obtain ⟨h4, h16, hroom, hleast⟩ := lpN_spec h
    have hlen : canonLen v = lpN v + 1 := by simp only [canonLen, tierOfValue, if_neg h7, if_neg h28]
    exact .inr (.inr ⟨lpN v, h4, h16, Nat.not_lt.1 h28, hleast, hroom, hlen⟩)

theorem lt_of_two_pow_le_of_lt_two_pow {a b v : Nat} (ha : 2 ^ a ≤ v) (hb : v < 2 ^ b) : a < b :=
  (Nat.pow_lt_pow_iff_right Nat.one_lt_two).1 (ha.trans_lt hb)

/-- A value of `n` whole bytes takes at most one byte more (R62). -/
theorem canonLen_le_of_lt_two_pow {v n : Nat} (hn : n ≤ 16) (h : v < 2 ^ (8 * n)) : canonLen v ≤ n + 1 := by
  have hport : v < 2 ^ 128 := h.trans_le (Nat.pow_le_pow_right Nat.two_pos (by omega))
  obtain ⟨-, hlen⟩ | ⟨k, -, hk3, hlow, -, hlen⟩ | ⟨m, -, -, h28, hleast, -, hlen⟩ := canonLen_cases hport
  · omega
  · have := lt_of_two_pow_le_of_lt_two_pow hlow h
    omega
  · have := lt_of_two_pow_le_of_lt_two_pow h28 h
    obtain rfl | hlow := hleast
    · omega
    · have := lt_of_two_pow_le_of_lt_two_pow hlow h
      omega

/-- A value of the port with the top bit of `n` whole bytes, or a higher one, takes more than `n` bytes (R62). -/
theorem lt_canonLen_of_two_pow_le {v n : Nat} (hport : v < 2 ^ 128) (h : 2 ^ (8 * n - 1) ≤ v) : n < canonLen v := by
  obtain ⟨hroom, hlen⟩ | ⟨k, -, hk3, -, hroom, hlen⟩ | ⟨m, -, -, -, -, hroom, hlen⟩ := canonLen_cases hport
  all_goals
    have := lt_of_two_pow_le_of_lt_two_pow h hroom
    omega

/-- A width is a number of whole bytes, one fewer than the length R6 gives for it. -/
theorem width_bits_eq_worstLen (w : Width) : ∃ n, 1 ≤ n ∧ n ≤ 16 ∧ w.bits = 8 * n ∧ worstLen w = n + 1 := by
  cases w with
  | w8 => exact ⟨1, by decide⟩
  | w16 => exact ⟨2, by decide⟩
  | w32 => exact ⟨4, by decide⟩
  | w64 => exact ⟨8, by decide⟩
  | w128 => exact ⟨16, by decide⟩

/-- Settles O15: no value of `n` whole bytes takes more than `n + 1`, and the value of the top bit alone takes as many. -/
theorem worstLengthByWidth : Obligations.WorstLengthByWidth := by
  intro w
  obtain ⟨n, hn1, hn16, hbits, hworst⟩ := width_bits_eq_worstLen w
  rw [hbits, hworst]
  have hle : ∀ v, v < 2 ^ (8 * n) → canonLen v ≤ n + 1 := fun _ => canonLen_le_of_lt_two_pow hn16
  have htop : 2 ^ (8 * n - 1) < 2 ^ (8 * n) := Nat.pow_lt_pow_right Nat.one_lt_two (by omega)
  have hport : 2 ^ (8 * n - 1) < 2 ^ 128 := Nat.pow_lt_pow_right Nat.one_lt_two (by omega)
  exact ⟨hle, 2 ^ (8 * n - 1), htop, (hle _ htop).antisymm (lt_canonLen_of_two_pow_le hport le_rfl)⟩

end Sys2Proof.Machine
end

-- ==== The legal command words ====
section
/-! PROOF of `Obligations.FortyOneLegalWords`. Legality is put between the decoder and the table of R45 as a condition on
the three fields of the command word (R41 to R43): the decoder answers a command exactly when the condition holds, whatever
the operand fields are, and the words that meet it are those of the table. -/

namespace Sys2Proof

/-- The values of `OP` of the width-taking commands (R42). -/
def sizedOps : List Nat := [0x1, 0x2, 0x3, 0xA, 0xB, 0xC, 0xD]

/-- The values of `OP` of the width-less commands (R42). -/
def unsizedOps : List Nat := [0x4, 0x5, 0x6, 0x7, 0x8, 0x9]

/-- A command word is legal by its fields: `Z` is 0, and `WSEL` names a width where `OP` takes one and is `000` where it
takes none (R40 to R43). -/
def LegalFields (c : BitVec 8) : Prop :=
  zField c ≠ 1#1 ∧
    ((opField c).toNat ∈ sizedOps ∧ (widthOfWsel (wselField c)).isSome ∨
      (opField c).toNat ∈ unsizedOps ∧ wselField c = 0#3)

variable {r : Request}

theorem legalFields_of_decode_command {i : Instr} (h : decode r = .command i) : LegalFields r.cmd := by
  obtain ⟨hz, hop⟩ := decode_command h
  refine ⟨hz, ?_⟩
  obtain ⟨ho, w, hw, -⟩ | ⟨ho, w, hw, -⟩ | ⟨ho, w, hw, -⟩ | ⟨ho, hw, -⟩ | ⟨ho, hw, -⟩ | ⟨ho, hw, -⟩ | ⟨ho, hw, -⟩ |
    ⟨ho, hw, -⟩ | ⟨ho, hw, -⟩ | ⟨ho, w, hw, -⟩ | ⟨ho, w, hw, -⟩ | ⟨ho, w, hw, -⟩ | ⟨ho, w, hw, -⟩ := hop
  all_goals simp [ho, hw, sizedOps, unsizedOps]

theorem exists_decode_of_sizedOps {w : Width} (hz : zField r.cmd ≠ 1#1) (ho : (opField r.cmd).toNat ∈ sizedOps)
    (hw : widthOfWsel (wselField r.cmd) = some w) : ∃ i, decode r = .command i := by
  simp only [sizedOps, List.mem_cons, List.not_mem_nil, or_false] at ho
  obtain ho | ho | ho | ho | ho | ho | ho := ho
  · exact ⟨_, decode_enc hz ho hw⟩
  · exact ⟨_, decode_dec hz ho hw⟩
  · exact ⟨_, decode_size hz ho hw⟩
  · exact ⟨_, decode_zze hz ho hw⟩
  · exact ⟨_, decode_zzd hz ho hw⟩
  · exact ⟨_, decode_ftu hz ho hw⟩
  · exact ⟨_, decode_utf hz ho hw⟩

theorem exists_decode_of_unsizedOps (hz : zField r.cmd ≠ 1#1) (ho : (opField r.cmd).toNat ∈ unsizedOps)
    (hw : wselField r.cmd = 0#3) : ∃ i, decode r = .command i := by
  simp only [unsizedOps, List.mem_cons, List.not_mem_nil, or_false] at ho
  obtain ho | ho | ho | ho | ho | ho := ho
  · exact ⟨_, decode_cls hz ho hw⟩
  · exact ⟨_, decode_pvp hz ho hw⟩
  · exact ⟨_, decode_lpp hz ho hw⟩
  · exact ⟨_, decode_hdr hz ho hw⟩
  · exact ⟨_, decode_gath hz ho hw⟩
  · exact ⟨_, decode_scat hz ho hw⟩

/-- Whether a request decodes to a command is decided by the fields of its command word alone (R119). -/
theorem exists_decode_iff_legalFields : (∃ i, decode r = .command i) ↔ LegalFields r.cmd := by
  constructor
  · rintro ⟨i, h⟩
    exact legalFields_of_decode_command h
  · rintro ⟨hz, ⟨ho, hsome⟩ | ⟨ho, hw⟩⟩
    · obtain ⟨w, hw⟩ := Option.isSome_iff_exists.1 hsome
      exact exists_decode_of_sizedOps hz ho hw
    · exact exists_decode_of_unsizedOps hz ho hw

/-- The words legal by their fields are those the table of R45 lists. -/
theorem legalFields_iff_mem_legalWords (c : BitVec 8) : LegalFields c ↔ c ∈ legalWords := by
  unfold LegalFields
  revert c
  decide

/-- Settles O3: the decoder and the table agree on the fields of each of the 256 words; the mnemonics' words are read off
the encoder. -/
theorem fortyOneLegalWords : Obligations.FortyOneLegalWords := by
  have hlegal (r : Request) : (∃ i, decode r = .command i) ↔ r.cmd ∈ legalWords :=
    exists_decode_iff_legalFields.trans (legalFields_iff_mem_legalWords r.cmd)
  have hnodup : legalWords.Nodup := by decide
  refine ⟨hlegal, hnodup, rfl, ?enc, ?dec, ?size, ?zze, ?zzd, ?ftu, ?utf, ?unsized⟩
  case enc => exact fun _ _ _ => ⟨rfl, rfl, rfl, rfl, rfl⟩
  case dec => exact fun _ _ => ⟨rfl, rfl, rfl, rfl, rfl⟩
  case unsized => exact fun _ _ => ⟨rfl, rfl, rfl, rfl, rfl, rfl⟩
  all_goals exact fun _ => ⟨rfl, rfl, rfl, rfl, rfl⟩

end Sys2Proof
end

-- ==== The canonical encoding and what it holds ====
section
/-! Further facts of the wire format, in the order of its definitions: bit lengths, the least parameters, the class of a
value (tier, parameter, length), and what a first byte declares and an encoding holds for each of the three forms. -/

namespace Sys2Proof.Machine

/-! ### Bit lengths -/

/-- `bitlen` is the least number of bits that hold the value (R7). -/
theorem bitlen_le_iff {v m : Nat} : bitlen v ≤ m ↔ v < 2 ^ m := by
  unfold bitlen
  split
  · next h => simp [h]
  · next h => exact Nat.log2_lt h

theorem lt_bitlen_iff {v m : Nat} : m < bitlen v ↔ 2 ^ m ≤ v := by
  rw [← not_le, bitlen_le_iff, not_lt]

/-- In a field that holds the value, the bits below the leading zeros are those of its bit length (R7, R59). -/
theorem sub_clz_eq_bitlen {n v : Nat} (h : v < 2 ^ n) : n - clz n v = bitlen v := by
  have := bitlen_le_iff.2 h
  unfold clz
  omega

/-! ### The least parameters -/

/-- `pv_k` has no answer exactly from `2^28` on (R60, R69). -/
theorem pvK_eq_none_iff {v : Nat} : pvK v = none ↔ 2 ^ 28 ≤ v := by
  rw [pvK_eq]
  split_ifs <;> simp <;> omega

/-- No smaller parameter has room for the value (R60). -/
theorem two_pow_le_of_lt_pvK {v k j : Nat} (h : pvK v = some k) (hj1 : 1 ≤ j) (hjk : j < k) :
    2 ^ (7 + 7 * j) ≤ v := by
  by_cases h7 : 2 ^ 7 ≤ v
  · exact (Nat.pow_le_pow_right Nat.two_pos (by omega)).trans (two_pow_le_of_pvK h7 h)
  · rw [pvK_eq, if_pos (by omega)] at h
    cases h
    omega

/-- No smaller number of bytes, from 4 on, has room for the value (R61). -/
theorem two_pow_le_of_lt_lpN {v j : Nat} (h : v < 2 ^ 128) (hj4 : 4 ≤ j) (hj : j < lpN v) : 2 ^ (8 * j) ≤ v := by
  obtain ⟨-, -, -, h4 | hlow⟩ := lpN_spec h
  · omega
  · exact (Nat.pow_le_pow_right Nat.two_pos (by omega)).trans hlow

/-- `lp_n` by its formula: the bit length in whole bytes, and at least 4 (R61). -/
theorem lpN_eq {v : Nat} (h : v < 2 ^ 128) : lpN v = max 4 (max 1 (ceilDiv (bitlen v) 8)) := by
  obtain ⟨h4, -, hroom, hleast⟩ := lpN_spec h
  rw [← bitlen_le_iff] at hroom
  rw [← lt_bitlen_iff] at hleast
  unfold ceilDiv
  omega

/-! ### The class of a value -/

/-- The code of a value's tier, by the bounds of R57. -/
theorem tierOfValue_code (v : Nat) :
    (tierOfValue v).code = if v < 2 ^ 7 then 0 else if v < 2 ^ 28 then 1 else 2 := by
  unfold tierOfValue
  split_ifs <;> rfl

/-- In every tier the canonical encoding is one byte longer than its parameter (R62). -/
theorem canonLen_eq_tierParam_succ (v : Nat) : canonLen v = tierParam v + 1 := by
  unfold canonLen tierParam
  cases tierOfValue v <;> rfl

/-- The class of a value of the port, with the range of values of each (R57, R60, R61). -/
theorem tier_cases {v : Nat} (h : v < 2 ^ 128) :
    (v < 2 ^ 7 ∧ tierOfValue v = .immediate ∧ tierParam v = 0) ∨
    (∃ k, 1 ≤ k ∧ k ≤ 3 ∧ 2 ^ (7 * k) ≤ v ∧ v < 2 ^ (7 + 7 * k) ∧ tierOfValue v = .prefixVarint ∧ tierParam v = k) ∨
    ∃ n, 4 ≤ n ∧ n ≤ 16 ∧ 2 ^ 28 ≤ v ∧ (n = 4 ∨ 2 ^ (8 * (n - 1)) ≤ v) ∧ v < 2 ^ (8 * n) ∧
      tierOfValue v = .lengthPrefixed ∧ tierParam v = n := by
  have hlen := canonLen_eq_tierParam_succ v
  obtain ⟨h7, hl⟩ | ⟨k, hk1, hk3, hlow, hroom, hl⟩ | ⟨n, hn4, hn16, h28, hleast, hroom, hl⟩ := canonLen_cases h
  · exact .inl ⟨h7, if_pos h7, by omega⟩
  · have h7 : 2 ^ 7 ≤ v := (Nat.pow_le_pow_right Nat.two_pos (by omega)).trans hlow
    have h28 : v < 2 ^ 28 := hroom.trans_le (Nat.pow_le_pow_right Nat.two_pos (by omega))
    have htier : tierOfValue v = .prefixVarint := by rw [tierOfValue, if_neg h7.not_gt, if_pos h28]
    exact .inr (.inl ⟨k, hk1, hk3, hlow, hroom, htier, by omega⟩)
  · have htier : tierOfValue v = .lengthPrefixed := by rw [tierOfValue, if_neg (by omega), if_neg (by omega)]
    exact .inr (.inr ⟨n, hn4, hn16, h28, hleast, hroom, htier, by omega⟩)

/-- The canonical encoding of each tier is the tier's layout with the value's parameter (R63). -/
theorem canonBytes_of_immediate {v : Nat} (h : tierOfValue v = .immediate) : canonBytes v = [byteOf v] := by
  simp only [canonBytes, h]

theorem canonBytes_of_prefixVarint {v : Nat} (h : tierOfValue v = .prefixVarint) :
    canonBytes v = pvLayout (tierParam v) v := by
  simp only [canonBytes, tierParam, h]

theorem canonBytes_of_lengthPrefixed {v : Nat} (h : tierOfValue v = .lengthPrefixed) :
    canonBytes v = lpLayout (tierParam v) v := by
  simp only [canonBytes, tierParam, h]

/-! ### What each form declares and holds -/

/-- A byte below `0x80` declares itself: one byte (R54, R64). -/
theorem hdr_byteOf {v : Nat} (h : v < 2 ^ 7) : hdr (byteOf v) = ⟨.immediate, 0, 1⟩ := by
  rw [hdr_cases, byteOf_toNat, if_pos (by omega)]

theorem gather_immediate {v : Nat} (h : v < 2 ^ 7) : gather [byteOf v] = v := by
  simp only [gather, byteAt_cons_zero, hdr_byteOf h, byteOf_toNat]
  omega

/-- The first byte of a PrefixVarint layout declares the layout's parameter (R55, R64). -/
theorem hdr_pvLayout {k : Nat} (d : Nat) (hk1 : 1 ≤ k) (hk3 : k ≤ 3) :
    hdr (byteAt (pvLayout k d) 0) = ⟨.prefixVarint, k, k + 1⟩ := by
  rw [hdr_cases, pvLayout, byteAt_cons_zero, byteOf_toNat]
  obtain rfl | rfl | rfl : k = 1 ∨ k = 2 ∨ k = 3 := by omega
  · rw [if_neg (by omega), if_pos (by omega)]
  · rw [if_neg (by omega), if_neg (by omega), if_pos (by omega)]
  · rw [if_neg (by omega), if_neg (by omega), if_neg (by omega), if_pos (by omega)]

/-- The little-endian number of a byte list as a sum over its bytes, scaled by `2^c` (R7). -/
theorem two_pow_mul_le (c : Nat) (bs : List Byte) :
    2 ^ c * le bs = ((List.range bs.length).map fun i => (byteAt bs i).toNat * 2 ^ (c + 8 * i)).sum := by
  induction bs generalizing c with
  | nil => rfl
  | cons b bs ih =>
    have hshift (i : Nat) : c + 8 * (i + 1) = c + 8 + 8 * i := by omega
    simp only [List.length_cons, List.range_succ_eq_map, List.map_cons, List.map_map, Function.comp_def,
      List.sum_cons, Nat.succ_eq_add_one, byteAt_cons_zero, byteAt_cons_succ, hshift, ← ih, le]
    ring

/-- The bytes of a PrefixVarint layout after the first are those of the value's upper bits (R55). -/
theorem pvLayout_eq (k d : Nat) :
    pvLayout k d = byteOf ((0xFF <<< (8 - k)) % 256 + d % 2 ^ (7 - k)) :: bytesLe (d >>> (7 - k)) k := by
  simp only [pvLayout, bytesLe, List.range'_eq_map_range, List.map_map, Function.comp_def, bitsOf,
    Nat.add_sub_cancel_left, Nat.shiftRight_add, Nat.reduceAdd, Nat.reducePow]

/-- A PrefixVarint byte list holds the low bits of its first byte and, above them, the number of the others (R65). -/
theorem gatherPv_cons (b : Byte) (bs : List Byte) :
    gatherPv bs.length (b :: bs) = b.toNat % 2 ^ (7 - bs.length) + 2 ^ (7 - bs.length) * le bs := by
  simp only [gatherPv, List.range'_eq_map_range, List.map_map, Function.comp_def, Nat.add_comm 1,
    Nat.add_sub_cancel, byteAt_cons_zero, byteAt_cons_succ, two_pow_mul_le]

/-- The low bits of a PrefixVarint layout's first byte are the value's (R55). -/
theorem pvLayout_head_low {k : Nat} (d : Nat) (hk1 : 1 ≤ k) (hk3 : k ≤ 3) :
    (byteOf ((0xFF <<< (8 - k)) % 256 + d % 2 ^ (7 - k))).toNat % 2 ^ (7 - k) = d % 2 ^ (7 - k) := by
  rw [byteOf_toNat]
  obtain rfl | rfl | rfl : k = 1 ∨ k = 2 ∨ k = 3 := by omega
  all_goals omega

/-- The `7-k` low bits and the `k` whole bytes of a PrefixVarint layout make up the value (R55, R65). -/
theorem gather_pvLayout {k d : Nat} (hk1 : 1 ≤ k) (hk3 : k ≤ 3) (h : d < 2 ^ (7 + 7 * k)) :
    gather (pvLayout k d) = d := by
  have hgather : gather (pvLayout k d) = gatherPv k (pvLayout k d) := by
    simp only [gather, hdr_pvLayout d hk1 hk3]
  have hhigh : d / 2 ^ (7 - k) < 256 ^ k := by
    apply Nat.div_lt_of_lt_mul
    rwa [show 256 = 2 ^ 8 from rfl, ← pow_mul, ← pow_add, show 7 - k + 8 * k = 7 + 7 * k by omega]
  have hcons := gatherPv_cons (byteOf ((0xFF <<< (8 - k)) % 256 + d % 2 ^ (7 - k))) (bytesLe (d >>> (7 - k)) k)
  rw [bytesLe_length, ← pvLayout_eq, pvLayout_head_low d hk1 hk3, le_bytesLe, Nat.shiftRight_eq_div_pow,
    Nat.mod_eq_of_lt hhigh, Nat.mod_add_div] at hcons
  exact hgather.trans hcons

/-- The first byte of a LengthPrefixed layout declares the layout's parameter (R56, R64). -/
theorem hdr_lpLayout {n : Nat} (d : Nat) (hn1 : 1 ≤ n) (hn16 : n ≤ 16) :
    hdr (byteAt (lpLayout n d) 0) = ⟨.lengthPrefixed, n, n + 1⟩ := by
  have hbyte : (byteAt (lpLayout n d) 0).toNat = 0xF0 + (n - 1) := by
    rw [lpLayout, byteAt_cons_zero, byteOf_toNat]
    omega
  rw [hdr_cases, hbyte, if_neg (by omega), if_neg (by omega), if_neg (by omega), if_neg (by omega)]
  congr 1 <;> omega

/-- Bytes 1 onwards of a byte list are its tail. -/
theorem map_byteAt_cons (b : Byte) (bs : List Byte) :
    (List.range' 1 bs.length).map (byteAt (b :: bs)) = bs := by
  refine List.ext_getElem (by simp) fun i _ hi => ?_
  simp [byteAt, hi, Nat.add_comm 1 i]

/-- The bytes after the header of a LengthPrefixed layout are those of the value (R56, R65). -/
theorem gather_lpLayout {n d : Nat} (hn1 : 1 ≤ n) (hn16 : n ≤ 16) (h : d < 2 ^ (8 * n)) :
    gather (lpLayout n d) = d := by
  have htail := map_byteAt_cons (byteOf (0xF0 + (n - 1))) (bytesLe d n)
  rw [bytesLe_length] at htail
  simp only [gather, hdr_lpLayout d hn1 hn16, gatherLp]
  rw [lpLayout, htail, le_bytesLe]
  exact Nat.mod_eq_of_lt (by rwa [pow_mul] at h)

/-! ### The canonical encoding -/

/-- The first byte of the canonical encoding declares the value's own class (R62 to R64). -/
theorem hdr_canonBytes {v : Nat} (h : v < 2 ^ 128) :
    hdr (byteAt (canonBytes v) 0) = ⟨tierOfValue v, tierParam v, canonLen v⟩ := by
  rw [canonLen_eq_tierParam_succ]
  obtain ⟨h7, htier, hp⟩ | ⟨k, hk1, hk3, -, -, htier, hp⟩ | ⟨n, hn4, hn16, -, -, -, htier, hp⟩ := tier_cases h
  · rw [canonBytes_of_immediate htier, byteAt_cons_zero, hdr_byteOf h7, htier, hp]
  · rw [canonBytes_of_prefixVarint htier, hp, hdr_pvLayout v hk1 hk3, htier]
  · rw [canonBytes_of_lengthPrefixed htier, hp, hdr_lpLayout v (by omega) hn16, htier]

/-- The canonical encoding holds its value (R63, R65). -/
theorem gather_canonBytes {v : Nat} (h : v < 2 ^ 128) : gather (canonBytes v) = v := by
  obtain ⟨h7, htier, -⟩ | ⟨k, hk1, hk3, -, hroom, htier, hp⟩ | ⟨n, hn4, hn16, -, -, hroom, htier, hp⟩ := tier_cases h
  · rw [canonBytes_of_immediate htier, gather_immediate h7]
  · rw [canonBytes_of_prefixVarint htier, hp, gather_pvLayout hk1 hk3 hroom]
  · rw [canonBytes_of_lengthPrefixed htier, hp, gather_lpLayout (by omega) hn16 hroom]

/-- The canonical encoding is as long as its first byte declares (R9, R63). -/
theorem structurallyValid_canonBytes {v : Nat} (h : v < 2 ^ 128) : structurallyValid (canonBytes v) = true := by
  rw [structurallyValid, hdr_canonBytes h, canonBytes_length, decide_eq_true_eq]

end Sys2Proof.Machine
end

-- ==== The bit-layout commands and the round trip ====
section
/-! PROOFS of the statements on `CLS`, `PVP`, `LPP`, `HDR`, on the classification by leading zeros, and on `ENC.W` followed
by `DEC.W`: the commands' answers in terms of the wire format, whose facts stand above. -/

namespace Sys2Proof.Machine

/-! ### `ENC.W`, then `DEC.W` -/

theorem byteAt_readBytes {m : Memory} {addr n i : Nat} (h : i < n) :
    byteAt (Memory.readBytes m addr n) i = Memory.read m (addr + i) := by
  simp [byteAt, Memory.readBytes, h]

/-- `ENC.W` of a value that fits, on a usable span with room for its encoding, stores it (R75, R78). -/
theorem encodeValue_of_room {w : Width} {val : Value} {sp : Span} {s : State} (hu : spanUsable s sp)
    (hfit : val.toNat < 2 ^ w.bits) (hroom : canonLen val.toNat ≤ sp.cap) :
    encodeValue w val sp s =
      .next (State.answer { s with mem := Memory.writeBytes s.mem sp.base (canonBytes val.toNat) }
        { Response.okay with len := count (canonLen val.toNat) }) := by
  rw [encodeValue_usable hu, if_neg hfit.not_ge, if_neg hroom.not_gt]

/-- `DEC.W` on a usable span that begins with a structurally valid encoding answers the value held and the encoding's
length, or `Overflow` (R82). -/
theorem decodeSpan_of_structurallyValid {w : Width} {sp : Span} {s : State} {bs : List Byte} (hu : spanUsable s sp)
    (hvalid : structurallyValid bs = true) (hroom : bs.length ≤ sp.cap)
    (hmem : Memory.readBytes s.mem sp.base bs.length = bs) :
    decodeSpan w sp s = .next (s.answer
      (if gather bs < 2 ^ w.bits then
        { Response.okay with val := BitVec.ofNat 128 (gather bs), len := count bs.length }
      else Response.blank .overflow)) := by
  have hlen : (hdr (byteAt bs 0)).len = bs.length := (of_decide_eq_true hvalid).symm
  have hpos : 0 < bs.length := hlen ▸ (hdr_len_bounds _).1
  have hfirst : Memory.read s.mem sp.base = byteAt bs 0 := by
    rw [← hmem, byteAt_readBytes hpos, Nat.add_zero]
  rw [decodeSpan_usable hu, hfirst, hlen, hmem, if_neg (by omega)]
  by_cases hfit : gather bs < 2 ^ w.bits
  · rw [if_neg hfit.not_ge, if_pos hfit]
  · rw [if_pos (not_lt.1 hfit), if_neg hfit]

/-- Settles O25: the stored bytes are read back, and they are a structurally valid encoding that holds the value. -/
theorem encThenDecRoundTrip : Obligations.EncThenDecRoundTrip := by
  intro w val base cap s hu hfit hroom
  have hsize : sizeOfValue w val s = .next (s.answer { Response.okay with len := count (canonLen val.toNat) }) := by
    obtain ⟨hbig, -⟩ | ⟨-, h⟩ := sizeOfValue_cases w val s
    · exact absurd hfit hbig.not_gt
    · exact h
  refine ⟨_, (exec_encInstr ..).trans (encodeValue_of_room hu hfit hroom), rfl, ?dec, (exec_sizeInstr ..).trans hsize⟩
  rw [exec_decInstr, decodeSpan_of_structurallyValid (bs := canonBytes val.toNat), gather_canonBytes val.isLt,
    if_pos hfit, canonBytes_length, BitVec.ofNat_toNat, BitVec.setWidth_eq]
  case hu => exact hu
  case hvalid => exact structurallyValid_canonBytes val.isLt
  case hroom => rwa [canonBytes_length]
  case hmem => exact Memory.readBytes_writeBytes ..

/-! ### The bit-layout commands -/

theorem exec_cls (val : Value) (s : State) :
    exec (.cls val) s = .next (s.answer { Response.okay with tier := (tierOfValue val.toNat).code }) := rfl

theorem exec_pvp (val : Value) (s : State) : exec (.pvp val) s = execPvp val s := rfl

theorem exec_lpp (val : Value) (s : State) :
    exec (.lpp val) s = .next (s.answer
      { Response.okay with aux := count (lpN val.toNat), len := count (lpN val.toNat + 1) }) := rfl

theorem exec_hdr (val : Value) (s : State) :
    exec (.hdr val) s = .next (s.answer { Response.okay with
      tier := (hdr (lowByte val)).tier.code
      aux := count (hdr (lowByte val)).param
      len := count (hdr (lowByte val)).len }) := rfl

/-- Settles O8: `PVP` answers by `pv_k`, which has no answer from `2^28` on and the least one below. -/
theorem pvpAnswersTheLeastK : Obligations.PvpAnswersTheLeastK := by
  intro val s
  refine ⟨rfl, fun hbig => ?large, fun hsmall => ?answered⟩ <;> rw [exec_pvp]
  case large =>
    obtain ⟨-, h⟩ | ⟨k, hk, -⟩ := execPvp_cases val s
    · exact h
    · rw [pvK_eq_none_iff.2 hbig] at hk
      cases hk
  case answered =>
    obtain ⟨hnone, -⟩ | ⟨k, hk, h⟩ := execPvp_cases val s
    · exact absurd hsmall (pvK_eq_none_iff.1 hnone).not_gt
    · obtain ⟨hk1, hk3, hroom⟩ := pvK_spec hk
      exact ⟨k, hk1, hk3, hroom, fun j => two_pow_le_of_lt_pvK hk, h⟩

/-- Settles O9: `LPP` answers `lp_n`, which is the least and agrees with the formula. -/
theorem lppAnswersTheLeastN : Obligations.LppAnswersTheLeastN := by
  intro val s
  obtain ⟨h4, h16, hroom, -⟩ := lpN_spec val.isLt
  exact ⟨rfl, lpN val.toNat, h4, h16, hroom, fun j => two_pow_le_of_lt_lpN val.isLt, lpN_eq val.isLt, exec_lpp val s⟩

/-- Settles O17: the ranges of the classes, read as ranges of the bit length, are the rows of R59's table. -/
theorem leadingZerosClassifyAValue : Obligations.LeadingZerosClassifyAValue := by
  intro v h
  have hclass := tier_cases h
  simp only [← bitlen_le_iff, ← lt_bitlen_iff] at hclass
  simp only [classifyByLeadingZeros, sub_clz_eq_bitlen h, canonLen_eq_tierParam_succ, ceilDiv]
  obtain ⟨h7, htier, hp⟩ | ⟨k, hk1, hk3, hlow, hroom, htier, hp⟩ | ⟨n, hn4, hn16, h28, hleast, hroom, htier, hp⟩ := hclass
  all_goals rw [htier, hp]
  · exact ⟨if_pos h7, fun _ _ => by omega⟩
  · refine ⟨?_, fun _ _ => by omega⟩
    obtain rfl | rfl | rfl : k = 1 ∨ k = 2 ∨ k = 3 := by omega
    · rw [if_neg (by omega), if_pos (by omega)]
    · rw [if_neg (by omega), if_neg (by omega), if_pos (by omega)]
    · rw [if_neg (by omega), if_neg (by omega), if_neg (by omega), if_pos (by omega)]
  · refine ⟨?_, fun _ _ => by omega⟩
    rw [if_neg (by omega), if_neg (by omega), if_neg (by omega), if_neg (by omega)]
    by_cases h32 : bitlen v ≤ 32
    · obtain rfl : n = 4 := by omega
      exact if_pos h32
    · obtain rfl : (bitlen v + 7) / 8 = n := by omega
      exact if_neg h32

/-- Settles O7: `CLS` answers the code of the value's tier. -/
theorem clsAnswersTheTier : Obligations.ClsAnswersTheTier := by
  intro val s
  rw [exec_cls, tierOfValue_code]
  exact ⟨rfl, rfl⟩

/-- Settles O10: `HDR` answers what the low byte declares, and the declaration is the row of R64 the byte falls in. -/
theorem hdrAnswersByTheFirstByte : Obligations.HdrAnswersByTheFirstByte := by
  intro val s
  have hbyte : (lowByte val).toNat = val.toNat % 256 := BitVec.toNat_setWidth ..
  have hnibble : val.toNat % 256 % 16 = val.toNat % 16 := Nat.mod_mod_of_dvd _ (by norm_num)
  rw [exec_hdr, hdr_cases, hbyte, hnibble]
  refine ⟨rfl, ?_⟩
  split_ifs <;> rfl

end Sys2Proof.Machine
end

-- ==== The codec commands ====
section
/-! PROOFS of the statements on `ENC.W`, `DEC.W` and `SIZE.W`. The commands' answers are those of `encodeValue_usable`,
`decodeSpan_usable` and `sizeOfValue_cases`; what is new here is the range of values that can stand
behind a first byte. -/

namespace Sys2Proof.Machine

/-! ### Command words, counts and responses -/

@[simp] theorem commandWord_encInstr (w : Width) (val : Value) (base cap : Nat) :
    commandWord (encInstr w val base cap) = sizedWord 0x1#4 w := by cases w <;> rfl

@[simp] theorem commandWord_decInstr (w : Width) (base cap : Nat) :
    commandWord (decInstr w base cap) = sizedWord 0x2#4 w := by cases w <;> rfl

@[simp] theorem commandWord_sizeInstr (w : Width) (val : Value) :
    commandWord (sizeInstr w val) = sizedWord 0x3#4 w := by cases w <;> rfl

/-- The 5-bit field `LEN` holds every canonical length (R14, R62). -/
theorem count_canonLen_toNat (val : Value) : (count (canonLen val.toNat)).toNat = canonLen val.toNat := by
  obtain ⟨-, h17⟩ := canonLen_bounds val.isLt
  rw [count, BitVec.toNat_ofNat, Nat.mod_eq_of_lt (by omega)]

/-- An `OK` is told from an error by its status (R114). -/
theorem okay_len_ne_blank {k : Status} (hk : k.code ≠ Status.ok.code) (n : BitVec 5) :
    { Response.okay with len := n } ≠ Response.blank k :=
  fun h => hk (congrArg Response.status h).symm

theorem sizeOfValue_of_fits {w : Width} {val : Value} (s : State) (hfit : val.toNat < 2 ^ w.bits) :
    sizeOfValue w val s = .next (s.answer { Response.okay with len := count (canonLen val.toNat) }) := by
  obtain ⟨hbig, -⟩ | ⟨-, h⟩ := sizeOfValue_cases w val s
  · exact absurd hfit hbig.not_gt
  · exact h

theorem sizeOfValue_of_tooLarge {w : Width} {val : Value} (s : State) (hbig : 2 ^ w.bits ≤ val.toNat) :
    sizeOfValue w val s = .next (s.answer (Response.blank .valueTooLarge)) := by
  obtain ⟨-, h⟩ | ⟨hfit, -⟩ := sizeOfValue_cases w val s
  · exact h
  · exact absurd hfit hbig.not_gt

theorem encodeValue_of_short {w : Width} {val : Value} {sp : Span} {s : State} (hu : spanUsable s sp)
    (hfit : val.toNat < 2 ^ w.bits) (hshort : sp.cap < canonLen val.toNat) :
    encodeValue w val sp s = .next (s.answer (Response.blank .bufferTooSmall)) := by
  rw [encodeValue_usable hu, if_neg hfit.not_ge, if_pos hshort]

/-! ### `ENC.W`, and `DEC.W` of another width after it -/

/-- `DEC.W` on a usable span that begins with a canonical encoding answers its value and length, or
`Overflow` (R67, R88). -/
theorem decodeSpan_of_canonBytes {w : Width} {val : Value} {sp : Span} {s : State} (hu : spanUsable s sp)
    (hroom : canonLen val.toNat ≤ sp.cap)
    (hmem : Memory.readBytes s.mem sp.base (canonLen val.toNat) = canonBytes val.toNat) :
    decodeSpan w sp s = .next (s.answer
      (if val.toNat < 2 ^ w.bits then { Response.okay with val := val, len := count (canonLen val.toNat) }
      else Response.blank .overflow)) := by
  rw [← canonBytes_length] at hroom hmem
  rw [decodeSpan_of_structurallyValid hu (structurallyValid_canonBytes val.isLt) hroom hmem,
    gather_canonBytes val.isLt, canonBytes_length, BitVec.ofNat_toNat, BitVec.setWidth_eq]

/-- Settles O26: the bytes `ENC.W1` stores do not depend on its width, and `DEC.W2` reads them back. -/
theorem encThenDecAcrossWidths : Obligations.EncThenDecAcrossWidths := by
  intro w₁ w₂ val base cap s hu hfit hroom
  refine ⟨_, (exec_encInstr ..).trans (encodeValue_of_room hu hfit hroom), ?_⟩
  rw [exec_decInstr]
  refine decodeSpan_of_canonBytes (hu := hu) hroom ?_
  rw [← canonBytes_length]
  exact Memory.readBytes_writeBytes ..

/-- Settles O18: each branch of `ENC.W` on a usable span, with memory after the store read byte by byte. -/
theorem encStoresTheCanonicalEncoding : Obligations.EncStoresTheCanonicalEncoding := by
  intro w val base cap s hu
  rw [commandWord_encInstr, exec_encInstr]
  refine ⟨rfl, fun hfit hroom => ?stored, fun hbig => ?tooLarge, encodeValue_of_short hu⟩
  case stored =>
    refine ⟨_, encodeValue_of_room hu hfit hroom, rfl, fun i hi => ?inside, fun a ha => ?outside⟩
    case inside => exact Memory.read_writeBytes_inside (by rwa [canonBytes_length])
    case outside => exact Memory.read_writeBytes_outside (by rwa [canonBytes_length])
  case tooLarge => rw [encodeValue_usable hu, if_pos hbig]

/-! ### `SIZE.W` -/

/-- Settles O19: the two branches of `SIZE.W`; a canonical length is 1 to 17, so `LEN` holds it and is not 0. -/
theorem sizeAnswersTheCanonicalLength : Obligations.SizeAnswersTheCanonicalLength := by
  intro w val s
  rw [commandWord_sizeInstr, exec_sizeInstr, count_canonLen_toNat]
  have hpos : 1 ≤ canonLen val.toNat := (canonLen_bounds val.isLt).1
  exact ⟨rfl, fun hfit => ⟨sizeOfValue_of_fits s hfit, hpos, rfl⟩, sizeOfValue_of_tooLarge s, val.isLt⟩

/-- Settles O20: both commands compare with, or answer, the one canonical length. -/
theorem sizeAgreesWithEnc : Obligations.SizeAgreesWithEnc := by
  intro w val s hfit
  refine ⟨count (canonLen val.toNat), (exec_sizeInstr ..).trans (sizeOfValue_of_fits s hfit), fun base cap hu => ?_⟩
  rw [exec_encInstr, count_canonLen_toNat]
  by_cases hroom : canonLen val.toNat ≤ cap
  · refine ⟨_, encodeValue_of_room hu hfit hroom, fun _ => rfl, fun hblank => ?_,
      fun hshort => absurd hroom hshort.not_ge⟩
    exact absurd (Option.some.inj hblank) (okay_len_ne_blank (by decide) _)
  · have hshort : cap < canonLen val.toNat := not_le.1 hroom
    exact ⟨_, encodeValue_of_short hu hfit hshort, fun h => absurd h hroom, fun _ => hshort, fun _ => rfl⟩

/-! ### `DEC.W` -/

/-- Settles O21: the three branches of `DEC.W` on a usable span, in the order of its checks. -/
theorem decAnswersWhatTheSpanHolds : Obligations.DecAnswersWhatTheSpanHolds := by
  intro w base cap s hu
  rw [commandWord_decInstr, exec_decInstr, decodeSpan_usable hu]
  have hpresent (h0 : cap ≠ 0) (hlen : (hdr (Memory.read s.mem base)).len ≤ cap) :
      ¬(cap = 0 ∨ cap < (hdr (Memory.read s.mem base)).len) := not_or.2 ⟨h0, hlen.not_gt⟩
  refine ⟨rfl, fun htrunc => ?truncated, fun h0 hlen hbig => ?overflow, fun h0 hlen hfit => ?answered⟩
  case truncated => rw [if_pos htrunc]
  case overflow => rw [if_neg (hpresent h0 hlen), if_pos hbig]
  case answered => rw [if_neg (hpresent h0 hlen), if_neg hfit.not_ge]

/-! ### The range of the values behind a first byte -/

/-- The number of value bits in the form a first byte declares: the data bits of R54 to R56. -/
def Header.valueBits (h : Header) : Nat :=
  match h.tier with
  | .immediate => 7
  | .prefixVarint => 7 + 7 * h.param
  | .lengthPrefixed => 8 * h.param

/-- The three declarations a first byte can make (R64). -/
theorem hdr_forms (b : Byte) :
    (hdr b = ⟨.immediate, 0, 1⟩ ∧ b.toNat < 2 ^ 7) ∨
    (∃ k, 1 ≤ k ∧ k ≤ 3 ∧ hdr b = ⟨.prefixVarint, k, k + 1⟩) ∨
    ∃ n, 1 ≤ n ∧ n ≤ 16 ∧ hdr b = ⟨.lengthPrefixed, n, n + 1⟩ := by
  rw [hdr_cases]
  split_ifs with h80 hC0 hE0 hF0
  · exact .inl ⟨rfl, h80⟩
  · exact .inr (.inl ⟨1, by decide, by decide, rfl⟩)
  · exact .inr (.inl ⟨2, by decide, by decide, rfl⟩)
  · exact .inr (.inl ⟨3, by decide, by decide, rfl⟩)
  · exact .inr (.inr ⟨b.toNat % 16 + 1, by omega, by omega, rfl⟩)

/-- A byte list is structurally valid when it is the byte that declares it and as many more as the parameter
(R9, R64). -/
theorem structurallyValid_cons_iff {b : Byte} {tail : List Byte} :
    structurallyValid (b :: tail) = true ↔ tail.length = (hdr b).param := by
  rw [structurallyValid, decide_eq_true_eq, byteAt_cons_zero, List.length_cons]
  obtain ⟨h, -⟩ | ⟨k, -, -, h⟩ | ⟨n, -, -, h⟩ := hdr_forms b <;> rw [h] <;> exact Nat.succ_inj

theorem exists_cons_of_structurallyValid {bs : List Byte} (h : structurallyValid bs = true) :
    ∃ b tail, bs = b :: tail := by
  apply List.exists_cons_of_length_pos
  rw [of_decide_eq_true h]
  exact (hdr_len_bounds _).1

/-- The three forms a structurally valid encoding can have, with the number of bytes after the first and the value held
(R64, R65). -/
theorem structurallyValid_forms {b : Byte} {tail : List Byte} (h : structurallyValid (b :: tail) = true) :
    ((hdr b).valueBits = 7 ∧ gather (b :: tail) = b.toNat ∧ b.toNat < 2 ^ 7) ∨
    (1 ≤ tail.length ∧ tail.length ≤ 3 ∧ (hdr b).valueBits = 7 + 7 * tail.length ∧
      gather (b :: tail) = b.toNat % 2 ^ (7 - tail.length) + 2 ^ (7 - tail.length) * le tail) ∨
    (1 ≤ tail.length ∧ tail.length ≤ 16 ∧ (hdr b).valueBits = 8 * tail.length ∧ gather (b :: tail) = le tail) := by
  rw [structurallyValid_cons_iff] at h
  unfold Header.valueBits gather
  rw [byteAt_cons_zero]
  obtain ⟨hb, h7⟩ | ⟨k, hk1, hk3, hb⟩ | ⟨n, hn1, hn16, hb⟩ := hdr_forms b <;> rw [hb] at h ⊢
  · exact .inl ⟨rfl, rfl, h7⟩
  · obtain rfl : tail.length = k := h
    exact .inr (.inl ⟨hk1, hk3, rfl, gatherPv_cons b tail⟩)
  · obtain rfl : tail.length = n := h
    exact .inr (.inr ⟨hn1, hn16, rfl, congrArg le (map_byteAt_cons b tail)⟩)

/-- A structurally valid encoding holds no more than its form has bits for (R54 to R56). -/
theorem gather_lt_two_pow_valueBits {bs : List Byte} (h : structurallyValid bs = true) :
    gather bs < 2 ^ (hdr (byteAt bs 0)).valueBits := by
  obtain ⟨b, tail, rfl⟩ := exists_cons_of_structurallyValid h
  have hle : le tail < 2 ^ (8 * tail.length) := by rw [pow_mul]; exact le_lt tail
  rw [byteAt_cons_zero]
  obtain ⟨hbits, hv, h7⟩ | ⟨hk1, hk3, hbits, hv⟩ | ⟨-, -, hbits, hv⟩ := structurallyValid_forms h <;> rw [hbits, hv]
  · exact h7
  · have hlow : b.toNat % 2 ^ (7 - tail.length) < 2 ^ (7 - tail.length) := Nat.mod_lt _ (Nat.two_pow_pos _)
    calc b.toNat % 2 ^ (7 - tail.length) + 2 ^ (7 - tail.length) * le tail
        < 2 ^ (7 - tail.length) * (le tail + 1) := by rw [Nat.mul_succ]; omega
      _ ≤ 2 ^ (7 - tail.length) * 2 ^ (8 * tail.length) := Nat.mul_le_mul_left _ hle
      _ = 2 ^ (7 + 7 * tail.length) := by rw [← pow_add]; congr 1; omega
  · exact hle

theorem valueBits_hdr_le (b : Byte) : (hdr b).valueBits ≤ 128 := by
  obtain ⟨h, -⟩ | ⟨k, -, hk3, h⟩ | ⟨n, -, hn16, h⟩ := hdr_forms b <;> rw [h] <;> simp only [Header.valueBits] <;> omega

/-- Settles O24: what the bytes hold decides between the two answers, and no form has more than 128 value bits. -/
theorem decAcceptsEveryStructuralForm : Obligations.DecAcceptsEveryStructuralForm := by
  intro w base cap s bs hu hvalid hroom hmem
  refine ⟨(exec_decInstr ..).trans (decodeSpan_of_structurallyValid hu hvalid hroom hmem), ?_⟩
  exact (gather_lt_two_pow_valueBits hvalid).trans_le (Nat.pow_le_pow_right Nat.two_pos (valueBits_hdr_le _))

/-! ### The first bytes that can overflow -/

/-- R85's last column lists the first bytes whose form has more value bits than the width. -/
theorem mayOverflow_iff (w : Width) (b : Byte) : mayOverflow w b = true ↔ w.bits < (hdr b).valueBits := by
  cases w
  case w128 => exact iff_of_false Bool.false_ne_true (valueBits_hdr_le b).not_gt
  all_goals
    rw [hdr_cases]
    have hb := b.isLt
    split_ifs <;> simp only [mayOverflow, Width.bits, Header.valueBits, decide_eq_true_eq] <;> omega

/-- A first byte with the bytes it declares after it, all `0xFF`: the form's greatest upper bits. -/
def fullForm (b : Byte) : List Byte := b :: List.replicate (hdr b).param 0xFF

theorem structurallyValid_fullForm (b : Byte) : structurallyValid (fullForm b) = true :=
  structurallyValid_cons_iff.2 List.length_replicate

theorem le_replicate_ff_succ (n : Nat) : le (List.replicate n 0xFF) + 1 = 2 ^ (8 * n) := by
  induction n with
  | zero => rfl
  | succ n ih =>
    rw [List.replicate_succ, le, Nat.mul_succ, pow_add, ← ih]
    have hff : (0xFF : Byte).toNat = 255 := rfl
    omega

theorem two_pow_le_le_replicate_ff {n : Nat} (h : 1 ≤ n) : 2 ^ (8 * n - 1) ≤ le (List.replicate n 0xFF) := by
  have hsucc := le_replicate_ff_succ n
  have hdouble : 2 ^ (8 * n) = 2 * 2 ^ (8 * n - 1) := by rw [← pow_succ']; congr 1; omega
  have := Nat.two_pow_pos (8 * n - 1)
  omega

/-- In a form of more than one byte, these bytes set the form's highest value bit. -/
theorem two_pow_le_gather_fullForm {b : Byte} (h : 7 < (hdr b).valueBits) :
    2 ^ ((hdr b).valueBits - 1) ≤ gather (fullForm b) := by
  have hvalid := structurallyValid_fullForm b
  have hforms := structurallyValid_forms hvalid
  rw [List.length_replicate, ← fullForm] at hforms
  obtain ⟨hbits, -⟩ | ⟨hk1, hk3, hbits, hv⟩ | ⟨hn1, -, hbits, hv⟩ := hforms
  · omega
  · rw [hbits, hv]
    calc 2 ^ (7 + 7 * (hdr b).param - 1)
        = 2 ^ (7 - (hdr b).param) * 2 ^ (8 * (hdr b).param - 1) := by rw [← pow_add]; congr 1; omega
      _ ≤ 2 ^ (7 - (hdr b).param) * le (List.replicate (hdr b).param 0xFF) :=
          Nat.mul_le_mul_left _ (two_pow_le_le_replicate_ff hk1)
      _ ≤ _ := Nat.le_add_left ..
  · rw [hbits, hv]
    exact two_pow_le_le_replicate_ff hn1

/-- A system right after reset whose host has put the bytes at address 0 upwards. -/
def resetHolding (bs : List Byte) : State := { State.reset with mem := Memory.writeBytes [] 0 bs }

theorem spanUsable_resetHolding (bs : List Byte) {cap : Nat} (h : cap < 2 ^ 64) :
    spanUsable (resetHolding bs) ⟨0, cap⟩ := by
  have hports : Span.fitsPorts 64 ⟨0, cap⟩ = true := by simpa [Span.fitsPorts] using h
  have hwrap : Span.noWrap 64 ⟨0, cap⟩ = true := by simpa [Span.noWrap] using h.le
  have hbacked : spanBacked [⟨0, 2 ^ 64⟩] ⟨0, cap⟩ = true := by
    simpa [spanBacked] using .inr h.le
  exact ⟨hports, hwrap, hbacked⟩

/-- The bytes a first byte declares, read from its address, are a structurally valid encoding (R9). -/
theorem structurallyValid_readBytes (m : Memory) (addr : Nat) :
    structurallyValid (Memory.readBytes m addr (hdr (Memory.read m addr)).len) = true := by
  rw [structurallyValid, byteAt_readBytes (hdr_len_bounds _).1, Nat.add_zero, Memory.readBytes_length,
    decide_eq_true_eq]

/-- `DEC.W` answers `Overflow` only where the value behind the first byte does not fit (R80). -/
theorem two_pow_le_gather_of_overflow {w : Width} {sp : Span} {s : State}
    (h : decodeSpan w sp s = .next (s.answer (Response.blank .overflow))) :
    2 ^ w.bits ≤ gather (Memory.readBytes s.mem sp.base (hdr (Memory.read s.mem sp.base)).len) := by
  obtain ⟨-, ⟨-, ht⟩ | ⟨-, ⟨hbig, -⟩ | ⟨-, ht⟩⟩⟩ := decodeSpan_next h
  · cases congrArg State.rsp ht
  · exact hbig
  · cases congrArg State.rsp ht

/-- Settles O22: a value that does not fit needs a form with more bits than the width, and in such a form the greatest
upper bits make one. -/
theorem firstBytesThatCanOverflow : Obligations.FirstBytesThatCanOverflow := by
  intro w b
  rw [mayOverflow_iff]
  constructor
  case mp =>
    rintro ⟨s, base, cap, -, rfl, h⟩
    rw [exec_decInstr] at h
    have hvalid := structurallyValid_readBytes s.mem base
    have hroom := gather_lt_two_pow_valueBits hvalid
    rw [byteAt_readBytes (hdr_len_bounds _).1, Nat.add_zero] at hroom
    exact lt_of_two_pow_le_of_lt_two_pow (two_pow_le_gather_of_overflow h) hroom
  case mpr =>
    intro hbits
    have hwide : 7 < w.bits := by cases w <;> decide
    have hbig : 2 ^ w.bits ≤ gather (fullForm b) :=
      (Nat.pow_le_pow_right Nat.two_pos (by omega)).trans (two_pow_le_gather_fullForm (hwide.trans hbits))
    have hvalid := structurallyValid_fullForm b
    have hlen : (fullForm b).length ≤ 17 := of_decide_eq_true hvalid ▸ (hdr_len_bounds _).2
    have hu := spanUsable_resetHolding (fullForm b) (cap := (fullForm b).length) (by omega)
    refine ⟨resetHolding (fullForm b), 0, (fullForm b).length, hu, ?first, ?overflow⟩
    case first => exact Memory.read_writeBytes_inside (i := 0) (Nat.succ_pos _)
    case overflow =>
      rw [exec_decInstr, decodeSpan_of_structurallyValid hu hvalid le_rfl (Memory.readBytes_writeBytes ..),
        if_neg hbig.not_gt]

end Sys2Proof.Machine
end

-- ==== Lanes, and the bytes behind a first byte ====
section
/-! Facts of the vector operands and of gathering from any byte list, complete or padded: a vector holds the bytes laid
into it, and the value held is that of the bytes a first byte declares. The formulations of `42_simd.md` rest on
these. -/

namespace Sys2Proof.Machine

/-! ### Little-endian numbers and zero bytes -/

theorem le_append (as bs : List Byte) : le (as ++ bs) = le as + 256 ^ as.length * le bs := by
  induction as with
  | nil => simp [le]
  | cons a as ih =>
    simp only [List.cons_append, le, ih, List.length_cons, pow_succ]
    ring

theorem le_replicate_zero (n : Nat) : le (List.replicate n 0) = 0 := by
  induction n with
  | zero => rfl
  | succ n ih => rw [List.replicate_succ, le, ih]; rfl

/-- Zero bytes at the upper end do not change a number. -/
theorem le_append_zeros (bs : List Byte) (n : Nat) : le (bs ++ List.replicate n 0) = le bs := by
  rw [le_append, le_replicate_zero, Nat.mul_zero, Nat.add_zero]

/-- The low `n` bytes of a number are the first `n` of its list. -/
theorem le_mod_two_pow (bs : List Byte) (n : Nat) : le bs % 2 ^ (8 * n) = le (bs.take n) := by
  rw [pow_mul, show 2 ^ 8 = 256 from rfl]
  rcases le_total n bs.length with h | h
  · have hlt : le (bs.take n) < 256 ^ n := by simpa [h] using le_lt (bs.take n)
    conv_lhs => rw [← List.take_append_drop n bs, le_append, List.length_take_of_le h]
    rw [Nat.add_mul_mod_self_left, Nat.mod_eq_of_lt hlt]
  · rw [List.take_of_length_le h]
    exact Nat.mod_eq_of_lt ((le_lt bs).trans_le (Nat.pow_le_pow_right (by decide) h))

/-- A byte of a little-endian number is that byte of its list, 0 beyond the list's end. -/
theorem le_shiftRight_mod (bs : List Byte) (i : Nat) : (le bs >>> (8 * i)) % 2 ^ 8 = (byteAt bs i).toNat := by
  induction bs generalizing i with
  | nil => simp [le, byteAt]
  | cons b bs ih =>
    have hb := b.isLt
    cases i with
    | zero => simp only [le, byteAt_cons_zero, Nat.mul_zero, Nat.shiftRight_zero]; omega
    | succ i =>
      have hrest : le (b :: bs) >>> 8 = le bs := by
        rw [le, Nat.shiftRight_eq_div_pow]
        omega
      rw [byteAt_cons_succ, ← ih, Nat.mul_succ, Nat.add_comm, Nat.shiftRight_add, hrest]

theorem byteAt_of_length_le {bs : List Byte} {i : Nat} (h : bs.length ≤ i) : byteAt bs i = 0 := by
  simp [byteAt, h]

/-- Bytes kept below `n` and forced to zero from there on are the first `n` bytes, padded. -/
theorem map_range_ite (f : Nat → Byte) {n m : Nat} (h : n ≤ m) :
    ((List.range m).map fun i => if i < n then f i else 0) = (List.range n).map f ++ List.replicate (m - n) 0 := by
  refine List.ext_getElem (by simp [h]) fun i hm _ => ?_
  by_cases hi : i < n
  · simp [hi]
  · rw [List.getElem_append_right (by simpa using hi)]
    simp [hi]

/-! ### Lanes of a vector -/

/-- Lane `i` of a vector is byte `i` of the list laid into it, `0x00` beyond the list's end (R13, R94). -/
theorem lane_vecOf (bs : List Byte) {i : Nat} (h : i < 17) : lane (vecOf bs) i = byteAt bs i := by
  apply BitVec.eq_of_toNat_eq
  have hbits : 2 ^ 136 = 2 ^ (8 * i) * 2 ^ (136 - 8 * i) := by rw [← pow_add]; congr 1; omega
  calc (lane (vecOf bs) i).toNat
      = le bs % 2 ^ 136 / 2 ^ (8 * i) % 2 ^ 8 := by
        rw [lane, vecOf, BitVec.extractLsb'_toNat, BitVec.toNat_ofNat, Nat.shiftRight_eq_div_pow]
    _ = le bs / 2 ^ (8 * i) % 2 ^ 8 := by
        rw [hbits, Nat.mod_mul_right_div_self, Nat.mod_mod_of_dvd _ (pow_dvd_pow 2 (by omega))]
    _ = (byteAt bs i).toNat := by rw [← le_shiftRight_mod, Nat.shiftRight_eq_div_pow]

theorem byteAt_lanesOf (x : Lanes) {i : Nat} (h : i < 17) : byteAt (lanesOf x) i = lane x i := by
  simp [byteAt, lanesOf, Config.numLanes, h]

/-- The lanes of a vector a byte list is laid into: the list, then zeros (R94). -/
theorem lanesOf_vecOf {bs : List Byte} (h : bs.length ≤ 17) :
    lanesOf (vecOf bs) = bs ++ List.replicate (17 - bs.length) 0 := by
  have hlane : ∀ i ∈ List.range 17, lane (vecOf bs) i = if i < bs.length then byteAt bs i else 0 := by
    intro i hi
    rw [lane_vecOf bs (List.mem_range.1 hi)]
    split_ifs with hlt
    · rfl
    · exact byteAt_of_length_le (not_lt.1 hlt)
  have hbytes : (List.range bs.length).map (byteAt bs) = bs := by
    refine List.ext_getElem (by simp) fun i _ hi => ?_
    simp [byteAt, hi]
  rw [lanesOf, Config.numLanes, List.map_congr_left hlane, map_range_ite _ h, hbytes]

/-! ### The value behind a first byte -/

/-- The `n` bytes after the first. -/
def payload (bs : List Byte) (n : Nat) : List Byte := (List.range n).map fun i => byteAt bs (i + 1)

@[simp] theorem payload_length (bs : List Byte) (n : Nat) : (payload bs n).length = n := by simp [payload]

theorem range'_map_byteAt (bs : List Byte) (n : Nat) : (List.range' 1 n).map (byteAt bs) = payload bs n := by
  simp only [payload, List.range'_eq_map_range, List.map_map, Function.comp_def, Nat.add_comm 1]

theorem payload_take (bs : List Byte) {n m : Nat} (h : n ≤ m) : (payload bs m).take n = payload bs n := by
  rw [payload, ← List.map_take, List.take_range, Nat.min_eq_left h, payload]

/-- The first byte and the bytes it declares, on their own, read as they do in the list. -/
theorem byteAt_cons_payload (bs : List Byte) {i n : Nat} (h : i ≤ n) :
    byteAt (byteAt bs 0 :: payload bs n) i = byteAt bs i := by
  cases i with
  | zero => rfl
  | succ i => simp [payload, byteAt, Nat.lt_of_succ_le h]

theorem gatherPv_eq (k : Nat) (bs : List Byte) :
    gatherPv k bs = (byteAt bs 0).toNat % 2 ^ (7 - k) + 2 ^ (7 - k) * le (payload bs k) := by
  have hcons := gatherPv_cons (byteAt bs 0) (payload bs k)
  rw [payload_length] at hcons
  rw [← hcons, gatherPv, gatherPv, byteAt_cons_zero]
  congr 2
  refine List.map_congr_left fun j hj => ?_
  rw [byteAt_cons_payload bs (by simp at hj; omega)]

theorem gatherLp_eq (n : Nat) (bs : List Byte) : gatherLp n bs = le (payload bs n) := by
  rw [gatherLp, range'_map_byteAt]

/-- The value any byte list holds, by what its first byte declares; the Immediate form is the PrefixVarint one with no
byte after the first (R65, R92). -/
theorem gather_eq (bs : List Byte) :
    gather bs = if (hdr (byteAt bs 0)).tier = .lengthPrefixed then le (payload bs (hdr (byteAt bs 0)).param)
      else (byteAt bs 0).toNat % 2 ^ (7 - (hdr (byteAt bs 0)).param) +
        2 ^ (7 - (hdr (byteAt bs 0)).param) * le (payload bs (hdr (byteAt bs 0)).param) := by
  unfold gather
  obtain ⟨h, h7⟩ | ⟨k, -, -, h⟩ | ⟨n, -, -, h⟩ := hdr_forms (byteAt bs 0) <;> rw [h]
  · exact (Nat.mod_eq_of_lt h7).symm
  · exact gatherPv_eq k bs
  · exact gatherLp_eq n bs

theorem hdr_len_eq_param_succ (b : Byte) : (hdr b).len = (hdr b).param + 1 := by
  obtain ⟨h, -⟩ | ⟨k, -, -, h⟩ | ⟨n, -, -, h⟩ := hdr_forms b <;> rw [h]

/-- Bytes at and above the declared length have no effect on the value held (R65, R91). -/
theorem gather_congr {as bs : List Byte} (h : ∀ i, i < (hdr (byteAt bs 0)).len → byteAt as i = byteAt bs i) :
    gather as = gather bs := by
  rw [hdr_len_eq_param_succ] at h
  have hpayload : payload as (hdr (byteAt bs 0)).param = payload bs (hdr (byteAt bs 0)).param :=
    List.map_congr_left fun i hi => h (i + 1) (Nat.succ_lt_succ (List.mem_range.1 hi))
  rw [gather_eq as, gather_eq bs, h 0 (Nat.succ_pos _), hpayload]

/-- Every byte list holds a number of the value port (R65, R91). -/
theorem gather_lt (bs : List Byte) : gather bs < 2 ^ 128 := by
  have hvalid : structurallyValid (byteAt bs 0 :: payload bs (hdr (byteAt bs 0)).param) = true :=
    structurallyValid_cons_iff.2 (payload_length ..)
  have hsame : gather (byteAt bs 0 :: payload bs (hdr (byteAt bs 0)).param) = gather bs :=
    gather_congr fun i hi => byteAt_cons_payload bs (by rw [hdr_len_eq_param_succ] at hi; omega)
  rw [← hsame]
  exact (gather_lt_two_pow_valueBits hvalid).trans_le (Nat.pow_le_pow_right Nat.two_pos (valueBits_hdr_le _))

end Sys2Proof.Machine
end

-- ==== The vector commands ====
section
/-! PROOFS of the statements on `GATH` and `SCAT`, on the formulations that `42_simd.md` derives from them, on the codec
commands as the vector datapaths wrapped in checks, and on the path. -/

namespace Sys2Proof.Machine

/-! ### `GATH` and `SCAT` -/

theorem exec_gath (vec : Lanes) (s : State) :
    exec (.gath vec) s = .next (s.answer (gathResponse gather hdr vec)) := rfl

/-- What `GATH` answers, by the header in lane 0 (R91). -/
theorem gathResponse_eq (vec : Lanes) :
    gathResponse gather hdr vec = { Response.okay with
      val := BitVec.ofNat 128 (gather (lanesOf vec)), len := count (hdr (lane vec 0)).len,
      tier := (hdr (lane vec 0)).tier.code, aux := count (hdr (lane vec 0)).param } := by
  rw [← byteAt_lanesOf vec (by decide : 0 < 17)]
  rfl

/-- `GATH` looks at no lane beyond the declared length (R91). -/
theorem gathResponse_congr {vec vec' : Lanes} (h : ∀ i, i < (hdr (lane vec 0)).len → lane vec' i = lane vec i) :
    gathResponse gather hdr vec' = gathResponse gather hdr vec := by
  obtain ⟨hpos, h17⟩ := hdr_len_bounds (lane vec 0)
  have hgather : gather (lanesOf vec') = gather (lanesOf vec) := by
    refine gather_congr fun i hi => ?_
    rw [byteAt_lanesOf vec (by decide : 0 < 17)] at hi
    rw [byteAt_lanesOf vec' (hi.trans_le h17), byteAt_lanesOf vec (hi.trans_le h17), h i hi]
  rw [gathResponse_eq, gathResponse_eq, hgather, h 0 hpos]

/-- Settles O27: no list of lanes holds more than the port's 128 bits, and later lanes are not looked at. -/
theorem gathAnswersWhatTheLanesHold : Obligations.GathAnswersWhatTheLanesHold := by
  intro vec s
  refine ⟨rfl, gather_lt _, ?answer, fun vec' hsame => ?later⟩
  case answer => rw [exec_gath, gathResponse_eq]
  case later => rw [exec_gath, exec_gath, gathResponse_congr hsame]

/-- `GATH` of a vector that holds a structurally valid encoding answers its value and what its first byte declares
(R91). -/
theorem gathResponse_vecOf {bs : List Byte} (h : structurallyValid bs = true) :
    gathResponse gather hdr (vecOf bs) = { Response.okay with
      val := BitVec.ofNat 128 (gather bs), len := count bs.length,
      tier := (hdr (byteAt bs 0)).tier.code, aux := count (hdr (byteAt bs 0)).param } := by
  have hlen : bs.length = (hdr (byteAt bs 0)).len := of_decide_eq_true h
  have h17 : bs.length ≤ 17 := hlen ▸ (hdr_len_bounds _).2
  have hgather : gather (lanesOf (vecOf bs)) = gather bs := by
    rw [lanesOf_vecOf h17]
    exact gather_congr fun i hi => byteAt_append_left _ (hlen ▸ hi)
  rw [gathResponse_eq, lane_vecOf bs (by decide), hgather, hlen]

theorem exec_scat (val : Value) (s : State) :
    exec (.scat val) s = .next (s.answer { Response.okay with
      vec := vecOf (canonBytes val.toNat), len := count (canonLen val.toNat), tier := (tierOfValue val.toNat).code,
      aux := count (tierParam val.toNat) }) := by
  have hscat : exec (.scat val) s =
      .next (s.answer (scatResponse (canonBytes val.toNat) (canonLen val.toNat) hdr)) := execScat_eq val s
  rw [hscat, scatResponse, hdr_canonBytes val.isLt]

/-- Settles O28: the lanes of the answer are the canonical bytes padded, a structurally valid encoding of the value. -/
theorem scatAnswersTheCanonicalLanes : Obligations.ScatAnswersTheCanonicalLanes := by
  intro val s
  refine ⟨rfl, _, exec_scat val s, fun i hi => ?lanes, ?gath⟩
  case lanes =>
    rw [lane_vecOf _ hi]
    split_ifs with hlt
    · rfl
    · exact byteAt_of_length_le (by rw [canonBytes_length]; exact not_lt.1 hlt)
  case gath =>
    rw [exec_gath, gathResponse_vecOf (structurallyValid_canonBytes val.isLt), gather_canonBytes val.isLt,
      canonBytes_length, hdr_canonBytes val.isLt, BitVec.ofNat_toNat, BitVec.setWidth_eq]

/-! ### The branchless classification -/

/-- Up to three leading ones, the Immediate form is the PrefixVarint one with parameter 0 but for its tier
(R64, R92). -/
theorem hdr_of_clo8_le {b : Byte} (h : clo8 b ≤ 3) :
    hdr b = ⟨if clo8 b = 0 then .immediate else .prefixVarint, clo8 b, clo8 b + 1⟩ := by
  unfold hdr
  dsimp only
  split_ifs with h0
  · rw [h0]
  · rfl

theorem hdr_of_lt_clo8 {b : Byte} (h : 3 < clo8 b) :
    hdr b = ⟨.lengthPrefixed, b.toNat % 16 + 1, b.toNat % 16 + 2⟩ := by
  rw [hdr, if_neg (by omega), if_neg (by omega)]

theorem and_fifteen_eq_mod (n : Nat) : n &&& 0x0F = n % 16 := Nat.and_two_pow_sub_one_eq_mod n 4

/-- Settles O32: up to three leading ones are counted by both; from four on the cap makes them one case. -/
theorem branchlessHeaderEqualsHdr : Obligations.BranchlessHeaderEqualsHdr := by
  intro b
  unfold hdrBranchless
  rcases Nat.lt_or_ge 3 (clo8 b) with h | h
  · rw [hdr_of_lt_clo8 h, Nat.min_eq_right h, and_fifteen_eq_mod]
    rfl
  · have h4 : clo8 b ≠ 4 := by omega
    rw [hdr_of_clo8_le h, Nat.min_eq_left (by omega)]
    simp only [if_neg h4]

/-! ### The derived formulations of gathering -/

/-- The mask of byte 0 has as many ones as there are data bits (R92, R95). -/
theorem shifted_mask_eq {k : Nat} (h : k ≤ 3) : 0x7F >>> k = 2 ^ (7 - k) - 1 := by
  interval_cases k <;> rfl

/-- Masking with `8n` ones keeps the first `n` bytes of a payload (R92). -/
theorem le_payload_and_mask (bs : List Byte) {n m : Nat} (h : n ≤ m) :
    le (payload bs m) &&& (2 ^ (8 * n) - 1) = le (payload bs n) := by
  rw [Nat.and_two_pow_sub_one_eq_mod, le_mod_two_pow, payload_take bs h]

/-- Settles O29: the masks keep the data bits of byte 0 and the payload that the count of leading ones declares. -/
theorem laneGatherEqualsGather : Obligations.LaneGatherEqualsGather := by
  intro x _
  have hpayload16 : (List.range' 1 16).map (byteAt x) = payload x 16 := range'_map_byteAt x 16
  have hpayload3 : [byteAt x 1, byteAt x 2, byteAt x 3] = payload x 3 := rfl
  unfold gatherLanes
  rcases Nat.lt_or_ge 3 (clo8 (byteAt x 0)) with h | h
  · have hn : (byteAt x 0).toNat % 16 + 1 ≤ 16 := by omega
    rw [gather_eq, hdr_of_lt_clo8 h, Nat.min_eq_right h, if_neg (by decide), if_pos rfl, hpayload16, and_fifteen_eq_mod,
      le_payload_and_mask x hn]
  · have htier : (hdr (byteAt x 0)).tier ≠ .lengthPrefixed := by
      rw [hdr_of_clo8_le h]
      dsimp only
      split_ifs <;> decide
    rw [gather_eq, if_neg htier, hdr_of_clo8_le h, Nat.min_eq_left (by omega), if_pos h, hpayload3,
      le_payload_and_mask x h, shifted_mask_eq h, Nat.and_two_pow_sub_one_eq_mod, Nat.mul_comm]

/-- A window of `m` lanes that holds the `n` payload lanes and zeros has the payload's number (R96). -/
theorem le_window (bs : List Byte) {n m : Nat} (h : n ≤ m) :
    le ((List.range m).map fun i => if i < n then byteAt bs (i + 1) else 0) = le (payload bs n) := by
  rw [map_range_ite _ h, le_append_zeros, payload]

theorem hdr_param_le_three {b : Byte} (h : (hdr b).tier ≠ .lengthPrefixed) : (hdr b).param ≤ 3 := by
  obtain ⟨hb, -⟩ | ⟨k, -, hk3, hb⟩ | ⟨n, -, -, hb⟩ := hdr_forms b <;> rw [hb] at h ⊢
  · exact Nat.zero_le 3
  · exact hk3
  · exact absurd rfl h

/-- The columns of R96's table by formula: the source lanes are the payload's, in order. -/
theorem shuffleSource_eq {k i : Nat} (hk : k ≤ 3) (hi : i < 3) :
    shuffleSource k i = if i < k then some (i + 1) else none := by
  interval_cases k <;> interval_cases i <;> rfl

/-- Mask and shift belong to the `7-k` data bits of byte 0 (R96). -/
theorem shuffleMask_eq {k : Nat} (h : k ≤ 3) : shuffleMask k = 2 ^ (7 - k) - 1 := by
  interval_cases k <;> rfl

theorem shuffleShift_eq {k : Nat} (h : k ≤ 3) : shuffleShift k = 7 - k := by
  interval_cases k <;> rfl

/-- Settles O31: the shuffled window holds the payload and zeros, and mask and shift put it above the data bits. -/
theorem shuffleGatherEqualsGather : Obligations.ShuffleGatherEqualsGather := by
  intro x _
  rw [gather_eq]
  unfold gatherShuffle
  dsimp only
  split
  case h_1 htier => rw [if_pos htier, le_window x (hdr_param_le _)]
  case h_2 htier =>
    have h3 := hdr_param_le_three htier
    rw [if_neg htier, List.map_congr_left (g := fun i => if i < (hdr (byteAt x 0)).param then byteAt x (i + 1) else 0),
      le_window x h3, shuffleMask_eq h3, shuffleShift_eq h3, Nat.and_two_pow_sub_one_eq_mod, Nat.shiftLeft_eq,
      Nat.mul_comm]
    intro i hi
    rw [shuffleSource_eq h3 (List.mem_range.1 hi)]
    split_ifs <;> rfl

/-! ### The derived formulation of scattering -/

theorem byteAt_bytesLe (v : Nat) {n i : Nat} (h : i < n) :
    byteAt (bytesLe v n) i = byteOf (bitsOf v (8 * i + 7) (8 * i)) := by
  simp [byteAt, bytesLe, h]

theorem map_byteAt_bytesLe (v : Nat) {n m : Nat} (h : n ≤ m) :
    (List.range n).map (byteAt (bytesLe v m)) = bytesLe v n :=
  List.map_congr_left fun _ hi => byteAt_bytesLe v ((List.mem_range.1 hi).trans_le h)

/-- A number of `n` bytes has zeros in its upper bytes (R95). -/
theorem bytesLe_of_lt {v n m : Nat} (h : n ≤ m) (hv : v < 2 ^ (8 * n)) :
    bytesLe v m = bytesLe v n ++ List.replicate (m - n) 0 := by
  have hle : le (bytesLe v n ++ List.replicate (m - n) 0) = v := by
    rw [le_append_zeros, le_bytesLe]
    exact Nat.mod_eq_of_lt (by rwa [pow_mul] at hv)
  have hlen : (bytesLe v n ++ List.replicate (m - n) 0).length = m := by simp [h]
  calc bytesLe v m
      = bytesLe (le (bytesLe v n ++ List.replicate (m - n) 0)) (bytesLe v n ++ List.replicate (m - n) 0).length := by
        rw [hle, hlen]
    _ = bytesLe v n ++ List.replicate (m - n) 0 := bytesLe_le _

/-- Below `2^28` the canonical encoding is a PrefixVarint layout, the Immediate tier being that of parameter 0
(R92, R95). -/
theorem canonBytes_eq_pvLayout {v : Nat} (h : v < 2 ^ 28) : canonBytes v = pvLayout (tierParam v) v := by
  obtain ⟨h7, htier, hp⟩ | ⟨k, -, -, -, -, htier, -⟩ | ⟨n, -, -, h28, -⟩ :=
    tier_cases (h.trans_le (Nat.pow_le_pow_right Nat.two_pos (by decide)))
  · have hlow : (0xFF <<< 8) % 256 + v % 2 ^ 7 = v := by omega
    rw [canonBytes_of_immediate htier, hp, pvLayout, Nat.sub_zero, Nat.sub_zero, hlow]
    rfl
  · exact canonBytes_of_prefixVarint htier
  · omega

theorem scatterK_le (m : Nat) : scatterK m ≤ 3 := by
  unfold scatterK
  split_ifs <;> omega

/-- `k` by the bit length is the parameter of the value's tier, 0 for Immediate (R59, R95). -/
theorem scatterK_bitlen {v : Nat} (h : v < 2 ^ 28) : scatterK (bitlen v) = tierParam v := by
  unfold scatterK
  obtain ⟨h7, -, hp⟩ | ⟨k, hk1, hk3, hlow, hroom, -, hp⟩ | ⟨n, -, -, h28, -⟩ :=
    tier_cases (h.trans_le (Nat.pow_le_pow_right Nat.two_pos (by decide)))
  · rw [if_pos (bitlen_le_iff.2 h7), hp]
  · rw [← lt_bitlen_iff] at hlow
    rw [← bitlen_le_iff] at hroom
    rw [hp]
    split_ifs <;> omega
  · omega

/-- Marker and data bits of byte 0 do not overlap, so joining them is adding them (R55, R95). -/
theorem scatter_head {k : Nat} (v : Nat) (h : k ≤ 3) :
    ((0xFF00 >>> k) &&& 0xFF) ||| (v &&& (0x7F >>> k)) = (0xFF <<< (8 - k)) % 256 + v % 2 ^ (7 - k) := by
  obtain ⟨hmarker, hmarker'⟩ : (0xFF00 >>> k) &&& 0xFF = 2 ^ (7 - k) * (2 ^ (k + 1) - 2) ∧
      (0xFF <<< (8 - k)) % 256 = 2 ^ (7 - k) * (2 ^ (k + 1) - 2) := by
    interval_cases k <;> decide
  rw [hmarker, hmarker', shifted_mask_eq h, Nat.and_two_pow_sub_one_eq_mod,
    Nat.two_pow_add_eq_or_of_lt (Nat.mod_lt _ (Nat.two_pow_pos _))]

/-- Up to 28 bits, byte 0 and the kept lanes are the PrefixVarint layout (R95). -/
theorem scatterLanes_of_lt {v : Nat} (h : v < 2 ^ 28) :
    scatterLanes v = canonBytes v ++ List.replicate (17 - canonLen v) 0 := by
  have hk : tierParam v ≤ 3 := scatterK_bitlen h ▸ scatterK_le _
  have hpad : 3 - tierParam v + 13 = 17 - (tierParam v + 1) := by omega
  unfold scatterLanes
  dsimp only
  rw [if_pos (bitlen_le_iff.2 h), scatterK_bitlen h, scatter_head v hk, map_range_ite _ hk,
    map_byteAt_bytesLe _ hk, canonBytes_eq_pvLayout h, pvLayout_eq, canonLen_eq_tierParam_succ,
    List.cons_append, List.cons_append, List.append_assoc, List.replicate_append_replicate, hpad]

/-- From `2^28` on, the greater of 4 and the bit length in whole bytes is `lp_n` (R61, R95). -/
theorem max_four_ceilDiv_bitlen {v : Nat} (h : v < 2 ^ 128) (h28 : 2 ^ 28 ≤ v) :
    max 4 (ceilDiv (bitlen v) 8) = tierParam v := by
  have htier : tierOfValue v = .lengthPrefixed := by rw [tierOfValue, if_neg (by omega), if_neg (by omega)]
  have hparam : tierParam v = lpN v := by simp only [tierParam, htier]
  rw [hparam, lpN_eq h]
  omega

/-- Above 28 bits, the lanes are the LengthPrefixed layout, the value's own upper bytes being the padding (R95). -/
theorem scatterLanes_of_le {v : Nat} (h : v < 2 ^ 128) (h28 : 2 ^ 28 ≤ v) :
    scatterLanes v = canonBytes v ++ List.replicate (17 - canonLen v) 0 := by
  obtain ⟨h7, -⟩ | ⟨k, -, hk3, -, hroom, -⟩ | ⟨n, -, hn16, -, -, hroom, htier, hp⟩ := tier_cases h
  · omega
  · exact absurd h28 (hroom.trans_le (Nat.pow_le_pow_right Nat.two_pos (by omega))).not_ge
  · have hhead : 0xF0 ||| (n - 1) = 0xF0 + (n - 1) :=
      (Nat.two_pow_add_eq_or_of_lt (i := 4) (by omega : n - 1 < 2 ^ 4) 15).symm
    unfold scatterLanes
    dsimp only
    rw [if_neg (by rw [bitlen_le_iff]; exact h28.not_gt), max_four_ceilDiv_bitlen h h28,
      canonBytes_of_lengthPrefixed htier, canonLen_eq_tierParam_succ, hp, lpLayout, hhead, bytesLe_of_lt hn16 hroom,
      List.cons_append, Nat.succ_sub_succ]

theorem scatterLen_eq {v : Nat} (h : v < 2 ^ 128) : scatterLen v = canonLen v := by
  unfold scatterLen
  rw [canonLen_eq_tierParam_succ]
  rcases Nat.lt_or_ge v (2 ^ 28) with h28 | h28
  · rw [if_pos (bitlen_le_iff.2 h28), scatterK_bitlen h28]
  · rw [if_neg (by rw [bitlen_le_iff]; exact h28.not_gt), max_four_ceilDiv_bitlen h h28]

/-- Settles O30: the two branches of the lane-level scatter are the tiers below `2^28` and the LengthPrefixed tier. -/
theorem laneScatterEqualsCanonicalBytes : Obligations.LaneScatterEqualsCanonicalBytes := by
  intro v h
  refine ⟨?_, scatterLen_eq h⟩
  rcases Nat.lt_or_ge v (2 ^ 28) with h28 | h28
  · exact scatterLanes_of_lt h28
  · exact scatterLanes_of_le h h28

/-! ### The codec commands over the datapaths -/

/-- The bytes a first byte declares, gathered through a vector, are gathered as they stand (R97). -/
theorem decodeByGather_eq (w : Width) (sp : Span) (s : State) : decodeByGather w sp s = decodeSpan w sp s := by
  have hgath := gathResponse_vecOf (structurallyValid_readBytes s.mem sp.base)
  unfold decodeByGather decodeSpan
  simp only [execGath_eq, hgath, State.answer_rsp, Option.getD_some, BitVec.toNat_ofNat,
    Nat.mod_eq_of_lt (gather_lt _), Memory.readBytes_length]

/-- The lanes of the scattered value that are stored are its canonical encoding (R97). -/
theorem encodeByScatter_eq (w : Width) (val : Value) (sp : Span) (s : State) :
    encodeByScatter w val sp s = encodeValue w val sp s := by
  have htake : (lanesOf (vecOf (canonBytes val.toNat))).take (canonLen val.toNat) = canonBytes val.toNat := by
    rw [lanesOf_vecOf (by rw [canonBytes_length]; exact (canonLen_bounds val.isLt).2), ← canonBytes_length,
      List.take_left]
  unfold encodeByScatter encodeValue wholeValue
  simp only [execScat_eq, scatResponse, State.answer_rsp, Option.getD_some, count_canonLen_toNat, htake]

/-- Settles O33: `exec` gives both families one meaning for all widths, and each composition equals that meaning. -/
theorem codecIsTheVectorDatapathWrapped : Obligations.CodecIsTheVectorDatapathWrapped := by
  intro w val base cap s
  rw [exec_decInstr, exec_encInstr, decodeByGather_eq, encodeByScatter_eq]
  exact ⟨rfl, rfl⟩

/-! ### The path -/

/-- An outcome with the path of the state it leads to replaced by `p`; a refusal has none. -/
def withPath (p : Path) (o : Host.Outcome State Fault Refusal) : Host.Outcome State Fault Refusal :=
  match o with
  | .next t => .next { t with path := p }
  | .fault e => .fault e
  | .refused e => .refused e

section PathReplaced

variable (p : Path) (s : State)

/-- The checks on a span do not look at the path (R98). -/
theorem withSpan_path (sp : Span) (body : Host.Outcome State Fault Refusal) :
    withSpan sp { s with path := p } (withPath p body) = withPath p (withSpan sp s body) := by
  unfold withSpan
  dsimp only
  split_ifs <;> rfl

theorem encodeValue_path (w : Width) (val : Value) (sp : Span) :
    encodeValue w val sp { s with path := p } = withPath p (encodeValue w val sp s) := by
  rw [encodeValue, encodeValue, ← withSpan_path]
  congr 1
  dsimp only
  split_ifs <;> rfl

theorem decodeSpan_path (w : Width) (sp : Span) :
    decodeSpan w sp { s with path := p } = withPath p (decodeSpan w sp s) := by
  rw [decodeSpan, decodeSpan, ← withSpan_path]
  congr 1
  dsimp only
  split_ifs <;> rfl

/-- No command looks at the path or changes it (R98). -/
theorem exec_path (i : Instr) : exec i { s with path := p } = withPath p (exec i s) := by
  obtain ⟨w, val, base, cap, rfl⟩ | ⟨w, base, cap, rfl⟩ | ⟨-, -, r, hr⟩ := exec_kinds i
  · rw [exec_encInstr, exec_encInstr, encodeValue_path]
  · rw [exec_decInstr, exec_decInstr, decodeSpan_path]
  · rw [hr, hr]
    rfl

theorem transact_path (r : Request) : transact r { s with path := p } = withPath p (transact r s) := by
  unfold transact
  cases decode r with
  | command i => exact exec_path p s i
  | illegal why => rfl

end PathReplaced

/-- Settles O56: replacing the path before a transaction and after it is the same, for each kind of command and for an
illegal word. -/
theorem pathIsNotObserved : Obligations.PathIsNotObserved := fun r s p => transact_path p s r

end Sys2Proof.Machine
end

-- ==== The mapping commands ====
section
/-! PROOFS of the statements on `ZZE.W`, `ZZD.W`, `FTU.W`, `UTF.W` and on the size of what zigzag gives. The bit
formulas of zigzag are tied to the integer functions of R102, which undo each other; reversing the bytes of a number is
reversing the list of its bytes. -/

namespace Sys2Proof.Machine

/-! ### Patterns of a width -/

theorem width_bits_pos (w : Width) : 0 < w.bits := by cases w <;> decide

theorem width_bits_le (w : Width) : w.bits ≤ 128 := by cases w <;> decide

theorem toNat_lowBits (w : Width) (val : Value) : (lowBits w val).toNat = val.toNat % 2 ^ w.bits :=
  BitVec.toNat_setWidth ..

theorem zext128_eq {n : Nat} (x : BitVec n) : zext128 x = BitVec.ofNat 128 x.toNat :=
  (BitVec.ofNat_toNat 128 x).symm

/-- A pattern of a width survives in `VAL` (R44). -/
theorem lowBits_ofNat {w : Width} {u : Nat} (h : u < 2 ^ w.bits) : (lowBits w (BitVec.ofNat 128 u)).toNat = u := by
  have hport : u < 2 ^ 128 := h.trans_le (Nat.pow_le_pow_right Nat.two_pos (width_bits_le w))
  rw [toNat_lowBits, BitVec.toNat_ofNat, Nat.mod_eq_of_lt hport, Nat.mod_eq_of_lt h]

theorem lowBits_zext128 {w : Width} (x : BitVec w.bits) : lowBits w (zext128 x) = x := by
  rw [zext128_eq]
  exact BitVec.eq_of_toNat_eq (lowBits_ofNat x.isLt)

/-- The signed reading of R101 is the library's. -/
theorem signedOf_toNat {w : Nat} (hw : 0 < w) (x : BitVec w) : signedOf w x.toNat = x.toInt := by
  obtain ⟨n, rfl⟩ := Nat.exists_eq_add_one_of_ne_zero hw.ne'
  have hhalf : 2 * x.toNat < 2 ^ (n + 1) ↔ x.toNat < 2 ^ n := by rw [pow_succ]; omega
  simp only [signedOf, BitVec.toInt, hhalf, Nat.add_sub_cancel]
  push_cast
  rfl

theorem signedOf_lowBits (w : Width) (val : Value) :
    signedOf w.bits (val.toNat % 2 ^ w.bits) = (lowBits w val).toInt := by
  rw [← toNat_lowBits, signedOf_toNat (width_bits_pos w)]

/-! ### Zigzag -/

theorem unzzInt_zzInt (x : Int) : unzzInt (zzInt x) = x := by
  unfold zzInt unzzInt
  split_ifs <;> omega

theorem zzInt_unzzInt {u : Int} (h : 0 ≤ u) : zzInt (unzzInt u) = u := by
  unfold zzInt unzzInt
  split_ifs <;> omega

/-- Zigzag orders the integers by magnitude (R102, R104). -/
theorem zzInt_bounds {x b : Int} (hlow : -b ≤ x) (hhigh : x < b) : 0 ≤ zzInt x ∧ zzInt x < 2 * b := by
  unfold zzInt
  split_ifs <;> omega

/-- XOR with `W` copies of a bit takes the complement or leaves the pattern (R103, R105). -/
theorem toNat_xor_spread {w : Nat} (x : BitVec w) (bit : Bool) :
    (x ^^^ spread w bit).toNat = if bit then 2 ^ w - 1 - x.toNat else x.toNat := by
  cases bit with
  | false => simp [spread]
  | true => simp [spread, BitVec.xor_allOnes]

theorem toNat_shiftLeft_one {w : Nat} (x : BitVec w) : (x <<< 1).toNat = 2 * x.toNat % 2 ^ w := by
  rw [BitVec.toNat_shiftLeft, Nat.shiftLeft_eq, pow_one, Nat.mul_comm]

/-- The bit formula of R103 is the zigzag of R102. -/
theorem toNat_zigzag {w : Nat} (hw : 0 < w) (x : BitVec w) : ((zigzag x).toNat : Int) = zzInt x.toInt := by
  obtain ⟨n, rfl⟩ := Nat.exists_eq_add_one_of_ne_zero hw.ne'
  have hx := x.isLt
  have hsign : x.getLsbD (n + 1 - 1) = decide (2 ^ n ≤ x.toNat) := by
    rw [← BitVec.msb_eq_getLsbD_last, BitVec.msb_eq_decide, Nat.add_sub_cancel]
  rw [zigzag, toNat_xor_spread, toNat_shiftLeft_one, hsign, BitVec.toInt, zzInt]
  rw [pow_succ] at hx ⊢
  by_cases hneg : 2 ^ n ≤ x.toNat
  · have hwrap : 2 * x.toNat % (2 ^ n * 2) = 2 * x.toNat - 2 ^ n * 2 := by
      rw [Nat.mod_eq_sub_mod (by omega), Nat.mod_eq_of_lt (by omega)]
    rw [decide_eq_true hneg, if_pos rfl, if_neg (by omega), if_neg (by omega), hwrap]
    omega
  · have hkeep : 2 * x.toNat % (2 ^ n * 2) = 2 * x.toNat := Nat.mod_eq_of_lt (by omega)
    rw [decide_eq_false hneg, if_neg Bool.false_ne_true, if_pos (by omega), if_pos (by omega), hkeep]
    omega

/-- The bit formula of R105 is the unzigzag of R102. -/
theorem toInt_unzigzag {w : Nat} (hw : 0 < w) (u : BitVec w) : (unzigzag u).toInt = unzzInt u.toNat := by
  obtain ⟨n, rfl⟩ := Nat.exists_eq_add_one_of_ne_zero hw.ne'
  have hu := u.isLt
  have hodd : u.getLsbD 0 = decide (u.toNat % 2 = 1) := Nat.testBit_zero ..
  rw [BitVec.toInt, unzigzag, toNat_xor_spread, BitVec.toNat_ushiftRight, Nat.shiftRight_one, hodd, unzzInt]
  rw [pow_succ] at hu ⊢
  by_cases h : u.toNat % 2 = 1
  · rw [decide_eq_true h, if_pos rfl, if_neg (by omega), if_neg (by omega)]
    omega
  · rw [decide_eq_false h, if_neg Bool.false_ne_true, if_pos (by omega), if_pos (by omega)]
    omega

theorem unzigzag_zigzag {w : Nat} (hw : 0 < w) (x : BitVec w) : unzigzag (zigzag x) = x := by
  apply BitVec.eq_of_toInt_eq
  rw [toInt_unzigzag hw, toNat_zigzag hw, unzzInt_zzInt]

theorem zigzag_unzigzag {w : Nat} (hw : 0 < w) (u : BitVec w) : zigzag (unzigzag u) = u := by
  apply BitVec.eq_of_toNat_eq
  have h := toNat_zigzag hw (unzigzag u)
  rw [toInt_unzigzag hw, zzInt_unzzInt (Int.natCast_nonneg _)] at h
  exact Int.ofNat_inj.1 h

/-! ### `ZZE.W` and `ZZD.W` -/

@[simp] theorem commandWord_zzeInstr (w : Width) (val : Value) : commandWord (zzeInstr w val) = sizedWord 0xA#4 w := by
  cases w <;> rfl

@[simp] theorem commandWord_zzdInstr (w : Width) (val : Value) : commandWord (zzdInstr w val) = sizedWord 0xB#4 w := by
  cases w <;> rfl

theorem exec_zze (w : Width) (val : Value) (s : State) : exec (zzeInstr w val) s =
    .next (s.answer { Response.okay with val := zext128 (zigzag (lowBits w val)) }) := exec_zzeInstr ..

theorem exec_zzd (w : Width) (val : Value) (s : State) : exec (zzdInstr w val) s =
    .next (s.answer { Response.okay with val := zext128 (unzigzag (lowBits w val)) }) := exec_zzdInstr ..

/-- The number `ZZE.W` answers, by R102 and R103. -/
theorem zzInt_signedOf_lowBits (w : Width) (val : Value) :
    zzInt (signedOf w.bits (val.toNat % 2 ^ w.bits)) = ((zigzag (lowBits w val)).toNat : Int) := by
  rw [signedOf_lowBits, toNat_zigzag (width_bits_pos w)]

/-- Settles O34: the zigzag of the pattern is the zigzag of the integer the pattern stands for. -/
theorem zzeAnswersTheZigzag : Obligations.ZzeAnswersTheZigzag := by
  intro w val s
  rw [zzInt_signedOf_lowBits, Int.toNat_natCast, exec_zze, zext128_eq]
  exact ⟨commandWord_zzeInstr w val, Int.natCast_nonneg _, mod_cast (zigzag (lowBits w val)).isLt, rfl⟩

/-- Settles O35: the unzigzag of the pattern stands for the unzigzag of the number. -/
theorem zzdAnswersTheUnzigzag : Obligations.ZzdAnswersTheUnzigzag := by
  intro w val s
  refine ⟨commandWord_zzdInstr w val, (unzigzag (lowBits w val)).toNat, BitVec.isLt _, ?reading, ?answer⟩
  case reading => rw [signedOf_toNat (width_bits_pos w), toInt_unzigzag (width_bits_pos w), toNat_lowBits]
  case answer => rw [exec_zzd, zext128_eq]

/-- Settles O36: the two bit formulas undo each other because the integer functions they compute do. -/
theorem zigzagCommandsUndoEachOther : Obligations.ZigzagCommandsUndoEachOther := by
  refine ⟨fun s => ⟨rfl, rfl, rfl, rfl, rfl, rfl⟩, fun w val s => ?_⟩
  rw [← toNat_lowBits, ← zext128_eq]
  refine ⟨⟨_, exec_zze w val s, ?decoded⟩, _, exec_zzd w val s, ?encoded⟩
  case decoded => rw [exec_zzd, lowBits_zext128, unzigzag_zigzag (width_bits_pos w)]
  case encoded => rw [exec_zze, lowBits_zext128, zigzag_unzigzag (width_bits_pos w)]

/-! ### Byte reversal -/

/-- The number of a reversed byte list: the later a byte, the less it weighs (R107). -/
theorem le_reverse_map_range (f : Nat → Byte) (n : Nat) :
    le ((List.range n).map f).reverse = ((List.range n).map fun i => (f i).toNat * 2 ^ (8 * (n - 1 - i))).sum := by
  induction n with
  | zero => rfl
  | succ n ih =>
    have hshift : ∀ i ∈ List.range n,
        (f i).toNat * 2 ^ (8 * (n - i)) = 256 * ((f i).toNat * 2 ^ (8 * (n - 1 - i))) := by
      intro i hi
      have hstep : 8 * (n - i) = 8 * (n - 1 - i) + 8 := by
        have := List.mem_range.1 hi
        omega
      rw [hstep, pow_add]
      ring
    simp [List.range_succ, le, ih, List.map_congr_left hshift, List.sum_map_mul_left, Nat.add_comm]

/-- `brev` joins the bytes in the reverse order (R107). -/
theorem byteReverse_eq (n u : Nat) : byteReverse (8 * n) u = le (bytesLe u n).reverse := by
  have hbyte : ∀ i, (byteOf (bitsOf u (8 * i + 7) (8 * i))).toNat = bitsOf u (8 * i + 7) (8 * i) := by
    intro i
    have hbits : 8 * i + 7 - 8 * i + 1 = 8 := by omega
    rw [byteOf_toNat, bitsOf, hbits]
    exact Nat.mod_mod ..
  simp only [byteReverse, bytesLe, le_reverse_map_range, hbyte, Nat.mul_div_cancel_left n (by decide : 0 < 8)]

theorem byteReverse_lt (w : Width) (u : Nat) : byteReverse w.bits u < 2 ^ w.bits := by
  obtain ⟨n, -, -, hbits, -⟩ := width_bits_eq_worstLen w
  have h := le_lt (bytesLe u n).reverse
  rwa [List.length_reverse, bytesLe_length, ← byteReverse_eq, show 256 = 2 ^ 8 from rfl, ← pow_mul, ← hbits] at h

/-- `brev` is its own inverse (R107). -/
theorem byteReverse_byteReverse (w : Width) (u : Nat) : byteReverse w.bits (byteReverse w.bits u) = u % 2 ^ w.bits := by
  obtain ⟨n, -, -, hbits, -⟩ := width_bits_eq_worstLen w
  have hbytes : bytesLe (le (bytesLe u n).reverse) n = (bytesLe u n).reverse := by
    have h := bytesLe_le (bytesLe u n).reverse
    rwa [List.length_reverse, bytesLe_length] at h
  rw [hbits, byteReverse_eq, byteReverse_eq, hbytes, List.reverse_reverse, le_bytesLe, show 256 = 2 ^ 8 from rfl,
    ← pow_mul]

/-! ### `FTU.W` and `UTF.W` -/

theorem exec_ftu (w : Width) (val : Value) (s : State) : exec (ftuInstr w val) s =
    .next (s.answer { Response.okay with val := BitVec.ofNat 128 (byteReverse w.bits (lowBits w val).toNat) }) :=
  exec_ftuInstr ..

/-- `UTF.W` computes the same function (R110). -/
theorem exec_utf (w : Width) (val : Value) (s : State) : exec (utfInstr w val) s = exec (ftuInstr w val) s := by
  rw [exec_utfInstr, exec_ftuInstr]
  rfl

/-- `FTU.W` of what it answered gives the pattern back (R107, R111). -/
theorem exec_ftu_of_byteReverse (w : Width) (val : Value) (s : State) :
    exec (ftuInstr w (BitVec.ofNat 128 (byteReverse w.bits (lowBits w val).toNat))) s =
      .next (s.answer { Response.okay with val := BitVec.ofNat 128 (val.toNat % 2 ^ w.bits) }) := by
  rw [exec_ftu, lowBits_ofNat (byteReverse_lt w _), byteReverse_byteReverse, toNat_lowBits, Nat.mod_mod]

/-- Settles O38: both commands reverse the bytes, and reversing twice changes nothing. -/
theorem floatCommandsUndoEachOther : Obligations.FloatCommandsUndoEachOther := by
  refine ⟨fun s => ⟨rfl, rfl⟩, fun w val s => ?_⟩
  simp only [exec_utf]
  exact ⟨⟨_, exec_ftu w val s, exec_ftu_of_byteReverse w val s⟩, _, exec_ftu w val s, exec_ftu_of_byteReverse w val s⟩

/-! ### The effect of zigzag on size -/

/-- A command that answers hands its response, and the state that holds it, to the command after it (R49). -/
theorem andThen_issue {i : Instr} {s : State} {r : Response} (h : exec i s = .next (s.answer r))
    (second : Response → State → HostCall) : andThen (issue i s) second = second r (s.answer r) := by
  rw [issue, h]
  rfl

theorem issue_of_answer {i : Instr} {s : State} {r : Response} (h : exec i s = .next (s.answer r)) :
    issue i s = .next (r, s.answer r) := by
  rw [issue, h]
  rfl

/-- `SIZEZ.W` answers the canonical length of the zigzag (R49, R103). -/
theorem sizez_eq (w : Width) (x : Value) (s : State) : ∃ t, sizez w x s =
    .next ({ Response.okay with len := count (canonLen (zigzag (lowBits w x)).toNat) }, t) := by
  have hval : (zext128 (zigzag (lowBits w x))).toNat = (zigzag (lowBits w x)).toNat :=
    BitVec.toNat_setWidth_of_le (width_bits_le w)
  have hfit : (zext128 (zigzag (lowBits w x))).toNat < 2 ^ w.bits := hval ▸ BitVec.isLt _
  rw [sizez, andThen_issue (exec_zze w x s),
    issue_of_answer ((exec_sizeInstr ..).trans (sizeOfValue_of_fits _ hfit)), hval]
  exact ⟨_, rfl⟩

/-- A value of the PrefixVarint tier with parameter `k`, or a shorter one, takes at most `k + 1` bytes (R57, R62). -/
theorem canonLen_le_of_lt_two_pow_seven_mul {v k : Nat} (hk : k ≤ 3) (h : v < 2 ^ (7 + 7 * k)) :
    canonLen v ≤ k + 1 := by
  have hport : v < 2 ^ 128 := h.trans_le (Nat.pow_le_pow_right Nat.two_pos (by omega))
  obtain ⟨-, hlen⟩ | ⟨j, -, -, hlow, -, hlen⟩ | ⟨n, -, -, h28, -, -, hlen⟩ := canonLen_cases hport
  · omega
  · have := lt_of_two_pow_le_of_lt_two_pow hlow h
    omega
  · have := lt_of_two_pow_le_of_lt_two_pow h28 h
    omega

/-- An integer of at most `7 + 7k` bits with its sign zigzags to at most `k + 1` bytes (R104). -/
theorem canonLen_zigzag_le {w : Width} {x : BitVec w.bits} {k : Nat} (hk : k ≤ 3) (hlow : -2 ^ (6 + 7 * k) ≤ x.toInt)
    (hhigh : x.toInt < 2 ^ (6 + 7 * k)) : canonLen (zigzag x).toNat ≤ k + 1 := by
  have hbound : ((zigzag x).toNat : Int) < 2 * 2 ^ (6 + 7 * k) :=
    toNat_zigzag (width_bits_pos w) x ▸ (zzInt_bounds hlow hhigh).2
  apply canonLen_le_of_lt_two_pow_seven_mul hk
  rw [show 7 + 7 * k = (6 + 7 * k) + 1 by omega, pow_succ']
  exact_mod_cast hbound

/-- The pattern of a negative number has its top bit set, and takes the longest encoding (R101, R104). -/
theorem canonLen_of_signedOf_neg {w : Width} {u : Nat} (h : u < 2 ^ w.bits) (hneg : signedOf w.bits u < 0) :
    canonLen u = worstLen w := by
  have htop : 2 ^ (w.bits - 1) ≤ u := by
    by_contra hlt
    rw [signedOf, if_pos (not_le.1 hlt)] at hneg
    omega
  have hport : u < 2 ^ 128 := h.trans_le (Nat.pow_le_pow_right Nat.two_pos (width_bits_le w))
  obtain ⟨n, -, hn16, hbits, hworst⟩ := width_bits_eq_worstLen w
  rw [hbits] at h htop
  rw [hworst]
  exact (canonLen_le_of_lt_two_pow hn16 h).antisymm (lt_canonLen_of_two_pow_le hport htop)

/-- Settles O40: each range of R104 is that of the integers whose zigzag has 7 bits for each byte of the encoding. -/
theorem zigzagMakesSmallNumbersShort : Obligations.ZigzagMakesSmallNumbersShort := by
  intro w x s
  obtain ⟨t, ht⟩ := sizez_eq w x s
  have hlen : (count (canonLen (zigzag (lowBits w x)).toNat)).toNat = canonLen (zigzag (lowBits w x)).toNat := by
    have h := count_canonLen_toNat (zext128 (zigzag (lowBits w x)))
    rwa [zext128, BitVec.toNat_setWidth_of_le (width_bits_le w)] at h
  have hpos : 1 ≤ canonLen (zigzag (lowBits w x)).toNat :=
    (canonLen_bounds ((BitVec.isLt _).trans_le (Nat.pow_le_pow_right Nat.two_pos (width_bits_le w)))).1
  refine ⟨_, t, ht, rfl, ?one, ?two, ?three, ?four, canonLen_of_signedOf_neg (Nat.mod_lt _ (Nat.two_pow_pos _))⟩
  all_goals
    rw [signedOf_lowBits, hlen]
    intro hlow hhigh
  case one => exact (canonLen_zigzag_le (k := 0) (by omega) hlow (by omega)).antisymm hpos
  case two => exact canonLen_zigzag_le (k := 1) (by omega) hlow (by omega)
  case three => exact canonLen_zigzag_le (k := 2) (by omega) hlow hhigh
  case four => exact canonLen_zigzag_le (k := 3) (by omega) hlow hhigh

end Sys2Proof.Machine
end

-- ==== The statuses of an answer ====
section
/-! PROOFS of the statements on errors and illegal words. One relation says what an answer of a command can be: `OK`, or an
error of its row of R120 over the state as it was (R122). Each family of commands meets it, by the lemma that says
everything the family can do; a status is missing from the row of the widest command because no value of the port and no
encoding reaches `2^128`. The illegal words are those outside the table of R45, by their fields and in number. -/

namespace Sys2Proof.Machine

variable {s t : State} {w : Width} {val : Value}

/-- `t` is an answer to a command given in `s` whose row of the status table is `row`: either it is `OK`, or it is one of
the row's statuses with every other field 0, and nothing else has changed (R120, R122). -/
def AnswersInRow (row : List Status) (s t : State) : Prop :=
  (∃ q, t.rsp = some q ∧ q.status = Status.ok.code) ∨ ∃ k ∈ row, t = s.answer (Response.blank k)

/-! ### The rows -/

/-- Every row of R120 has `OK`. -/
theorem ok_mem_statusRow (i : Instr) : .ok ∈ statusRow i := by
  cases i <;> exact List.mem_cons_self

theorem bufferTooSmall_mem_statusRow_enc (w : Width) (val : Value) (base cap : Nat) :
    .bufferTooSmall ∈ statusRow (encInstr w val base cap) := by
  cases w <;> exact List.mem_cons_of_mem _ List.mem_cons_self

theorem truncatedInput_mem_statusRow_dec (w : Width) (base cap : Nat) :
    .truncatedInput ∈ statusRow (decInstr w base cap) := by
  cases w <;> exact List.mem_cons_of_mem _ List.mem_cons_self

theorem width_ne_w128_of_le {v : Nat} (hport : v < 2 ^ 128) (hbig : 2 ^ w.bits ≤ v) : w ≠ .w128 := by
  rintro rfl
  exact hport.not_ge hbig

theorem valueTooLarge_mem_statusRow_enc (hw : w ≠ .w128) (val : Value) (base cap : Nat) :
    .valueTooLarge ∈ statusRow (encInstr w val base cap) := by
  cases w with
  | w128 => exact absurd rfl hw
  | _ => simp [encInstr, statusRow]

theorem overflow_mem_statusRow_dec (hw : w ≠ .w128) (base cap : Nat) :
    .overflow ∈ statusRow (decInstr w base cap) := by
  cases w with
  | w128 => exact absurd rfl hw
  | _ => simp [decInstr, statusRow]

theorem valueTooLarge_mem_statusRow_size (hw : w ≠ .w128) (val : Value) :
    .valueTooLarge ∈ statusRow (sizeInstr w val) := by
  cases w with
  | w128 => exact absurd rfl hw
  | _ => simp [sizeInstr, statusRow]

/-! ### What each family answers -/

theorem answersInRow_enc {base cap : Nat} (h : exec (encInstr w val base cap) s = .next t) :
    AnswersInRow (statusRow (encInstr w val base cap)) s t := by
  rw [exec_encInstr] at h
  obtain ⟨-, ⟨hbig, ht⟩ | ⟨-, -, ht⟩ | ⟨-, -, rfl⟩⟩ := encodeValue_next h
  · exact .inr ⟨_, valueTooLarge_mem_statusRow_enc (width_ne_w128_of_le val.isLt hbig) .., ht⟩
  · exact .inr ⟨_, bufferTooSmall_mem_statusRow_enc .., ht⟩
  · exact .inl ⟨_, rfl, rfl⟩

theorem answersInRow_dec {base cap : Nat} (h : exec (decInstr w base cap) s = .next t) :
    AnswersInRow (statusRow (decInstr w base cap)) s t := by
  rw [exec_decInstr] at h
  obtain ⟨-, ⟨-, ht⟩ | ⟨-, ⟨hbig, ht⟩ | ⟨-, rfl⟩⟩⟩ := decodeSpan_next h
  · exact .inr ⟨_, truncatedInput_mem_statusRow_dec .., ht⟩
  · exact .inr ⟨_, overflow_mem_statusRow_dec (width_ne_w128_of_le (gather_lt _) hbig) .., ht⟩
  · exact .inl ⟨_, rfl, rfl⟩

theorem answersInRow_size (h : exec (sizeInstr w val) s = .next t) :
    AnswersInRow (statusRow (sizeInstr w val)) s t := by
  rw [exec_sizeInstr] at h
  obtain ⟨hbig, hs⟩ | ⟨-, hs⟩ := sizeOfValue_cases w val s
  all_goals
    rw [hs] at h
    cases h
  · exact .inr ⟨_, valueTooLarge_mem_statusRow_size (width_ne_w128_of_le val.isLt hbig) .., rfl⟩
  · exact .inl ⟨_, rfl, rfl⟩

theorem answersInRow_pvp (h : exec (.pvp val) s = .next t) : AnswersInRow (statusRow (.pvp val)) s t := by
  rw [exec_pvp] at h
  obtain ⟨-, hs⟩ | ⟨k, -, hs⟩ := execPvp_cases val s
  all_goals
    rw [hs] at h
    cases h
  · exact .inr ⟨_, List.mem_cons_of_mem _ List.mem_cons_self, rfl⟩
  · exact .inl ⟨_, rfl, rfl⟩

/-- A command that can only complete with `OK`. -/
theorem answersInRow_of_okay {i : Instr} {row : List Status} {q : Response} (hi : exec i s = .next (s.answer q))
    (hq : q.status = Status.ok.code) (h : exec i s = .next t) : AnswersInRow row s t := by
  cases hi.symm.trans h
  exact .inl ⟨q, rfl, hq⟩

/-- A command that is not refused answers in its row (R120), whichever operation its request named (R42). -/
theorem answersInRow_of_decode {r : Request} {i : Instr} (hd : decode r = .command i) (h : exec i s = .next t) :
    AnswersInRow (statusRow i) s t := by
  obtain ⟨-, ⟨-, w, -, rfl⟩ | ⟨-, w, -, rfl⟩ | ⟨-, w, -, rfl⟩ | ⟨-, -, rfl⟩ | ⟨-, -, rfl⟩ | ⟨-, -, rfl⟩ | ⟨-, -, rfl⟩ |
    ⟨-, -, rfl⟩ | ⟨-, -, rfl⟩ | ⟨-, w, -, rfl⟩ | ⟨-, w, -, rfl⟩ | ⟨-, w, -, rfl⟩ | ⟨-, w, -, rfl⟩⟩ := decode_command hd
  · exact answersInRow_enc h
  · exact answersInRow_dec h
  · exact answersInRow_size h
  · exact answersInRow_of_okay (exec_cls ..) rfl h
  · exact answersInRow_pvp h
  · exact answersInRow_of_okay (exec_lpp ..) rfl h
  · exact answersInRow_of_okay (exec_hdr ..) rfl h
  · exact answersInRow_of_okay (exec_gath ..) rfl h
  · exact answersInRow_of_okay (exec_scat ..) rfl h
  · exact answersInRow_of_okay (exec_zze ..) rfl h
  · exact answersInRow_of_okay (exec_zzd ..) rfl h
  · exact answersInRow_of_okay (exec_ftu ..) rfl h
  · exact answersInRow_of_okay ((exec_utf ..).trans (exec_ftu ..)) rfl h

/-! ### Transactions -/

/-- Settles O44: a request of a command answers in the command's row, and any other is answered `IllegalCommand`. -/
theorem everyStatusIsInItsRow : Obligations.EveryStatusIsInItsRow := by
  intro r s t h
  obtain ⟨i, hd, htr⟩ | ⟨why, hd, htr⟩ := transact_cases r s <;> rw [htr] at h
  · have hrow : ∃ p, t.rsp = some p ∧ ∃ k ∈ statusRow i, p.status = k.code := by
      obtain ⟨q, hq, hok⟩ | ⟨k, hk, rfl⟩ := answersInRow_of_decode hd h
      · exact ⟨q, hq, _, ok_mem_statusRow i, hok⟩
      · exact ⟨_, rfl, k, hk, rfl⟩
    obtain ⟨p, hp, hstatus⟩ := hrow
    refine ⟨p, hp, fun j hj => ?_, fun hnone => absurd hd (hnone i)⟩
    cases hd.symm.trans hj
    exact hstatus
  · cases h
    refine ⟨_, State.answer_rsp .., fun i hi => ?_, fun _ => rfl⟩
    cases hd.symm.trans hi

/-- Settles O45: an answer with a status other than `OK` is one of `Response.blank` over the state before the request. -/
theorem errorsLeaveTheSystemUnchanged : Obligations.ErrorsLeaveTheSystemUnchanged := by
  intro r s t p h hp herr
  have herror : ∃ k, t = s.answer (Response.blank k) := by
    obtain ⟨i, hd, htr⟩ | ⟨why, -, htr⟩ := transact_cases r s <;> rw [htr] at h
    · obtain ⟨q, hq, hok⟩ | ⟨k, -, ht⟩ := answersInRow_of_decode hd h
      · cases hq.symm.trans hp
        exact absurd hok herr
      · exact ⟨k, ht⟩
    · cases h
      exact ⟨_, rfl⟩
  obtain ⟨k, rfl⟩ := herror
  cases hp
  exact ⟨rfl, rfl, rfl, rfl, rfl, rfl⟩

/-! ### Illegal command words -/

/-- The words R46 calls illegal, by their fields, are those that are not legal by their fields. -/
theorem not_legalFields_iff (c : BitVec 8) :
    ¬LegalFields c ↔ zField c = 1#1 ∨ wselField c ∈ [0b101#3, 0b110#3, 0b111#3] ∨
      opField c ∈ [0x0#4, 0xE#4, 0xF#4] ∨
      (4 ≤ (opField c).toNat ∧ (opField c).toNat ≤ 9 ∧ wselField c ≠ 0b000#3) := by
  unfold LegalFields
  revert c
  decide

/-- The 256 words that are legal are those of the table, each once. -/
theorem range_filter_legalWords_perm (hnodup : legalWords.Nodup) :
    ((List.range 256).filter fun n => decide (BitVec.ofNat 8 n ∈ legalWords)).Perm (legalWords.map BitVec.toNat) := by
  refine (List.perm_ext_iff_of_nodup (List.nodup_range.filter _)
    (hnodup.map fun _ _ => BitVec.eq_of_toNat_eq)).2 fun n => ?_
  simp only [List.mem_filter, List.mem_range, decide_eq_true_eq, List.mem_map]
  constructor
  · rintro ⟨hn, hmem⟩
    exact ⟨_, hmem, (BitVec.toNat_ofNat ..).trans (Nat.mod_eq_of_lt hn)⟩
  · rintro ⟨c, hc, rfl⟩
    exact ⟨c.isLt, by rwa [BitVec.ofNat_toNat, BitVec.setWidth_eq]⟩

/-- Settles O4: a word outside the table decodes to no command, and legality by fields is legality by the table. -/
theorem illegalWordsAnswerIllegalCommand : Obligations.IllegalWordsAnswerIllegalCommand := by
  obtain ⟨hlegal, hnodup, hlen, -⟩ := fortyOneLegalWords
  refine ⟨fun r s hr => ?answer, fun c => ?fields, ?number⟩
  case answer =>
    obtain ⟨i, hd, -⟩ | ⟨-, -, htr⟩ := transact_cases r s
    · exact absurd ((hlegal r).1 ⟨i, hd⟩) hr
    · exact htr
  case fields => rw [← legalFields_iff_mem_legalWords, not_legalFields_iff]
  case number =>
    have hcount := (range_filter_legalWords_perm hnodup).length_eq
    have hsplit := (List.range 256).length_eq_length_filter_add fun n => decide (BitVec.ofNat 8 n ∈ legalWords)
    simp only [List.length_range, List.length_map, hcount, hlen, ← decide_not] at hsplit
    omega

end Sys2Proof.Machine
end

-- ==== Decoding and encoding a command ====
section
/-! PROOFS of the statements on the decoder and the encoder. One relation says that two requests agree on what a command
reads. A request that decodes to a command agrees with the command's own request, and requests that agree decode
alike. -/

namespace Sys2Proof

/-- Two requests agree on the command word and on the fields the command reads (R12, R24). -/
def AgreeOnReadFields (i : Instr) (r q : Request) : Prop :=
  r.cmd = q.cmd ∧ (readsVal i = true → r.val = q.val) ∧ (readsVec i = true → r.vec = q.vec) ∧
    (readsSpan i = true → r.base = q.base ∧ r.cap = q.cap)

/-! ### The request of each width-taking family (R45, R48) -/

section Families

variable (w : Width) (val : Value) (base cap : Nat)

@[simp] theorem encode_encInstr : encode (encInstr w val base cap) = ⟨sizedWord 0x1#4 w, val, 0, base, cap⟩ := by
  cases w <;> rfl

@[simp] theorem encode_decInstr : encode (decInstr w base cap) = ⟨sizedWord 0x2#4 w, 0, 0, base, cap⟩ := by
  cases w <;> rfl

@[simp] theorem encode_sizeInstr : encode (sizeInstr w val) = ⟨sizedWord 0x3#4 w, val, 0, 0, 0⟩ := by cases w <;> rfl

@[simp] theorem encode_zzeInstr : encode (zzeInstr w val) = ⟨sizedWord 0xA#4 w, val, 0, 0, 0⟩ := by cases w <;> rfl

@[simp] theorem encode_zzdInstr : encode (zzdInstr w val) = ⟨sizedWord 0xB#4 w, val, 0, 0, 0⟩ := by cases w <;> rfl

@[simp] theorem encode_ftuInstr : encode (ftuInstr w val) = ⟨sizedWord 0xC#4 w, val, 0, 0, 0⟩ := by cases w <;> rfl

@[simp] theorem encode_utfInstr : encode (utfInstr w val) = ⟨sizedWord 0xD#4 w, val, 0, 0, 0⟩ := by cases w <;> rfl

/-! ### The fields each width-taking family reads (R24) -/

theorem agreeOnReadFields_encInstr {r q : Request} : AgreeOnReadFields (encInstr w val base cap) r q ↔
    r.cmd = q.cmd ∧ r.val = q.val ∧ r.base = q.base ∧ r.cap = q.cap := by
  cases w <;> simp [AgreeOnReadFields, encInstr, readsVal, readsVec, readsSpan, Instr.span]

theorem agreeOnReadFields_decInstr {r q : Request} : AgreeOnReadFields (decInstr w base cap) r q ↔
    r.cmd = q.cmd ∧ r.base = q.base ∧ r.cap = q.cap := by
  cases w <;> simp [AgreeOnReadFields, decInstr, readsVal, readsVec, readsSpan, Instr.span]

theorem agreeOnReadFields_gath {x : Lanes} {r q : Request} : AgreeOnReadFields (.gath x) r q ↔
    r.cmd = q.cmd ∧ r.vec = q.vec := by
  simp [AgreeOnReadFields, readsVal, readsVec, readsSpan, Instr.span]

/-- A command reads `VAL` and no other operand field. -/
def ReadsValAlone (i : Instr) : Prop := readsVal i = true ∧ readsVec i = false ∧ readsSpan i = false

theorem ReadsValAlone.agree_iff {i : Instr} (h : ReadsValAlone i) {r q : Request} :
    AgreeOnReadFields i r q ↔ r.cmd = q.cmd ∧ r.val = q.val := by
  obtain ⟨hval, hvec, hspan⟩ := h
  simp [AgreeOnReadFields, hval, hvec, hspan]

theorem readsValAlone_sizeInstr : ReadsValAlone (sizeInstr w val) := by cases w <;> exact ⟨rfl, rfl, rfl⟩

theorem readsValAlone_zzeInstr : ReadsValAlone (zzeInstr w val) := by cases w <;> exact ⟨rfl, rfl, rfl⟩

theorem readsValAlone_zzdInstr : ReadsValAlone (zzdInstr w val) := by cases w <;> exact ⟨rfl, rfl, rfl⟩

theorem readsValAlone_ftuInstr : ReadsValAlone (ftuInstr w val) := by cases w <;> exact ⟨rfl, rfl, rfl⟩

theorem readsValAlone_utfInstr : ReadsValAlone (utfInstr w val) := by cases w <;> exact ⟨rfl, rfl, rfl⟩

end Families

/-! ### The command word behind its fields -/

/-- A legal command word is put together from its `OP` and the width `WSEL` names (R40, R41). -/
theorem cmd_eq_sizedWord {c : BitVec 8} {w : Width} (hz : zField c ≠ 1#1) (hw : widthOfWsel (wselField c) = some w) :
    c = sizedWord (opField c) w := by
  cases w <;> revert c <;> decide

theorem cmd_eq_of_sized {c : BitVec 8} {w : Width} {op : BitVec 4} (hz : zField c ≠ 1#1)
    (ho : (opField c).toNat = op.toNat) (hw : widthOfWsel (wselField c) = some w) : c = sizedWord op w :=
  BitVec.eq_of_toNat_eq ho ▸ cmd_eq_sizedWord hz hw

/-- A width-less word has the `WSEL` that names the 8-bit width (R43). -/
theorem cmd_eq_of_unsized {c : BitVec 8} {op : BitVec 4} (hz : zField c ≠ 1#1)
    (ho : (opField c).toNat = op.toNat) (hw : wselField c = 0#3) : c = sizedWord op .w8 :=
  cmd_eq_of_sized hz ho (hw ▸ rfl)

/-! ### Decoding reads what the encoder writes -/

variable {r q : Request} {i : Instr}

/-- A request that decodes to a command carries the command's word and the operands the command reads. -/
theorem agree_encode_of_decode (h : decode r = .command i) : AgreeOnReadFields i r (encode i) := by
  obtain ⟨hz, hop⟩ := decode_command h
  obtain ⟨ho, w, hw, rfl⟩ | ⟨ho, w, hw, rfl⟩ | ⟨ho, w, hw, rfl⟩ | ⟨ho, hw, rfl⟩ | ⟨ho, hw, rfl⟩ | ⟨ho, hw, rfl⟩ |
    ⟨ho, hw, rfl⟩ | ⟨ho, hw, rfl⟩ | ⟨ho, hw, rfl⟩ | ⟨ho, w, hw, rfl⟩ | ⟨ho, w, hw, rfl⟩ | ⟨ho, w, hw, rfl⟩ |
    ⟨ho, w, hw, rfl⟩ := hop
  · rw [encode_encInstr]
    exact (agreeOnReadFields_encInstr ..).2 ⟨cmd_eq_of_sized hz ho hw, rfl, rfl, rfl⟩
  · rw [encode_decInstr]
    exact (agreeOnReadFields_decInstr ..).2 ⟨cmd_eq_of_sized hz ho hw, rfl, rfl⟩
  · rw [encode_sizeInstr]
    exact (readsValAlone_sizeInstr ..).agree_iff.2 ⟨cmd_eq_of_sized hz ho hw, rfl⟩
  · exact ReadsValAlone.agree_iff ⟨rfl, rfl, rfl⟩ |>.2 ⟨cmd_eq_of_unsized (op := 0x4#4) hz ho hw, rfl⟩
  · exact ReadsValAlone.agree_iff ⟨rfl, rfl, rfl⟩ |>.2 ⟨cmd_eq_of_unsized (op := 0x5#4) hz ho hw, rfl⟩
  · exact ReadsValAlone.agree_iff ⟨rfl, rfl, rfl⟩ |>.2 ⟨cmd_eq_of_unsized (op := 0x6#4) hz ho hw, rfl⟩
  · exact ReadsValAlone.agree_iff ⟨rfl, rfl, rfl⟩ |>.2 ⟨cmd_eq_of_unsized (op := 0x7#4) hz ho hw, rfl⟩
  · exact agreeOnReadFields_gath.2 ⟨cmd_eq_of_unsized (op := 0x8#4) hz ho hw, rfl⟩
  · exact ReadsValAlone.agree_iff ⟨rfl, rfl, rfl⟩ |>.2 ⟨cmd_eq_of_unsized (op := 0x9#4) hz ho hw, rfl⟩
  · rw [encode_zzeInstr]
    exact (readsValAlone_zzeInstr ..).agree_iff.2 ⟨cmd_eq_of_sized hz ho hw, rfl⟩
  · rw [encode_zzdInstr]
    exact (readsValAlone_zzdInstr ..).agree_iff.2 ⟨cmd_eq_of_sized hz ho hw, rfl⟩
  · rw [encode_ftuInstr]
    exact (readsValAlone_ftuInstr ..).agree_iff.2 ⟨cmd_eq_of_sized hz ho hw, rfl⟩
  · rw [encode_utfInstr]
    exact (readsValAlone_utfInstr ..).agree_iff.2 ⟨cmd_eq_of_sized hz ho hw, rfl⟩

/-- A field the command does not read has no effect on what a request decodes to (R12). -/
theorem decode_congr (h : decode q = .command i) (hag : AgreeOnReadFields i r q) : decode r = .command i := by
  obtain ⟨hz, hop⟩ := decode_command h
  rw [← hag.1] at hz hop
  obtain ⟨ho, w, hw, rfl⟩ | ⟨ho, w, hw, rfl⟩ | ⟨ho, w, hw, rfl⟩ | ⟨ho, hw, rfl⟩ | ⟨ho, hw, rfl⟩ | ⟨ho, hw, rfl⟩ |
    ⟨ho, hw, rfl⟩ | ⟨ho, hw, rfl⟩ | ⟨ho, hw, rfl⟩ | ⟨ho, w, hw, rfl⟩ | ⟨ho, w, hw, rfl⟩ | ⟨ho, w, hw, rfl⟩ |
    ⟨ho, w, hw, rfl⟩ := hop
  · obtain ⟨-, hval, hbase, hcap⟩ := (agreeOnReadFields_encInstr ..).1 hag
    rw [← hval, ← hbase, ← hcap, decode_enc hz ho hw]
  · obtain ⟨-, hbase, hcap⟩ := (agreeOnReadFields_decInstr ..).1 hag
    rw [← hbase, ← hcap, decode_dec hz ho hw]
  · rw [← ((readsValAlone_sizeInstr ..).agree_iff.1 hag).2, decode_size hz ho hw]
  · rw [← (ReadsValAlone.agree_iff ⟨rfl, rfl, rfl⟩ |>.1 hag).2, decode_cls hz ho hw]
  · rw [← (ReadsValAlone.agree_iff ⟨rfl, rfl, rfl⟩ |>.1 hag).2, decode_pvp hz ho hw]
  · rw [← (ReadsValAlone.agree_iff ⟨rfl, rfl, rfl⟩ |>.1 hag).2, decode_lpp hz ho hw]
  · rw [← (ReadsValAlone.agree_iff ⟨rfl, rfl, rfl⟩ |>.1 hag).2, decode_hdr hz ho hw]
  · rw [← (agreeOnReadFields_gath.1 hag).2, decode_gath hz ho hw]
  · rw [← (ReadsValAlone.agree_iff ⟨rfl, rfl, rfl⟩ |>.1 hag).2, decode_scat hz ho hw]
  · rw [← ((readsValAlone_zzeInstr ..).agree_iff.1 hag).2, decode_zze hz ho hw]
  · rw [← ((readsValAlone_zzdInstr ..).agree_iff.1 hag).2, decode_zzd hz ho hw]
  · rw [← ((readsValAlone_ftuInstr ..).agree_iff.1 hag).2, decode_ftu hz ho hw]
  · rw [← ((readsValAlone_utfInstr ..).agree_iff.1 hag).2, decode_utf hz ho hw]

/-! ### The fields of a word the encoder writes -/

theorem zField_sizedWord (op : BitVec 4) (w : Width) : zField (sizedWord op w) ≠ 1#1 := by
  revert op
  cases w <;> decide

theorem opField_sizedWord_toNat (op : BitVec 4) (w : Width) : (opField (sizedWord op w)).toNat = op.toNat := by
  revert op
  cases w <;> decide

theorem widthOfWsel_sizedWord (op : BitVec 4) (w : Width) : widthOfWsel (wselField (sizedWord op w)) = some w := by
  revert op
  cases w <;> decide

theorem wselField_sizedWord_w8 (op : BitVec 4) : wselField (sizedWord op .w8) = 0#3 := by
  revert op
  decide

/-! ### Decoding what the encoder wrote -/

theorem decode_encode_encInstr (w : Width) (val : Value) (base cap : Nat) :
    decode (encode (encInstr w val base cap)) = .command (encInstr w val base cap) := by
  rw [encode_encInstr]
  exact decode_enc (zField_sizedWord _ w) (opField_sizedWord_toNat ..) (widthOfWsel_sizedWord ..)

theorem decode_encode_decInstr (w : Width) (base cap : Nat) :
    decode (encode (decInstr w base cap)) = .command (decInstr w base cap) := by
  rw [encode_decInstr]
  exact decode_dec (zField_sizedWord _ w) (opField_sizedWord_toNat ..) (widthOfWsel_sizedWord ..)

theorem decode_encode_sizeInstr (w : Width) (val : Value) :
    decode (encode (sizeInstr w val)) = .command (sizeInstr w val) := by
  rw [encode_sizeInstr]
  exact decode_size (zField_sizedWord _ w) (opField_sizedWord_toNat ..) (widthOfWsel_sizedWord ..)

theorem decode_encode_zzeInstr (w : Width) (val : Value) :
    decode (encode (zzeInstr w val)) = .command (zzeInstr w val) := by
  rw [encode_zzeInstr]
  exact decode_zze (zField_sizedWord _ w) (opField_sizedWord_toNat ..) (widthOfWsel_sizedWord ..)

theorem decode_encode_zzdInstr (w : Width) (val : Value) :
    decode (encode (zzdInstr w val)) = .command (zzdInstr w val) := by
  rw [encode_zzdInstr]
  exact decode_zzd (zField_sizedWord _ w) (opField_sizedWord_toNat ..) (widthOfWsel_sizedWord ..)

theorem decode_encode_ftuInstr (w : Width) (val : Value) :
    decode (encode (ftuInstr w val)) = .command (ftuInstr w val) := by
  rw [encode_ftuInstr]
  exact decode_ftu (zField_sizedWord _ w) (opField_sizedWord_toNat ..) (widthOfWsel_sizedWord ..)

theorem decode_encode_utfInstr (w : Width) (val : Value) :
    decode (encode (utfInstr w val)) = .command (utfInstr w val) := by
  rw [encode_utfInstr]
  exact decode_utf (zField_sizedWord _ w) (opField_sizedWord_toNat ..) (widthOfWsel_sizedWord ..)

/-- Settles O2: by the operation and the width of each of the 41 commands. -/
theorem decodeAfterEncode : Obligations.DecodeAfterEncode := by
  intro i
  cases i
  case enc8 => exact decode_encode_encInstr .w8 ..
  case enc16 => exact decode_encode_encInstr .w16 ..
  case enc32 => exact decode_encode_encInstr .w32 ..
  case enc64 => exact decode_encode_encInstr .w64 ..
  case enc128 => exact decode_encode_encInstr .w128 ..
  case dec8 => exact decode_encode_decInstr .w8 ..
  case dec16 => exact decode_encode_decInstr .w16 ..
  case dec32 => exact decode_encode_decInstr .w32 ..
  case dec64 => exact decode_encode_decInstr .w64 ..
  case dec128 => exact decode_encode_decInstr .w128 ..
  case size8 => exact decode_encode_sizeInstr .w8 ..
  case size16 => exact decode_encode_sizeInstr .w16 ..
  case size32 => exact decode_encode_sizeInstr .w32 ..
  case size64 => exact decode_encode_sizeInstr .w64 ..
  case size128 => exact decode_encode_sizeInstr .w128 ..
  case cls =>
    exact decode_cls (zField_sizedWord 0x4#4 .w8) (opField_sizedWord_toNat 0x4#4 .w8) (wselField_sizedWord_w8 0x4#4)
  case pvp =>
    exact decode_pvp (zField_sizedWord 0x5#4 .w8) (opField_sizedWord_toNat 0x5#4 .w8) (wselField_sizedWord_w8 0x5#4)
  case lpp =>
    exact decode_lpp (zField_sizedWord 0x6#4 .w8) (opField_sizedWord_toNat 0x6#4 .w8) (wselField_sizedWord_w8 0x6#4)
  case hdr =>
    exact decode_hdr (zField_sizedWord 0x7#4 .w8) (opField_sizedWord_toNat 0x7#4 .w8) (wselField_sizedWord_w8 0x7#4)
  case gath =>
    exact decode_gath (zField_sizedWord 0x8#4 .w8) (opField_sizedWord_toNat 0x8#4 .w8) (wselField_sizedWord_w8 0x8#4)
  case scat =>
    exact decode_scat (zField_sizedWord 0x9#4 .w8) (opField_sizedWord_toNat 0x9#4 .w8) (wselField_sizedWord_w8 0x9#4)
  case zze8 => exact decode_encode_zzeInstr .w8 ..
  case zze16 => exact decode_encode_zzeInstr .w16 ..
  case zze32 => exact decode_encode_zzeInstr .w32 ..
  case zze64 => exact decode_encode_zzeInstr .w64 ..
  case zze128 => exact decode_encode_zzeInstr .w128 ..
  case zzd8 => exact decode_encode_zzdInstr .w8 ..
  case zzd16 => exact decode_encode_zzdInstr .w16 ..
  case zzd32 => exact decode_encode_zzdInstr .w32 ..
  case zzd64 => exact decode_encode_zzdInstr .w64 ..
  case zzd128 => exact decode_encode_zzdInstr .w128 ..
  case ftu8 => exact decode_encode_ftuInstr .w8 ..
  case ftu16 => exact decode_encode_ftuInstr .w16 ..
  case ftu32 => exact decode_encode_ftuInstr .w32 ..
  case ftu64 => exact decode_encode_ftuInstr .w64 ..
  case ftu128 => exact decode_encode_ftuInstr .w128 ..
  case utf8 => exact decode_encode_utfInstr .w8 ..
  case utf16 => exact decode_encode_utfInstr .w16 ..
  case utf32 => exact decode_encode_utfInstr .w32 ..
  case utf64 => exact decode_encode_utfInstr .w64 ..
  case utf128 => exact decode_encode_utfInstr .w128 ..

/-- Settles O1: a request that decodes to a command agrees with the command's own, and one that agrees with it decodes
as it does. -/
theorem decodeReadsExactlyTheNamedFields : Obligations.DecodeReadsExactlyTheNamedFields :=
  fun _ i => ⟨agree_encode_of_decode, decode_congr (decodeAfterEncode i)⟩

/-- Settles O6: the first event of the host is the request, and its transaction is the command it decodes to. -/
theorem stepRunsTheDecodedCommand : Obligations.StepRunsTheDecodedCommand := by
  intro s r rest i hhost hd
  obtain ⟨j, hj, htr⟩ | ⟨why, hill, -⟩ := Machine.transact_cases r { s with host := rest }
  · cases hd.symm.trans hj
    exact (Machine.step_cons hhost).trans htr
  · cases hd.symm.trans hill

/-- Settles O5: the decoder evaluated on each of the twelve words. -/
theorem specWordsDecode : Obligations.SpecWordsDecode := by
  unfold Obligations.SpecWordsDecode
  decide

end Sys2Proof
end

-- ==== The layouts of a value ====
section
/-! PROOFS of the statements on the wire format: the bits of the layouts, the structurally valid encodings of a value as
exactly the layouts with room for it, and the canonical length as the least and as a function that grows. -/

namespace Sys2Proof.Machine

/-! ### Bits of the layouts -/

theorem getLsbD_byteOf (v : Nat) {b : Nat} (hb : b < 8) : (byteOf v).getLsbD b = v.testBit b := by
  rw [byteOf, BitVec.getLsbD_ofNat, decide_eq_true hb, Bool.true_and]

/-- Bit `b` of byte `i` of a number is bit `8i + b` of the number (R7). -/
theorem getLsbD_byteAt_bytesLe (v : Nat) {n i b : Nat} (hi : i < n) (hb : b < 8) :
    (byteAt (bytesLe v n) i).getLsbD b = v.testBit (8 * i + b) := by
  have hbyte : byteAt (bytesLe v n) i = byteOf (bitsOf v (8 * i + 7) (8 * i)) := by simp [byteAt, bytesLe, hi]
  have hbits : 8 * i + 7 - 8 * i + 1 = 8 := by omega
  rw [hbyte, getLsbD_byteOf _ hb, bitsOf, hbits, Nat.testBit_mod_two_pow, Nat.testBit_shiftRight]
  simp [hb]

/-- The first byte of a PrefixVarint layout: `k` ones above, the value's low bits below (R55). -/
theorem pvLayout_head_eq {k : Nat} (d : Nat) (hk1 : 1 ≤ k) (hk3 : k ≤ 3) :
    (0xFF <<< (8 - k)) % 256 + d % 2 ^ (7 - k) = 2 ^ (8 - k) * (2 ^ k - 1) + d % 2 ^ (7 - k) := by
  obtain rfl | rfl | rfl : k = 1 ∨ k = 2 ∨ k = 3 := by omega
  all_goals rfl

theorem getLsbD_pvLayout_head {k b : Nat} (d : Nat) (hk1 : 1 ≤ k) (hk3 : k ≤ 3) (hb : b < 8) :
    (byteAt (pvLayout k d) 0).getLsbD b = if b + k ≤ 6 then d.testBit b else decide (8 - k ≤ b) := by
  have hlow : d % 2 ^ (7 - k) < 2 ^ (8 - k) :=
    (Nat.mod_lt _ (Nat.two_pow_pos _)).trans_le (Nat.pow_le_pow_right Nat.two_pos (by omega))
  rw [pvLayout, byteAt_cons_zero, getLsbD_byteOf _ hb, pvLayout_head_eq d hk1 hk3, Nat.testBit_two_pow_mul_add _ hlow,
    Nat.testBit_mod_two_pow, Nat.testBit_two_pow_sub_one]
  by_cases hdata : b + k ≤ 6
  · rw [if_pos (by omega), if_pos hdata, decide_eq_true (by omega : b < 7 - k), Bool.true_and]
  · rw [if_neg hdata, decide_eq_false (by omega : ¬b < 7 - k), Bool.false_and]
    by_cases hone : 8 - k ≤ b
    · rw [if_neg (by omega), decide_eq_true hone, decide_eq_true (by omega)]
    · rw [if_pos (by omega), decide_eq_false hone]

/-- Settles O11: the bytes after the first are those of a number, and the first is taken apart by its bits. -/
theorem layoutsBitByBit : Obligations.LayoutsBitByBit := by
  refine ⟨fun k d hk1 hk3 _ => ⟨pvLayout_length k d, fun b => getLsbD_pvLayout_head d hk1 hk3, ?pv⟩,
    fun n d hn1 hn16 _ => ⟨lpLayout_length n d, ?header, ?lp⟩⟩
  case pv =>
    intro j b hj1 hjk hb
    obtain ⟨i, rfl⟩ := Nat.exists_eq_add_of_le' hj1
    rw [pvLayout_eq, byteAt_cons_succ, getLsbD_byteAt_bytesLe _ hjk hb, Nat.testBit_shiftRight]
    congr 1
    omega
  case header =>
    rw [lpLayout, byteAt_cons_zero, byteOf_toNat]
    omega
  case lp =>
    intro j b hj1 hjn hb
    obtain ⟨i, rfl⟩ := Nat.exists_eq_add_of_le' hj1
    rw [lpLayout, byteAt_cons_succ, getLsbD_byteAt_bytesLe _ hjn hb, Nat.add_sub_cancel]

/-! ### The structurally valid encodings of a value -/

/-- A byte that declares a PrefixVarint parameter is its `k` ones and its own low bits (R55, R64). -/
theorem eq_byteOf_of_hdr_prefixVarint {b : Byte} {k : Nat} (hk3 : k ≤ 3) (h : hdr b = ⟨.prefixVarint, k, k + 1⟩) :
    b = byteOf ((0xFF <<< (8 - k)) % 256 + b.toNat % 2 ^ (7 - k)) := by
  have hall : ∀ k ≤ 3, ∀ b : Byte, hdr b = ⟨.prefixVarint, k, k + 1⟩ →
      b = byteOf ((0xFF <<< (8 - k)) % 256 + b.toNat % 2 ^ (7 - k)) := by decide
  exact hall k hk3 b h

/-- A byte that declares a LengthPrefixed parameter is the header of R56. -/
theorem eq_byteOf_of_hdr_lengthPrefixed {b : Byte} {n : Nat} (h : hdr b = ⟨.lengthPrefixed, n, n + 1⟩) :
    b = byteOf (0xF0 + (n - 1)) := by
  have hall : ∀ b : Byte, (hdr b).tier = .lengthPrefixed → b = byteOf (0xF0 + ((hdr b).param - 1)) := by decide
  have hb := hall b (congrArg Header.tier h)
  rwa [h] at hb

/-- Low bits and a number above them are read back one by one. -/
theorem low_mod_and_shiftRight (x y c : Nat) :
    (x % 2 ^ c + 2 ^ c * y) % 2 ^ c = x % 2 ^ c ∧ (x % 2 ^ c + 2 ^ c * y) >>> c = y := by
  have hlow : x % 2 ^ c < 2 ^ c := Nat.mod_lt _ (Nat.two_pow_pos c)
  rw [Nat.add_mul_mod_self_left, Nat.mod_mod, Nat.shiftRight_eq_div_pow, Nat.add_mul_div_left _ _ (Nat.two_pow_pos c),
    Nat.div_eq_of_lt hlow, Nat.zero_add]
  exact ⟨rfl, rfl⟩

/-- A structurally valid encoding is the layout that its first byte declares, of the value it holds (R54 to R56). -/
theorem layout_of_structurallyValid {bs : List Byte} (h : structurallyValid bs = true) :
    bs = [byteOf (gather bs)] ∧ (hdr (byteAt bs 0)).valueBits = 7 ∨
      (∃ k, 1 ≤ k ∧ k ≤ 3 ∧ bs = pvLayout k (gather bs) ∧ (hdr (byteAt bs 0)).valueBits = 7 + 7 * k) ∨
      ∃ n, 1 ≤ n ∧ n ≤ 16 ∧ bs = lpLayout n (gather bs) ∧ (hdr (byteAt bs 0)).valueBits = 8 * n := by
  obtain ⟨b, tail, rfl⟩ := exists_cons_of_structurallyValid h
  have htail := structurallyValid_cons_iff.1 h
  rw [byteAt_cons_zero]
  obtain ⟨hb, h7⟩ | ⟨k, hk1, hk3, hb⟩ | ⟨n, hn1, hn16, hb⟩ := hdr_forms b <;> rw [hb] at htail ⊢
  · obtain rfl := List.eq_nil_of_length_eq_zero htail
    have hv : gather [b] = b.toNat := by simp only [gather, byteAt_cons_zero, hb]
    have hbyte : byteOf b.toNat = b := BitVec.ofNat_toNat 8 b
    exact .inl ⟨by rw [hv, hbyte], rfl⟩
  · obtain rfl : tail.length = k := htail
    have hv : gather (b :: tail) = b.toNat % 2 ^ (7 - tail.length) + 2 ^ (7 - tail.length) * le tail := by
      simp only [gather, byteAt_cons_zero, hb, gatherPv_cons]
    obtain ⟨hlow, hhigh⟩ := low_mod_and_shiftRight b.toNat (le tail) (7 - tail.length)
    refine .inr (.inl ⟨_, hk1, hk3, ?_, rfl⟩)
    rw [pvLayout_eq, hv, hlow, hhigh, bytesLe_le, ← eq_byteOf_of_hdr_prefixVarint hk3 hb]
  · obtain rfl : tail.length = n := htail
    have hv : gather (b :: tail) = le tail := by
      simp only [gather, byteAt_cons_zero, hb, gatherLp, map_byteAt_cons]
    refine .inr (.inr ⟨_, hn1, hn16, ?_, rfl⟩)
    rw [lpLayout, hv, bytesLe_le, ← eq_byteOf_of_hdr_lengthPrefixed hb]

/-- Settles O13: an encoding is the layout its first byte declares and holds no more than the layout has room for; each
layout with room is valid and holds the value. -/
theorem structuralFormsOfAValue : Obligations.StructuralFormsOfAValue := by
  intro bs v
  constructor
  case mp =>
    rintro ⟨hvalid, rfl⟩
    have hroom := gather_lt_two_pow_valueBits hvalid
    obtain ⟨hbs, hbits⟩ | ⟨k, hk1, hk3, hbs, hbits⟩ | ⟨n, hn1, hn16, hbs, hbits⟩ := layout_of_structurallyValid hvalid
    all_goals rw [hbits] at hroom
    · exact .inl ⟨hroom, hbs⟩
    · exact .inr (.inl ⟨k, hk1, hk3, hroom, hbs⟩)
    · exact .inr (.inr ⟨n, hn1, hn16, hroom, hbs⟩)
  case mpr =>
    unfold structurallyValid
    rintro (⟨h7, rfl⟩ | ⟨k, hk1, hk3, hroom, rfl⟩ | ⟨n, hn1, hn16, hroom, rfl⟩)
    · exact ⟨decide_eq_true (by rw [byteAt_cons_zero, hdr_byteOf h7]; rfl), gather_immediate h7⟩
    · exact ⟨decide_eq_true (by rw [hdr_pvLayout v hk1 hk3, pvLayout_length]), gather_pvLayout hk1 hk3 hroom⟩
    · exact ⟨decide_eq_true (by rw [hdr_lpLayout v hn1 hn16, lpLayout_length]), gather_lpLayout hn1 hn16 hroom⟩

/-! ### The canonical encoding among them -/

/-- Settles O12: the length, the first byte and the value of the canonical encoding. -/
theorem canonicalBytesHoldTheirValue : Obligations.CanonicalBytesHoldTheirValue :=
  fun v h => ⟨canonBytes_length v, hdr_canonBytes h, gather_canonBytes h⟩

/-- Settles O14: each form of `L` bytes holds only values whose canonical length is at most `L`. -/
theorem canonicalEncodingIsShortest : Obligations.CanonicalEncodingIsShortest := by
  intro bs hvalid
  have hroom := gather_lt_two_pow_valueBits hvalid
  obtain ⟨hbs, hbits⟩ | ⟨k, -, hk3, hbs, hbits⟩ | ⟨n, -, hn16, hbs, hbits⟩ := layout_of_structurallyValid hvalid
  all_goals rw [hbits] at hroom
  · have hlen : bs.length = 1 := congrArg List.length hbs
    exact hlen ▸ canonLen_le_of_lt_two_pow_seven_mul (k := 0) (by omega) hroom
  · have hlen : bs.length = k + 1 := (congrArg List.length hbs).trans (pvLayout_length ..)
    exact hlen ▸ canonLen_le_of_lt_two_pow_seven_mul hk3 hroom
  · have hlen : bs.length = n + 1 := (congrArg List.length hbs).trans (lpLayout_length ..)
    exact hlen ▸ canonLen_le_of_lt_two_pow hn16 hroom

/-! ### The canonical length as a function of the value -/

/-- The canonical length does not fall when the value grows: what bounds the greater value bounds the smaller (R62). -/
theorem canonLen_mono {u v : Nat} (huv : u ≤ v) (hport : v < 2 ^ 128) : canonLen u ≤ canonLen v := by
  obtain ⟨h7, hlen⟩ | ⟨k, -, hk3, -, hroom, hlen⟩ | ⟨n, -, hn16, -, -, hroom, hlen⟩ := canonLen_cases hport
  all_goals rw [hlen]
  · exact canonLen_le_of_lt_two_pow_seven_mul (k := 0) (by omega) (huv.trans_lt h7)
  · exact canonLen_le_of_lt_two_pow_seven_mul hk3 (huv.trans_lt hroom)
  · exact canonLen_le_of_lt_two_pow hn16 (huv.trans_lt hroom)

/-- The top bit of `n` whole bytes alone takes one byte more (R62). -/
theorem canonLen_two_pow {n : Nat} (hn1 : 1 ≤ n) (hn16 : n ≤ 16) : canonLen (2 ^ (8 * n - 1)) = n + 1 := by
  have htop : 2 ^ (8 * n - 1) < 2 ^ (8 * n) := Nat.pow_lt_pow_right Nat.one_lt_two (by omega)
  have hport : 2 ^ (8 * n - 1) < 2 ^ 128 := Nat.pow_lt_pow_right Nat.one_lt_two (by omega)
  exact (canonLen_le_of_lt_two_pow hn16 htop).antisymm (lt_canonLen_of_two_pow_le hport le_rfl)

/-- Settles O16: the length 1 is that of 0, and each further length that of the top bit of one more byte. -/
theorem canonicalLengthIsMonotone : Obligations.CanonicalLengthIsMonotone := by
  refine ⟨fun u v => canonLen_mono, fun l => ⟨?bounds, ?reached⟩⟩
  case bounds =>
    rintro ⟨v, hport, rfl⟩
    exact canonLen_bounds hport
  case reached =>
    rintro ⟨hl1, hl17⟩
    obtain ⟨n, rfl⟩ := Nat.exists_eq_add_of_le' hl1
    obtain rfl | hn1 := Nat.eq_zero_or_pos n
    · exact ⟨0, by omega, by decide⟩
    · exact ⟨2 ^ (8 * n - 1), Nat.pow_lt_pow_right Nat.one_lt_two (by omega), canonLen_two_pow hn1 (by omega)⟩

end Sys2Proof.Machine
end

-- ==== The bytes DEC.W reads, byte reversal, and the pseudo-commands ====
section
/-! PROOFS of the statements on what `DEC.W` depends on, on the values `FTU.W` answers, and on the pseudo-commands of
R49: a mapped value fits its width, so the codec command before or after the mapper cannot fail on it. -/

namespace Sys2Proof.Machine

variable {w : Width} {s s' t : State}

/-! ### What `DEC.W` depends on -/

/-- Whether a span is usable is a matter of the parameters alone (R12, R27, R36). -/
theorem spanUsable_congr {sp : Span} (haw : s'.aw = s.aw) (hram : s'.ram = s.ram) :
    spanUsable s' sp ↔ spanUsable s sp := by
  simp only [spanUsable, haw, hram]

theorem readBytes_congr {m m' : Memory} {addr n : Nat}
    (h : ∀ i, i < n → Memory.read m' (addr + i) = Memory.read m (addr + i)) :
    Memory.readBytes m' addr n = Memory.readBytes m addr n :=
  List.map_congr_left fun i hi => h i (List.mem_range.1 hi)

/-- Settles O23: the first byte is one of those it declares, so both the declared length and the value agree, and with
them every check. -/
theorem decDependsOnlyOnTheDeclaredBytes : Obligations.DecDependsOnlyOnTheDeclaredBytes := by
  intro w base cap s s' t haw hram hag h
  rw [exec_decInstr] at h ⊢
  obtain ⟨hu, -⟩ := decodeSpan_next h
  have hfirst : Memory.read s'.mem base = Memory.read s.mem base := hag 0 (hdr_len_bounds _).1
  rw [decodeSpan_usable hu] at h
  rw [decodeSpan_usable ((spanUsable_congr haw hram).2 hu), hfirst, readBytes_congr hag]
  split_ifs at h ⊢
  all_goals
    cases h
    exact ⟨_, rfl, rfl⟩

/-! ### Byte reversal -/

@[simp] theorem commandWord_ftuInstr (w : Width) (val : Value) : commandWord (ftuInstr w val) = sizedWord 0xC#4 w := by
  cases w <;> rfl

@[simp] theorem commandWord_utfInstr (w : Width) (val : Value) : commandWord (utfInstr w val) = sizedWord 0xD#4 w := by
  cases w <;> rfl

theorem byteAt_reverse {bs : List Byte} {i : Nat} (h : i < bs.length) :
    byteAt bs.reverse i = byteAt bs (bs.length - 1 - i) := by
  have hlt : bs.length - 1 - i < bs.length := by omega
  simp [byteAt, h, hlt]

/-- Byte `i` of a reversed number of `n` bytes is byte `n - 1 - i` of the number (R107). -/
theorem byteReverse_shiftRight_mod {n i : Nat} (u : Nat) (h : i < n) :
    (byteReverse (8 * n) u >>> (8 * i)) % 2 ^ 8 = (u >>> (8 * (n - 1 - i))) % 2 ^ 8 := by
  have hlen : i < (bytesLe u n).length := by rwa [bytesLe_length]
  have hlt : n - 1 - i < n := by omega
  have hbyte : byteAt (bytesLe u n) (n - 1 - i) = byteOf (bitsOf u (8 * (n - 1 - i) + 7) (8 * (n - 1 - i))) := by
    simp [byteAt, bytesLe, hlt]
  have hbits : 8 * (n - 1 - i) + 7 - 8 * (n - 1 - i) + 1 = 8 := by omega
  rw [byteReverse_eq, le_shiftRight_mod, byteAt_reverse hlen, bytesLe_length, hbyte, byteOf_toNat, bitsOf, hbits]
  exact Nat.mod_mod ..

/-- The bits of a number below `2^c` do not change when the number is cut off there. -/
theorem mod_two_pow_shiftRight_mod {a b c : Nat} (u : Nat) (h : a + b ≤ c) :
    ((u % 2 ^ c) >>> a) % 2 ^ b = (u >>> a) % 2 ^ b := by
  have hpow : 2 ^ c = 2 ^ a * 2 ^ (c - a) := by rw [← pow_add]; congr 1; omega
  rw [Nat.shiftRight_eq_div_pow, Nat.shiftRight_eq_div_pow, hpow, Nat.mod_mul_right_div_self,
    Nat.mod_mod_of_dvd _ (pow_dvd_pow 2 (by omega))]

/-- The number `FTU.W` answers, below `2^W`, survives in `VAL` (R44). -/
theorem byteReverse_toNat (w : Width) (u : Nat) :
    (BitVec.ofNat 128 (byteReverse w.bits u)).toNat = byteReverse w.bits u := by
  rw [BitVec.toNat_ofNat, Nat.mod_eq_of_lt]
  exact (byteReverse_lt w u).trans_le (Nat.pow_le_pow_right Nat.two_pos (width_bits_le w))

/-- Settles O37: both commands answer the reversed pattern, whose bytes are those of `VAL[W-1:0]`. -/
theorem floatCommandsReverseTheBytes : Obligations.FloatCommandsReverseTheBytes := by
  intro w val s
  refine ⟨commandWord_ftuInstr w val, commandWord_utfInstr w val, _, exec_ftu w val s,
    (exec_utf w val s).trans (exec_ftu w val s), ?fits, fun i hi => BitVec.eq_of_toNat_eq ?byte⟩
  case fits =>
    rw [byteReverse_toNat]
    exact byteReverse_lt w _
  case byte =>
    obtain ⟨n, -, -, hbits, -⟩ := width_bits_eq_worstLen w
    have hbytes : w.bits / 8 = n := by omega
    rw [hbytes] at hi ⊢
    rw [BitVec.extractLsb'_toNat, BitVec.extractLsb'_toNat, byteReverse_toNat, toNat_lowBits, hbits,
      byteReverse_shiftRight_mod _ hi, mod_two_pow_shiftRight_mod _ (by omega)]

/-- A pattern whose lowest byte is not zero becomes a number whose highest byte is not zero (R109). -/
theorem two_pow_le_byteReverse {n u : Nat} (h : u % 256 ≠ 0) : 2 ^ (8 * n) ≤ byteReverse (8 * (n + 1)) u := by
  have hlow : 1 ≤ (byteOf u).toNat := by
    rw [byteOf_toNat]
    omega
  rw [byteReverse_eq, bytesLe_succ, List.reverse_cons, le_append, List.length_reverse, bytesLe_length, pow_mul]
  calc (2 ^ 8) ^ n ≤ 256 ^ n * (byteOf u).toNat := Nat.le_mul_of_pos_right _ hlow
    _ = 256 ^ n * le [byteOf u] := by simp [le]
    _ ≤ _ := Nat.le_add_left ..

/-- From `2^32` on, a value with a bit above `n` whole bytes takes at least `n + 2` (R57, R61, R62). -/
theorem add_two_le_canonLen {v n : Nat} (hn : 4 ≤ n) (hport : v < 2 ^ 128) (h : 2 ^ (8 * n) ≤ v) :
    n + 2 ≤ canonLen v := by
  obtain ⟨hroom, -⟩ | ⟨k, -, hk3, -, hroom, -⟩ | ⟨m, -, -, -, -, hroom, hlen⟩ := canonLen_cases hport
  all_goals have := lt_of_two_pow_le_of_lt_two_pow h hroom
  all_goals omega

/-- A width is one whole byte or more (R5). -/
theorem width_bits_eq_succ (w : Width) : ∃ n, w.bits = 8 * (n + 1) ∧ worstLen w = n + 2 := by
  obtain ⟨n, hn1, -, hbits, hworst⟩ := width_bits_eq_worstLen w
  obtain ⟨m, rfl⟩ := Nat.exists_eq_add_of_le' hn1
  exact ⟨m, hbits, hworst⟩

theorem canonLen_le_worstLen {v : Nat} (h : v < 2 ^ w.bits) : canonLen v ≤ worstLen w :=
  (worstLengthByWidth w).1 v h

/-- Settles O39: the lowest byte becomes the highest, which at 64 and 128 bits is past the bytes of a shorter encoding;
the pattern 1 shows that at the other widths it need not be. -/
theorem floatPatternsWithLowByteSetStayLong : Obligations.FloatPatternsWithLowByteSetStayLong := by
  refine ⟨fun w val s hlow => ⟨_, exec_ftu w val s, ?_⟩, fun w s hw => ⟨_, exec_ftu w 1 s, ?short⟩⟩
  case short => obtain rfl | rfl | rfl := hw <;> decide
  obtain ⟨n, hbits, hworst⟩ := width_bits_eq_succ w
  have hbyte : (lowBits w val).toNat % 256 ≠ 0 := by
    rwa [toNat_lowBits, Nat.mod_mod_of_dvd _ (hbits ▸ pow_dvd_pow 2 (by omega : 8 ≤ 8 * (n + 1)))]
  have hbig := two_pow_le_byteReverse (n := n) hbyte
  have hfit := byteReverse_lt w (lowBits w val).toNat
  have hport : byteReverse w.bits (lowBits w val).toNat < 2 ^ 128 :=
    hfit.trans_le (Nat.pow_le_pow_right Nat.two_pos (width_bits_le w))
  rw [byteReverse_toNat, show w.bits - 8 = 8 * n by omega]
  rw [← hbits] at hbig
  refine ⟨hbig, fun hw => (canonLen_le_worstLen hfit).antisymm ?long⟩
  have hn : 4 ≤ n := by
    obtain rfl | rfl := hw <;> simp only [Width.bits] at hbits <;> omega
  exact hworst ▸ add_two_le_canonLen hn hport hbig

/-! ### Pseudo-commands -/

/-- What the mapper of an encoding pseudo-command gives fits the width (R49). -/
theorem zext128_zigzag_lt (w : Width) (x : Value) : (zext128 (zigzag (lowBits w x))).toNat < 2 ^ w.bits := by
  rw [zext128, BitVec.toNat_setWidth_of_le (width_bits_le w)]
  exact BitVec.isLt _

theorem ofNat_byteReverse_lt (w : Width) (u : Nat) : (BitVec.ofNat 128 (byteReverse w.bits u)).toNat < 2 ^ w.bits := by
  rw [byteReverse_toNat]
  exact byteReverse_lt w u

/-- What the host gets of a command is its response (R15, R50). -/
theorem exec_of_issue {i : Instr} {r : Response} (h : issue i s = .next (r, t)) :
    exec i s = .next t ∧ t.rsp = some r := by
  unfold issue at h
  split at h
  · next u hu =>
    obtain ⟨-, -, -, -, q, hq⟩ := exec_frame hu
    rw [hq] at h
    cases h
    exact ⟨hu, hq⟩
  · cases h
  · cases h

theorem status_of_issue_enc {val : Value} {base cap : Nat} {r : Response} (hfit : val.toNat < 2 ^ w.bits)
    (h : issue (encInstr w val base cap) s = .next (r, t)) : r.status ≠ Status.valueTooLarge.code := by
  obtain ⟨hex, hr⟩ := exec_of_issue h
  rw [exec_encInstr] at hex
  obtain ⟨-, ⟨hbig, -⟩ | ⟨-, -, rfl⟩ | ⟨-, -, rfl⟩⟩ := encodeValue_next hex
  · exact absurd hfit hbig.not_gt
  all_goals
    cases hr
    exact of_decide_eq_true rfl

theorem status_of_issue_size {val : Value} {r : Response} (hfit : val.toNat < 2 ^ w.bits)
    (h : issue (sizeInstr w val) s = .next (r, t)) : r.status ≠ Status.valueTooLarge.code := by
  obtain ⟨hex, hr⟩ := exec_of_issue h
  rw [exec_sizeInstr, sizeOfValue_of_fits s hfit] at hex
  cases hex
  cases hr
  exact of_decide_eq_true rfl

/-- Settles O41: what either mapper gives fits the width, and the second command refuses only a value that does not. -/
theorem mappedValuesAreNeverTooLarge : Obligations.MappedValuesAreNeverTooLarge := by
  rintro w x base cap s r t (h | h | h | h)
  · rw [encz, andThen_issue (exec_zze w x s)] at h
    exact status_of_issue_enc (zext128_zigzag_lt w x) h
  · rw [sizez, andThen_issue (exec_zze w x s)] at h
    exact status_of_issue_size (zext128_zigzag_lt w x) h
  · rw [encf, andThen_issue (exec_ftu w x s)] at h
    exact status_of_issue_enc (ofNat_byteReverse_lt w _) h
  · rw [sizef, andThen_issue (exec_ftu w x s)] at h
    exact status_of_issue_size (ofNat_byteReverse_lt w _) h

theorem issue_of_exec {i : Instr} {r : Response} (h : exec i s = .next t) (hr : t.rsp = some r) :
    issue i s = .next (r, t) := by
  simp only [issue, h, hr, Option.getD_some]

/-- `DEC.W` and a mapper, where the `DEC.W` answers a value and the mapper maps it (R49). -/
theorem decodeThen_of_answers {x y : Value} {n : BitVec 5} {base cap : Nat} {mapper : Value → Instr}
    (hdec : exec (decInstr w base cap) s = .next (s.answer { Response.okay with val := x, len := n }))
    (hmap : ∀ u : State, exec (mapper x) u = .next (u.answer { Response.okay with val := y })) :
    ∃ u, decodeThen w mapper base cap s = .next ({ Response.okay with val := y, len := n }, u) := by
  rw [decodeThen, andThen_issue hdec]
  exact ⟨_, (if_pos rfl).trans (andThen_issue (hmap _) _)⟩

/-- `ENC.W` of a value of the width into a span with room for every such value, then `DEC.W` and a mapper, answers what
the mapper makes of the value, with the `LEN` of the `ENC.W` (R49, R67). -/
theorem decodeThen_after_enc {x y : Value} {base cap : Nat} {mapper : Value → Instr} (hu : spanUsable s ⟨base, cap⟩)
    (hroom : worstLen w ≤ cap) (hfit : x.toNat < 2 ^ w.bits)
    (hmap : ∀ u : State, exec (mapper x) u = .next (u.answer { Response.okay with val := y })) :
    ∃ r t t', issue (encInstr w x base cap) s = .next (r, t) ∧ r.status = 0 ∧
      decodeThen w mapper base cap t = .next ({ Response.okay with val := y, len := r.len }, t') := by
  obtain ⟨t, henc, hr, hdec, -⟩ :=
    encThenDecRoundTrip w x base cap s hu hfit ((canonLen_le_worstLen hfit).trans hroom)
  obtain ⟨t', hback⟩ := decodeThen_of_answers hdec hmap
  exact ⟨_, t, t', issue_of_exec henc hr, rfl, hback⟩

/-- Settles O42: the codec commands hand the mapped value on as it is, and the second mapper undoes the first. -/
theorem pseudoCommandsRoundTrip : Obligations.PseudoCommandsRoundTrip := by
  intro w x base cap s hu hroom
  rw [encz, andThen_issue (exec_zze w x s), encf, andThen_issue (exec_ftu w x s)]
  refine ⟨decodeThen_after_enc hu hroom (zext128_zigzag_lt w x) fun u => ?zigzag,
    decodeThen_after_enc hu hroom (ofNat_byteReverse_lt w _) fun u => ?float⟩
  case zigzag =>
    rw [exec_zzd, lowBits_zext128, unzigzag_zigzag (width_bits_pos w), ← toNat_lowBits, ← zext128_eq]
  case float => rw [exec_utf, exec_ftu_of_byteReverse]

end Sys2Proof.Machine
end

-- ==== Stores, and the order of commands ====
section
/-! PROOFS of the statements on what commands store and on which order of commands and stores cannot be told. Stores at
disjoint addresses commute; a command that reads the same bytes of its span does the same (`exec_transfer`). -/

namespace Sys2Proof.Machine

variable {i j : Instr} {s t u : State} {m : Memory} {bs ds : List Byte} {cells : List Host.Cell} {x y a : Nat}

/-! ### Stores that commute -/

theorem write_writeBytes_comm (hm : Memory.wf m) {b : Byte} (h : a < x ∨ x + bs.length ≤ a) :
    Memory.writeBytes (Memory.write m a b) x bs = Memory.write (Memory.writeBytes m x bs) a b := by
  refine Memory.ext_read? (Memory.writeBytes_wf _ (Memory.write_wf hm ..) _)
    (Memory.write_wf (Memory.writeBytes_wf _ hm _) ..) fun c => ?_
  rw [Memory.read?_writeBytes, Memory.read?_write, Memory.read?_write, Memory.read?_writeBytes]
  by_cases hc : c = a
  · rw [if_neg (by omega), if_pos hc, if_pos hc]
  · rw [if_neg hc, if_neg hc]

/-- A store of cells outside a run of bytes commutes with the store of the run (R38). -/
theorem writeCells_writeBytes_comm (hm : Memory.wf m) (h : ∀ c ∈ cells, c.1 < x ∨ x + bs.length ≤ c.1) :
    Memory.writeBytes (Memory.writeCells m cells) x bs = Memory.writeCells (Memory.writeBytes m x bs) cells := by
  induction cells generalizing m with
  | nil => rfl
  | cons c cells ih =>
    have hrest := ih (Memory.write_wf hm c.1 c.2) fun d hd => h d (List.mem_cons_of_mem _ hd)
    rw [write_writeBytes_comm hm (h c List.mem_cons_self)] at hrest
    exact hrest

/-- Two runs of bytes without a common address are stored alike in either order (R38). -/
theorem writeBytes_comm (hm : Memory.wf m)
    (h : ∀ a, x ≤ a ∧ a < x + bs.length → ¬(y ≤ a ∧ a < y + ds.length)) :
    Memory.writeBytes (Memory.writeBytes m x bs) y ds = Memory.writeBytes (Memory.writeBytes m y ds) x bs := by
  refine Memory.ext_read? (Memory.writeBytes_wf _ (Memory.writeBytes_wf _ hm _) _)
    (Memory.writeBytes_wf _ (Memory.writeBytes_wf _ hm _) _) fun a => ?_
  simp only [Memory.read?_writeBytes]
  by_cases ha : x ≤ a ∧ a < x + bs.length
  · rw [if_neg (h a ha), if_pos ha, if_pos ha]
  · rw [if_neg ha, if_neg ha]

/-- Storing a run of bytes again changes nothing (R35). -/
theorem writeBytes_writeBytes (hm : Memory.wf m) :
    Memory.writeBytes (Memory.writeBytes m x bs) x bs = Memory.writeBytes m x bs := by
  refine Memory.ext_read? (Memory.writeBytes_wf _ (Memory.writeBytes_wf _ hm _) _) (Memory.writeBytes_wf _ hm _)
    fun a => ?_
  simp only [Memory.read?_writeBytes]
  split_ifs <;> rfl

/-! ### What a command stores -/

/-- A command leaves every byte alone but those `storesTo` gives (R20, R34). -/
theorem exec_read_of_not_storesTo (h : exec i s = .next t) (ha : storesTo i a = false) :
    Memory.read t.mem a = Memory.read s.mem a := by
  obtain ⟨bs, b, r, rfl, -, hst⟩ := exec_transfer rfl rfl (fun _ _ _ _ => rfl) h
  have hout : ¬(b ≤ a ∧ a < b + bs.length) := fun hin => Bool.false_ne_true (ha.symm.trans ((hst a).2 hin))
  exact Memory.read_writeBytes_outside (by omega)

/-- Settles O46: the bytes left alone, the span the others lie in, and the frame of a command. -/
theorem onlyEncStoresAndOnlyInItsSpan : Obligations.OnlyEncStoresAndOnlyInItsSpan := by
  intro i s t h
  obtain ⟨haw, hpath, hram, hhost, -⟩ := exec_frame h
  exact ⟨fun a => exec_read_of_not_storesTo h, fun a => stores_in_span, haw, hpath, hram, hhost⟩

/-- A command with a span does its work behind the checks of the span (R12, R27, R36). -/
theorem exec_of_span {sp : Span} (h : i.span = some sp) (s : State) : ∃ body, exec i s = withSpan sp s body := by
  obtain ⟨w, val, base, cap, rfl⟩ | ⟨w, base, cap, rfl⟩ | ⟨hnone, -⟩ := exec_kinds i
  · cases (span_enc w val base cap).symm.trans h
    exact ⟨_, exec_encInstr ..⟩
  · cases (span_dec w base cap).symm.trans h
    exact ⟨_, exec_decInstr ..⟩
  · cases hnone.symm.trans h

/-- Settles O47: the three checks of `withSpan`, in their order. -/
theorem unusableSpansAreRefused : Obligations.UnusableSpansAreRefused := by
  intro i sp s hsp
  obtain ⟨body, he⟩ := exec_of_span hsp s
  rw [he, withSpan]
  refine ⟨fun hports => if_pos hports, fun hports hwrap => ?wraps, fun hports hwrap hbacked => ?notBacked⟩
  case wraps => simp [hports, hwrap]
  case notBacked => simp [hports, hwrap, hbacked]

/-! ### Repeating a command -/

theorem State.answer_of_rsp {r : Response} (h : t.rsp = some r) : t.answer r = t := by
  cases t
  cases h
  rfl

/-- Settles O51: `ENC.W` looks at no byte of memory and stores the same run again; `DEC.W` finds the bytes it read
before, and the other commands answer by their operands alone. -/
theorem repeatingACommandChangesNothing : Obligations.RepeatingACommandChangesNothing := by
  intro i s t hm h
  obtain ⟨w, val, base, cap, rfl⟩ | ⟨w, base, cap, rfl⟩ | ⟨-, -, r, hr⟩ := exec_kinds i
  · rw [exec_encInstr] at h ⊢
    obtain ⟨hu, ⟨hbig, rfl⟩ | ⟨hfit, hshort, rfl⟩ | ⟨hfit, hroom, rfl⟩⟩ := encodeValue_next h
    · rw [encodeValue_usable (by exact hu), if_pos hbig]
      rfl
    · rw [encodeValue_of_short (by exact hu) hfit hshort]
      rfl
    · rw [encodeValue_of_room (by exact hu) hfit hroom]
      simp only [State.answer, writeBytes_writeBytes hm]
  · obtain ⟨haw, -, hram, -⟩ := exec_frame h
    obtain ⟨r, hr, hagain⟩ := decDependsOnlyOnTheDeclaredBytes w base cap s t t haw hram
      (fun _ _ => exec_read_of_not_storesTo h (storesTo_dec ..)) h
    rwa [State.answer_of_rsp hr] at hagain
  · cases (hr s).symm.trans h
    exact hr _

/-! ### Commands in either order -/

/-- A command leaves the span of a command independent of it as it was (R38). -/
theorem read_span_of_independent (hij : ∀ a sp, storesTo i a = true → j.span = some sp → sp.contains a = false)
    (h : exec i s = .next t) (sp : Span) (a : Nat) (hsp : j.span = some sp) (ha : sp.contains a = true) :
    Memory.read t.mem a = Memory.read s.mem a := by
  apply exec_read_of_not_storesTo h
  by_contra hst
  exact Bool.false_ne_true ((hij a sp (Bool.eq_true_of_not_eq_false hst) hsp).symm.trans ha)

/-- Settles O52: neither command stores a byte of the other's span, so each does the same before and after the other,
and what they store has no common address. -/
theorem independentCommandsCommute : Obligations.IndependentCommandsCommute := by
  rintro i j s a c hm ⟨hij, hji⟩ hi hj
  obtain ⟨haw, -, haram, -⟩ := exec_frame hi
  obtain ⟨hcw, -, hcram, -⟩ := exec_frame hj
  obtain ⟨bs, x, r, rfl, hi', hsti⟩ := exec_transfer hcw hcram (read_span_of_independent hji hj) hi
  obtain ⟨ds, y, q, rfl, hj', hstj⟩ := exec_transfer haw haram (read_span_of_independent hij hi) hj
  refine ⟨_, _, hj', hi', writeBytes_comm hm fun a hx hy => ?apart, rfl, rfl⟩
  case apart =>
    obtain ⟨sp, hsp, hin⟩ := stores_in_span ((hstj a).2 hy)
    exact Bool.false_ne_true ((hij a sp ((hsti a).2 hx) hsp).symm.trans hin)

/-! ### A command with other writes beside it -/

/-- Cells that touch no byte of a span are outside it (R38). -/
theorem contains_of_touches {sp : Span} (h : touches (some sp) cells = false) {c : Host.Cell} (hc : c ∈ cells) :
    sp.contains c.1 = false :=
  Bool.eq_false_of_not_eq_true (List.any_eq_false.1 h c hc)

theorem transactDuring_of_next {r : Request} (htouch : touches (requestSpan r) cells = false)
    (hback : ∀ c ∈ cells, addressBacked s.ram c.1 = true) (h : transact r s = .next t) :
    transactDuring r cells s = .next { t with mem := Memory.writeCells t.mem cells } := by
  obtain ⟨-, hram, -, -⟩ := transact_frame h
  obtain ⟨-, hstore⟩ | ⟨hnot, -⟩ := hostStore_cases cells t
  · simp only [transactDuring, htouch, Bool.false_eq_true, if_false, h, hstore]
  · exact absurd (hram ▸ hback) hnot

/-- A command does the same after a store outside its span, and then the store does the same before it (R38). -/
theorem exec_after_writeCells (hm : Memory.wf s.mem)
    (hout : ∀ sp, i.span = some sp → ∀ c ∈ cells, sp.contains c.1 = false) (h : exec i s = .next t) :
    exec i { s with mem := Memory.writeCells s.mem cells } =
      .next { t with mem := Memory.writeCells t.mem cells } := by
  have hspan : ∀ sp a, i.span = some sp → sp.contains a = true →
      Memory.read (Memory.writeCells s.mem cells) a = Memory.read s.mem a := by
    intro sp a hsp ha
    refine Memory.read_writeCells_outside fun c hc hca => ?_
    exact Bool.false_ne_true ((hout sp hsp c hc).symm.trans (hca ▸ ha))
  obtain ⟨bs, x, r, rfl, h', hst⟩ := 
    exec_transfer (s := s) (s' := { s with mem := Memory.writeCells s.mem cells }) rfl rfl hspan h
  have hcells : ∀ c ∈ cells, c.1 < x ∨ x + bs.length ≤ c.1 := by
    intro c hc
    by_contra hin
    obtain ⟨sp, hsp, hsc⟩ := stores_in_span ((hst c.1).2 (by omega))
    exact Bool.false_ne_true ((hout sp hsp c hc).symm.trans hsc)
  rw [h', State.answer, State.answer]
  simp only [writeCells_writeBytes_comm hm hcells]

/-- Settles O53: the command goes first in the model, and a store outside its span commutes with it. -/
theorem independentWritesCannotBeToldApart : Obligations.IndependentWritesCannotBeToldApart := by
  intro r cells s t hm htouch hback h
  refine ⟨_, transactDuring_of_next htouch hback h, rfl, ?_⟩
  rcases hd : decode r with i | why
  · have hex : ∀ s, transact r s = exec i s := fun s => by simp only [transact, hd]
    rw [hex] at h ⊢
    refine exec_after_writeCells hm (fun sp hsp c hc => contains_of_touches (cells := cells) ?_ hc) h
    simpa only [requestSpan, hd, hsp] using htouch
  · have hill : ∀ s, transact r s = .next (s.answer (Response.blank .illegalCommand)) :=
      fun s => by simp only [transact, hd, fail_eq]
    rw [hill] at h ⊢
    cases h
    rfl

end Sys2Proof.Machine
end

-- ==== Steps, the invariant, and the host's duties ====
section
/-! PROOFS of the statements on steps and runs: what one event of the host does, that every step keeps the invariant,
and that a host that keeps its duties is never stopped. -/

namespace Sys2Proof.Machine

variable {s t : State} {r : Response} {cells : List Host.Cell} {rest : List HostEvent}

/-! ### One event -/

/-- A reset between commands is a step of its own (R131). -/
theorem step_reset {p : Path} (h : s.host = .reset p :: rest) :
    step s = .next (resetUnit p { s with host := rest }) := step_cons h

theorem step_store (h : s.host = .store cells :: rest) :
    step s = hostStore cells (State.noResponse { s with host := rest }) := step_cons h

/-- Settles O58: the reset changes the path, the response and the host's list. -/
theorem resetLeavesMemoryAlone : Obligations.ResetLeavesMemoryAlone := fun _ _ _ h => step_reset h

/-- Settles O60: an idle step is `State.noResponse`. -/
theorem idleStepOnlyWithdrawsTheResponse : Obligations.IdleStepOnlyWithdrawsTheResponse := fun _ h => step_nil h

/-- Settles O59: the fields of the reset state, whose idle step withdraws no response because there is none. -/
theorem resetStateIsIdle : Obligations.ResetStateIsIdle := ⟨rfl, rfl, rfl, fun _ => rfl, step_nil rfl⟩

/-- Settles O54: both checks stand before anything else the event does. -/
theorem brokenDutiesAreRefused : Obligations.BrokenDutiesAreRefused := by
  refine fun s r rest => ⟨fun cells h htouch => ?disturbed, fun p h => step_cons h⟩
  case disturbed => exact (step_cons h).trans (if_pos htouch)

/-- The last cell of a list at an address is what memory holds there afterwards (R25). -/
theorem read_writeCells_last {m : Memory} {before after : List Host.Cell} {a : Nat} {b : Byte}
    (h : ∀ c ∈ after, c.1 ≠ a) : Memory.read (Memory.writeCells m (before ++ (a, b) :: after)) a = b := by
  have hsplit : Memory.writeCells m (before ++ (a, b) :: after) =
      Memory.writeCells (Memory.write (Memory.writeCells m before) a b) after := List.foldl_append ..
  rw [hsplit, Memory.read_writeCells_outside h, Memory.read_write_same]

/-- Settles O55: a store is checked cell by cell and then written in order. -/
theorem hostStoresAreReadBack : Obligations.HostStoresAreReadBack := by
  intro s cells rest h
  rw [step_store h]
  obtain ⟨hback, hstore⟩ | ⟨hnot, hstore⟩ := hostStore_cases cells (State.noResponse { s with host := rest })
  · refine ⟨fun _ => ⟨_, hstore, rfl, ?last, fun x => Memory.read_writeCells_outside⟩, fun ⟨c, hc, hout⟩ => ?_⟩
    case last =>
      rintro before a b after rfl hlast
      exact read_writeCells_last hlast
    exact absurd ((hback c hc).symm.trans hout) Bool.true_eq_false.mp
  · exact ⟨fun hback => absurd hback hnot, fun _ => hstore⟩

/-! ### Responses do not stay -/

/-- No command looks at the response of an earlier one (R16). -/
theorem exec_rsp (i : Instr) (s : State) (q : Option Response) : exec i { s with rsp := q } = exec i s := by
  obtain ⟨w, val, base, cap, rfl⟩ | ⟨w, base, cap, rfl⟩ | ⟨-, -, r, hr⟩ := exec_kinds i
  · rw [exec_encInstr, exec_encInstr]
    rfl
  · rw [exec_decInstr, exec_decInstr]
    rfl
  · rw [hr, hr]
    rfl

/-- Settles O57: neither a command nor the answer to an illegal word looks at the earlier response. -/
theorem responsesAreNotSticky : Obligations.ResponsesAreNotSticky := by
  intro r s q
  unfold transact
  cases decode r with
  | command i => exact exec_rsp i s q
  | illegal why => rfl

/-! ### Legal responses (R14, R114) -/

theorem legal_blank (k : Status) : (Response.blank k).legal := by
  cases k <;> decide

theorem tierCode_ne_three (k : Tier) : k.code ≠ 3 := by cases k <;> decide

theorem count_toNat_le {n m : Nat} (h : n ≤ m) : (count n).toNat ≤ m :=
  (BitVec.toNat_ofNat n 5 ▸ Nat.mod_le ..).trans h

/-- An `OK` with the code of a tier and with counts in range is legal; a field that is not written is the code of
Immediate, or the count 0. -/
theorem legal_ok (k : Tier) {n a : Nat} (hn : n ≤ 17) (ha : a ≤ 16) (x : Value) (y : Lanes) :
    Response.legal { status := Status.ok.code, val := x, len := count n, tier := k.code, aux := count a, vec := y } :=
  ⟨(by decide : Status.ok.code ≠ 5), (by decide : Status.ok.code ≠ 6), tierCode_ne_three k, count_toNat_le hn,
    count_toNat_le ha, fun herr => absurd rfl herr⟩

/-- The response a state presents, if any, is one that R14 and R114 allow. -/
def PresentsLegal (t : State) : Prop := ∀ r, t.rsp = some r → r.legal

theorem presentsLegal_answer (s : State) (h : r.legal) : PresentsLegal (s.answer r) := by
  intro q hq
  cases hq
  exact h

theorem presentsLegal_of_answer {i : Instr} (hi : exec i s = .next (s.answer r)) (hr : r.legal)
    (h : exec i s = .next t) : PresentsLegal t := by
  cases hi.symm.trans h
  exact presentsLegal_answer s hr

/-- What `ENC.W` and `SIZE.W` answer (R75, R86). -/
theorem legal_canonLen (val : Value) : { Response.okay with len := count (canonLen val.toNat) }.legal :=
  legal_ok .immediate (canonLen_bounds val.isLt).2 (Nat.zero_le _) 0 0

/-- What the mapping commands answer (R103, R105, R109, R110). -/
theorem legal_val (x : Value) : { Response.okay with val := x }.legal :=
  legal_ok .immediate (Nat.zero_le _) (Nat.zero_le _) x 0

/-- What `HDR` and `GATH` answer of a first byte (R71, R91). -/
theorem legal_hdr (b : Byte) (x : Value) : { Response.okay with
    val := x, len := count (hdr b).len, tier := (hdr b).tier.code, aux := count (hdr b).param }.legal :=
  legal_ok _ (hdr_len_bounds b).2 (hdr_param_le b) x 0

theorem tierParam_le (val : Value) : tierParam val.toNat ≤ 16 := by
  have hlen := (canonLen_bounds val.isLt).2
  rw [canonLen_eq_tierParam_succ] at hlen
  omega

theorem presentsLegal_enc {w : Width} {val : Value} {base cap : Nat}
    (h : exec (encInstr w val base cap) s = .next t) : PresentsLegal t := by
  rw [exec_encInstr] at h
  obtain ⟨-, ⟨-, rfl⟩ | ⟨-, -, rfl⟩ | ⟨-, -, rfl⟩⟩ := encodeValue_next h
  · exact presentsLegal_answer _ (legal_blank _)
  · exact presentsLegal_answer _ (legal_blank _)
  · exact presentsLegal_answer _ (legal_canonLen val)

theorem presentsLegal_dec {w : Width} {base cap : Nat} (h : exec (decInstr w base cap) s = .next t) :
    PresentsLegal t := by
  rw [exec_decInstr] at h
  obtain ⟨-, ⟨-, rfl⟩ | ⟨-, ⟨-, rfl⟩ | ⟨-, rfl⟩⟩⟩ := decodeSpan_next h
  · exact presentsLegal_answer _ (legal_blank _)
  · exact presentsLegal_answer _ (legal_blank _)
  · exact presentsLegal_answer _ (legal_ok .immediate (hdr_len_bounds _).2 (Nat.zero_le _) _ 0)

theorem presentsLegal_size {w : Width} {val : Value} (h : exec (sizeInstr w val) s = .next t) : PresentsLegal t := by
  rw [exec_sizeInstr] at h
  obtain ⟨-, hs⟩ | ⟨-, hs⟩ := sizeOfValue_cases w val s <;> cases hs.symm.trans h
  · exact presentsLegal_answer _ (legal_blank _)
  · exact presentsLegal_answer _ (legal_canonLen val)

theorem presentsLegal_pvp {val : Value} (h : exec (.pvp val) s = .next t) : PresentsLegal t := by
  rw [exec_pvp] at h
  obtain ⟨-, hs⟩ | ⟨k, hk, hs⟩ := execPvp_cases val s <;> cases hs.symm.trans h
  · exact presentsLegal_answer _ (legal_blank _)
  · obtain ⟨-, hk3, -⟩ := pvK_spec hk
    exact presentsLegal_answer _ (legal_ok .immediate (by omega) (by omega) 0 0)

theorem presentsLegal_lpp {val : Value} (h : exec (.lpp val) s = .next t) : PresentsLegal t := by
  obtain ⟨-, h16, -⟩ := lpN_spec val.isLt
  exact presentsLegal_of_answer (exec_lpp val s) (legal_ok .immediate (Nat.succ_le_succ h16) h16 0 0) h

/-- What a command answers when it is not refused is legal, whichever operation its request named (R42). -/
theorem presentsLegal_of_decode {q : Request} {i : Instr} (hd : decode q = .command i) (h : exec i s = .next t) :
    PresentsLegal t := by
  obtain ⟨-, ⟨-, w, -, rfl⟩ | ⟨-, w, -, rfl⟩ | ⟨-, w, -, rfl⟩ | ⟨-, -, rfl⟩ | ⟨-, -, rfl⟩ | ⟨-, -, rfl⟩ | ⟨-, -, rfl⟩ |
    ⟨-, -, rfl⟩ | ⟨-, -, rfl⟩ | ⟨-, w, -, rfl⟩ | ⟨-, w, -, rfl⟩ | ⟨-, w, -, rfl⟩ | ⟨-, w, -, rfl⟩⟩ := decode_command hd
  · exact presentsLegal_enc h
  · exact presentsLegal_dec h
  · exact presentsLegal_size h
  · exact presentsLegal_of_answer (exec_cls ..) (legal_ok _ (Nat.zero_le _) (Nat.zero_le _) 0 0) h
  · exact presentsLegal_pvp h
  · exact presentsLegal_lpp h
  · exact presentsLegal_of_answer (exec_hdr ..) (legal_hdr _ 0) h
  · refine presentsLegal_of_answer (exec_gath ..) ?_ h
    rw [gathResponse_eq]
    exact legal_hdr ..
  · exact presentsLegal_of_answer (exec_scat ..)
      (legal_ok _ (canonLen_bounds (BitVec.isLt _)).2 (tierParam_le _) 0 _) h
  · exact presentsLegal_of_answer (exec_zze ..) (legal_val _) h
  · exact presentsLegal_of_answer (exec_zzd ..) (legal_val _) h
  · exact presentsLegal_of_answer (exec_ftu ..) (legal_val _) h
  · exact presentsLegal_of_answer ((exec_utf ..).trans (exec_ftu ..)) (legal_val _) h

/-! ### The invariant -/

/-- The invariant does not speak of the path and of what the host does next. -/
theorem State.Inv.of_parts (hinv : s.Inv) (haw : t.aw = s.aw) (hram : t.ram = s.ram) (hwf : Memory.wf t.mem)
    (hcells : ∀ c ∈ t.mem, addressBacked s.ram c.1 = true) (hrsp : PresentsLegal t) : t.Inv where
  memWf := hwf
  ramWf := by rw [haw, hram]; exact hinv.ramWf
  cellsBacked := by rw [hram]; exact hcells
  rspLegal := hrsp

theorem State.Inv.withdraw (hinv : s.Inv) (haw : t.aw = s.aw) (hram : t.ram = s.ram) (hmem : t.mem = s.mem)
    (hrsp : t.rsp = none) : t.Inv :=
  hinv.of_parts haw hram (hmem ▸ hinv.memWf) (hmem ▸ hinv.cellsBacked) fun r hr => by rw [hrsp] at hr; cases hr

/-- A store of the host keeps the invariant: it is of cells in ordinary memory. -/
theorem inv_of_hostStore (hinv : s.Inv) (h : hostStore cells s = .next t) : t.Inv := by
  obtain ⟨hback, hstore⟩ | ⟨-, hstore⟩ := hostStore_cases cells s <;> cases hstore.symm.trans h
  exact hinv.of_parts rfl rfl (Memory.writeCells_wf cells hinv.memWf)
    (fun c hc => (Memory.mem_writeCells hc).elim (hback c) (hinv.cellsBacked c)) hinv.rspLegal

/-- The memory a command leaves is in form and lists ordinary memory alone (R26, R36). -/
theorem mem_inv_of_exec {i : Instr} (hinv : s.Inv) (h : exec i s = .next t) :
    Memory.wf t.mem ∧ ∀ c ∈ t.mem, addressBacked s.ram c.1 = true := by
  obtain ⟨m, r, rfl, rfl | ⟨w, val, base, cap, rfl, -, hroom, rfl⟩⟩ := exec_answers h
  · exact ⟨hinv.memWf, hinv.cellsBacked⟩
  · rw [exec_encInstr] at h
    obtain ⟨⟨-, -, hback⟩, -⟩ := encodeValue_next h
    refine ⟨Memory.writeBytes_wf _ hinv.memWf _, fun c hc => ?_⟩
    obtain ⟨hlow, hhigh⟩ | hold := Memory.mem_writeBytes hc
    · rw [canonBytes_length] at hhigh
      refine addressBacked_of_spanBacked hback ?_
      simp only [Span.contains, Bool.and_eq_true, decide_eq_true_eq]
      omega
    · exact hinv.cellsBacked c hold

theorem inv_of_transact {q : Request} (hinv : s.Inv) (h : transact q s = .next t) : t.Inv := by
  obtain ⟨i, hd, htr⟩ | ⟨why, -, htr⟩ := transact_cases q s <;> rw [htr] at h
  · obtain ⟨hwf, hcells⟩ := mem_inv_of_exec hinv h
    obtain ⟨haw, -, hram, -⟩ := exec_frame h
    exact hinv.of_parts haw hram hwf hcells (presentsLegal_of_decode hd h)
  · cases h
    exact hinv.of_parts rfl rfl hinv.memWf hinv.cellsBacked (presentsLegal_answer s (legal_blank _))

/-- A transaction with other writes beside it is the transaction, then the store (R38). -/
theorem transactDuring_next {q : Request} (h : transactDuring q cells s = .next t) :
    ∃ u, transact q s = .next u ∧ hostStore cells u = .next t := by
  unfold transactDuring at h
  split at h
  · cases h
  · split at h
    · next u hu => exact ⟨u, hu, h⟩
    · cases h
    · cases h

/-- Every event of the host keeps the invariant. -/
theorem inv_of_hostEvent {e : HostEvent} (hinv : s.Inv) (h : hostEvent e s = .next t) : t.Inv := by
  cases e with
  | command q => exact inv_of_transact hinv h
  | commandDuring q cells =>
    obtain ⟨u, hu, hstore⟩ := transactDuring_next h
    exact inv_of_hostStore (inv_of_transact hinv hu) hstore
  | store cells => exact inv_of_hostStore (s := s.noResponse) (hinv.withdraw rfl rfl rfl rfl) h
  | reset p =>
    cases h
    exact hinv.withdraw rfl rfl rfl rfl
  | resetDuring q p => cases h

/-- Settles O49: an idle step withdraws the response, and each event keeps the invariant. -/
theorem stepKeepsTheInvariant : Obligations.StepKeepsTheInvariant := by
  intro s t hinv h
  rcases hhost : s.host with _ | ⟨e, rest⟩
  · cases (step_nil hhost).symm.trans h
    exact hinv.withdraw rfl rfl rfl rfl
  · refine inv_of_hostEvent (s := { s with host := rest }) ?_ ((step_cons hhost).symm.trans h)
    exact hinv.of_parts rfl rfl hinv.memWf hinv.cellsBacked hinv.rspLegal

/-- Settles O50: the reset map is the whole address space, and there is no byte and no response. -/
theorem resetMeetsTheInvariant : Obligations.ResetMeetsTheInvariant where
  memWf := Memory.reset_wf
  ramWf := ⟨List.pairwise_singleton .., fun g hg => by cases List.mem_singleton.1 hg; decide⟩
  cellsBacked := fun _ hc => absurd hc List.not_mem_nil
  rspLegal := fun _ hr => nomatch hr

/-! ### Dutiful hosts -/

/-- The duties are a matter of the parameters alone. -/
theorem hostDuty_congr (haw : t.aw = s.aw) (hram : t.ram = s.ram) (e : HostEvent) : hostDuty t e ↔ hostDuty s e := by
  cases e <;> simp only [hostDuty, requestDuty, spanUsable_congr haw hram, hram]

theorem hostStore_of_backed (h : ∀ c ∈ cells, addressBacked s.ram c.1 = true) :
    hostStore cells s = .next { s with mem := Memory.writeCells s.mem cells } := by
  obtain ⟨-, hstore⟩ | ⟨hnot, -⟩ := hostStore_cases cells s
  · exact hstore
  · exact absurd h hnot

/-- An event that keeps the duties ends in a state with the same parameters and the same events to come (R134, R141). -/
theorem hostEvent_of_duty {e : HostEvent} (h : hostDuty s e) :
    ∃ t, hostEvent e s = .next t ∧ t.aw = s.aw ∧ t.ram = s.ram ∧ t.host = s.host := by
  cases e with
  | command q =>
    obtain ⟨t, ht⟩ := transact_next q s h
    obtain ⟨haw, hram, hhost, -⟩ := transact_frame ht
    exact ⟨t, ht, haw, hram, hhost⟩
  | commandDuring q cells =>
    obtain ⟨hduty, htouch, hback⟩ := h
    obtain ⟨t, ht⟩ := transact_next q s hduty
    obtain ⟨haw, hram, hhost, -⟩ := transact_frame ht
    exact ⟨_, transactDuring_of_next htouch hback ht, haw, hram, hhost⟩
  | store cells => exact ⟨_, hostStore_of_backed (s := s.noResponse) h, rfl, rfl, rfl⟩
  | reset p => exact ⟨_, rfl, rfl, rfl, rfl⟩
  | resetDuring q p => exact h.elim

/-- A step of a dutiful host ends in a state from which the host is dutiful. -/
theorem step_of_duty (h : ∀ e ∈ s.host, hostDuty s e) : ∃ t, step s = .next t ∧ ∀ e ∈ t.host, hostDuty t e := by
  rcases hhost : s.host with _ | ⟨e, rest⟩
  · exact ⟨_, step_nil hhost, fun e he => by rw [State.noResponse_host, hhost] at he; cases he⟩
  · rw [hhost] at h
    have hduty : hostDuty { s with host := rest } e := (hostDuty_congr rfl rfl e).2 (h e List.mem_cons_self)
    obtain ⟨t, ht, haw, hram, hrest⟩ := hostEvent_of_duty hduty
    refine ⟨t, (step_cons hhost).trans ht, fun e' he' => (hostDuty_congr haw hram e').2 ?_⟩
    rw [hrest] at he'
    exact (hostDuty_congr rfl rfl e').2 (h e' (List.mem_cons_of_mem _ he'))

/-- Settles O48: by induction on the number of steps, each of which leaves a dutiful host. -/
theorem dutifulHostsAreNeverStopped : Obligations.DutifulHostsAreNeverStopped := by
  intro k
  induction k with
  | zero => exact fun s _ => ⟨s, rfl⟩
  | succ k ih =>
    intro s h
    obtain ⟨t, ht, hduty⟩ := step_of_duty h
    obtain ⟨u, hu⟩ := ih t hduty
    exact ⟨u, (run_succ k ht).trans hu⟩

end Sys2Proof.Machine
end

-- ==== The host's programs ====
section
/-! PROOF of the statement on the programs of R50. One step of the system over the event of an act is that act of the
program; the rest is by induction on the program. -/

namespace Sys2Proof.Machine

variable {α : Type} {s t : State} {u : HostRun α}

/-- The state `s` with the host about to issue the events of the acts, and then what it was about to do (R37). -/
def State.issuing (s : State) (acts : List HostAct) : State := { s with host := eventsOf acts ++ s.host }

/-! ### One act of a program -/

/-- A step over an issued request is the transaction (R15). -/
theorem step_issuing_issued {r : Request} (q : Response) (h : transact r s = .next t) (acts : List HostAct) :
    step (s.issuing (.issued r q :: acts)) = .next (t.issuing acts) := by
  obtain ⟨-, -, hhost, -⟩ := transact_frame h
  rw [State.issuing, State.issuing, hhost]
  exact transact_host h (eventsOf acts ++ s.host)

/-- A step over a store in ordinary memory is the store (R25). -/
theorem step_issuing_stored {cells : List Host.Cell} (h : ∀ c ∈ cells, addressBacked s.ram c.1 = true)
    (acts : List HostAct) :
    step (s.issuing (.stored cells :: acts)) =
      .next (State.issuing { s.noResponse with mem := Memory.writeCells s.mem cells } acts) :=
  hostStore_of_backed (s := State.noResponse (s.issuing acts)) h

/-! ### The two sides of a run -/

/-- The host's side: told what it got, a program does the acts of its run and ends with the run's variables (R50). -/
theorem follow_of_run (p : HostProgram α) (h : p.run s = .next u) : p.follow u.acts = some u.vars := by
  induction p generalizing s u with
  | finish vars =>
    cases h
    rfl
  | issue r next ih =>
    obtain ⟨t, q, v, -, -, hv, rfl⟩ := run_issue h
    exact (if_pos rfl).trans (ih q hv)
  | store cells next ih =>
    obtain ⟨v, -, hv, rfl⟩ := run_store h
    exact (if_pos rfl).trans (ih hv)
  | load addr next ih =>
    obtain ⟨v, -, hv, rfl⟩ := run_load h
    exact (if_pos rfl).trans (ih _ hv)

/-- The system's side: over the events of the acts it ends in the run's final state, with the responses the program got
(R37, R50). -/
theorem runResponses_of_run (p : HostProgram α) (h : p.run s = .next u) :
    runResponses (eventsOf u.acts).length (s.issuing u.acts) = .next (u.final, responsesOf u.acts) := by
  induction p generalizing s u with
  | finish vars =>
    cases h
    rfl
  | issue r next ih =>
    obtain ⟨t, q, v, ht, hq, hv, rfl⟩ := run_issue h
    have hstep := step_issuing_issued q ht v.acts
    have hrest := runResponses_succ hstep (ih q hv)
    rwa [show (t.issuing v.acts).rsp = some q from hq] at hrest
  | store cells next ih =>
    obtain ⟨v, hback, hv, rfl⟩ := run_store h
    exact runResponses_succ (step_issuing_stored hback v.acts) (ih hv)
  | load addr next ih =>
    obtain ⟨v, -, hv, rfl⟩ := run_load h
    have hrest := ih _ hv
    exact hrest

/-- A run with its responses is a run. -/
theorem run_of_runResponses {k : Nat} {ps : List Response} (h : runResponses k s = .next (t, ps)) :
    core.run k s = .next t := by
  induction k generalizing s ps with
  | zero =>
    cases h
    rfl
  | succ k ih =>
    simp only [runResponses] at h
    split at h
    · next s' hs =>
      rw [run_succ k hs]
      split at h
      · next u qs hrest =>
        cases h
        exact ih hrest
      · cases h
      · cases h
    · cases h
    · cases h

/-! ### Loads -/

/-- Memory at `addr`, ordinary memory, holds `b` after the events of `past` (R25). -/
def HoldsAfter (s : State) (past : List HostAct) (addr : Nat) (b : Byte) : Prop :=
  ∃ t, core.run (eventsOf past).length s = .next t ∧ addressBacked t.ram addr = true ∧ Memory.read t.mem addr = b

theorem HoldsAfter.of_step {a : HostAct} {e : HostEvent} {past : List HostAct} {addr : Nat} {b : Byte}
    (he : a.event = some e) (hs : step s = .next t) (h : HoldsAfter t past addr b) :
    HoldsAfter s (a :: past) addr b := by
  obtain ⟨v, hv, hback, hread⟩ := h
  have hevents : eventsOf (a :: past) = e :: eventsOf past := List.filterMap_cons_some he
  exact ⟨v, by rw [hevents, List.length_cons, run_succ _ hs, hv], hback, hread⟩

/-- Every byte a program loaded is what memory held after the events before the load (R25). -/
theorem holdsAfter_of_run (p : HostProgram α) (h : p.run s = .next u) {past after : List HostAct} {addr : Nat}
    {b : Byte} (hacts : u.acts = past ++ .loaded addr b :: after) : HoldsAfter (s.issuing u.acts) past addr b := by
  induction p generalizing s u past with
  | finish vars =>
    cases h
    exact absurd hacts.symm (List.append_ne_nil_of_right_ne_nil past (List.cons_ne_nil _ _))
  | issue r next ih =>
    obtain ⟨t, q, v, ht, -, hv, rfl⟩ := run_issue h
    cases past with
    | nil => cases (List.cons.inj hacts).1
    | cons a past =>
      obtain ⟨rfl, hrest⟩ := List.cons.inj hacts
      exact (ih q hv hrest).of_step rfl (step_issuing_issued q ht v.acts)
  | store cells next ih =>
    obtain ⟨v, hback, hv, rfl⟩ := run_store h
    cases past with
    | nil => cases (List.cons.inj hacts).1
    | cons a past =>
      obtain ⟨rfl, hrest⟩ := List.cons.inj hacts
      exact (ih hv hrest).of_step rfl (step_issuing_stored hback v.acts)
  | load addr' next ih =>
    obtain ⟨v, hback, hv, rfl⟩ := run_load h
    cases past with
    | nil =>
      obtain ⟨hload, -⟩ := List.cons.inj hacts
      cases hload
      exact ⟨_, rfl, hback, rfl⟩
    | cons a past =>
      obtain ⟨rfl, hrest⟩ := List.cons.inj hacts
      have hafter := ih _ hv hrest
      exact hafter

/-- Settles O43: the two sides of the run, and the bytes the program loaded. -/
theorem programsAreRunsOverTheirEvents : Obligations.ProgramsAreRunsOverTheirEvents := by
  intro α p s u h
  have hsystem := runResponses_of_run p h
  exact ⟨follow_of_run p h, run_of_runResponses hsystem, hsystem, fun past addr b after => holdsAfter_of_run p h⟩

end Sys2Proof.Machine
end
